-- ==== Sys2Proof/Word.lean ====
section
/-! DEFINITION. The word types of the block and the plain data its encodings are made of. -/

namespace Sys2Proof

/-- A register of the block (00_scope.md R11). -/
abbrev Word := BitVec 32

/-- A byte of IN or IMG (10_state.md R65, R66). -/
abbrev Byte := BitVec 8

/-- The value of one ASCII hex digit (30_encoding.md R121). -/
abbrev Nibble := BitVec 4

/-- The selector `we || addr` of a bus transaction (30_encoding.md R100). -/
abbrev Selector := BitVec 9

/-- The terminator of a record (40_hex_decoder.md R150). -/
inductive Terminator where
  | none
  | cr
  | lf
  | crlf
  deriving DecidableEq, Repr

/-- The fields of one ASCII-hex record besides its type (30_encoding.md R120, R123); L is the
payload's length, `ck` the checksum digits that R145 never compares. -/
structure HexRecord where
  addr    : BitVec 16
  payload : List Byte
  ck      : Byte
  term    : Terminator
  deriving DecidableEq, Repr

/-- The registers of 10_state.md R30, in the order of their offsets. -/
inductive Reg where
  | id | ctrl | maxAddr | secSize | vwin | cmd | status | errInfo
  | inAddr | inData | inLen | imgAddr | imgData
  | startAddr | endAddr | imgCsum | imgCrc | secCount | ext | recCount | cur
  | secIdx | secStart | secEnd | secLen | secCsum | secCrc
  | vgTotal | vgIdx | vgFirst | vgLast | vgStart | vgLen | vgExpect | vgResp
  | rangeStart | rangeLen | rangeCsum | rangeCrc | capBuf | capIn | capSec
  deriving DecidableEq, Repr

/-- The three opcode spaces of the block (00_scope.md R3). -/
inductive OpcodeSpace where
  | command
  | record
  | bus
  deriving DecidableEq, Repr

end Sys2Proof
end

