-- ==== Sys2Proof/Config.lean ====
section
/-! DEFINITION. What an implementation fixes, the spec's numeric literals, and the values the spec
leaves open. A constant marked opaque is a free value: no proof can know it. -/

namespace Sys2Proof.Config

/-- ID (10_state.md R31). -/
def idWord : Word := 0x43535601

/-- The fill value (41_image_builder.md R180; a literal of 93_implementation_defined.md part 3). -/
def fillByte : Byte := 0xFF

/-- The CRC polynomial (41_image_builder.md R191; unaudited literal). -/
def crcPoly : Word := 0x04C11DB7

/-- The CRC seed (41_image_builder.md R191; unaudited literal). -/
def crcSeed : Word := 0xFFFFFFFF

/-- The right shift of an EXT02 value (40_hex_decoder.md R162; unaudited literal). -/
def ext02Shift : Nat := 12

/-- Where BUF_CAP comes from: any 32-bit value (00_scope.md R9). -/
opaque bufCapRaw : Word

/-- Where IN_CAP comes from: any 32-bit value (00_scope.md R9). -/
opaque inCapRaw : Word

/-- Where SEC_CAP comes from: any 32-bit value (00_scope.md R9). -/
opaque secCapRaw : Word

/-- A capacity is 1 to 2^32 - 1 (00_scope.md R9): 0 is read as 1, every other value as itself, so
that the parameter ranges over exactly the legal values. -/
def capacity (raw : Word) : Word := if raw = 0 then 1 else raw

/-- BUF_CAP, the bytes of IMG (00_scope.md R9, log 3). -/
def bufCap : Word := capacity bufCapRaw

/-- IN_CAP, the bytes of IN (00_scope.md R9, log 3). -/
def inCap : Word := capacity inCapRaw

/-- SEC_CAP, the entries of SEC (00_scope.md R9, log 3). -/
def secCap : Word := capacity secCapRaw

/-- Free value: what IN[a] holds after the reset event number `epoch` until it is written
(70_reset_and_hazards.md R382, U3, log 4). -/
opaque inPowerOn : (epoch : Nat) → (a : Nat) → Byte

/-- Free value: what IMG[a] holds after the reset event number `epoch` until the first DECODE
(70_reset_and_hazards.md R382, U4, log 5). -/
opaque imgPowerOn : (epoch : Nat) → (a : Nat) → Byte

/-- Free value: field `field` (0 start, 1 end, 2 len, 3 csum, 4 crc) of SEC[i] after the reset event
number `epoch` until BUILD writes it (70_reset_and_hazards.md R382, U5, log 6). -/
opaque secPowerOn : (epoch : Nat) → (i : Nat) → (field : Nat) → Word

/-- Free value: what the n-th read of an unspecified register during BUSY returns
(70_reset_and_hazards.md R391, U1, log 7). -/
opaque busyRead : (n : Nat) → Word

end Sys2Proof.Config
end

