-- ==== Sys2Proof/Machine/State.lean ====
section
/-! DEFINITION. The state of the block as plain data (10_state.md), its reset values
(70_reset_and_hazards.md R381), and the ways a step can stop. -/

namespace Sys2Proof.Machine

/-- STATUS.PHASE (10_state.md R38). -/
inductive Phase where
  | idle
  | decoded
  | built
  | verifying
  | passed
  | failed
  deriving DecidableEq, Repr

/-- STATUS.ERRCODE (60_exceptions.md R340). -/
inductive ErrCode where
  | none
  | hexChar
  | hexTrunc
  | recType
  | addrRange
  | spanRange
  | verifyMismatch
  | config
  | sectorOvf
  | sequence
  | illegalCmd
  | range
  deriving DecidableEq, Repr

/-- PEND, the operation the engine will perform next (10_state.md R68). -/
inductive Pend where
  | none
  | cmd (w : Word)
  | vstep
  deriving DecidableEq, Repr

/-- An entry of the sector table (10_state.md R67). -/
structure Sector where
  startAddr : Word
  endAddr   : Word
  len       : Word
  csum      : Word
  crc       : Word
  deriving DecidableEq, Repr

/-- A byte buffer: the bytes that differ from `fill`, addresses strictly rising. An unlisted byte reads
as `fill`, and `fill = none` means that nothing has given it a value since reset. -/
structure Memory where
  fill  : Option Byte
  cells : List Host.Cell
  deriving DecidableEq, Repr

/-- What happens outside the engine's own work, one entry a step (00_scope.md R17, R18,
70_reset_and_hazards.md R380; log 1). -/
inductive Event where
  /-- The host issues a bus transaction (30_encoding.md R100). -/
  | bus (sel : Selector) (wdata : Word)
  /-- The engine has its turn: it performs the pending operation, if there is one. -/
  | engine
  /-- The platform asserts reset. -/
  | reset
  deriving DecidableEq, Repr

/-- The state of the block, field by field as 10_state.md lists it. -/
structure State where
  -- profile registers (R32 to R36); CTRL stores only its bits 1:0
  ctrl       : BitVec 2
  maxAddr    : Word
  secSize    : Word
  vwin       : Word
  -- STATUS and ERRINFO (R37 to R43); BUSY and VREQ are computed (R68, R42; log 12)
  eofSeen    : Bool
  drop       : Bool
  phase      : Phase
  errCode    : ErrCode
  errPhase   : Phase
  errInfo    : Word
  -- input and image ports (R45, R47, R48)
  inAddr     : Word
  inLen      : Word
  imgAddr    : Word
  -- image results and decoder registers (R50 to R57); EXT stores only its bits 15:0
  startAddr  : Word
  endAddr    : Word
  imgCsum    : Word
  imgCrc     : Word
  secCount   : Word
  ext        : BitVec 16
  recCount   : Word
  cur        : Word
  -- sector-table view index (R58)
  secIdx     : Word
  -- verify-group registers (R59 to R61)
  vgTotal    : Word
  vgIdx      : Word
  vgFirst    : Word
  vgLast     : Word
  vgStart    : Word
  vgLen      : Word
  vgExpect   : Word
  vgResp     : Word
  -- range registers (R62)
  rangeStart : Word
  rangeLen   : Word
  rangeCsum  : Word
  rangeCrc   : Word
  -- capacities (R63): the implementation parameters, which no step changes (log 3)
  capBuf     : Word
  capIn      : Word
  capSec     : Word
  -- buffers and the sector table (R65 to R67)
  inBuf      : Memory
  imgBuf     : Memory
  sec        : List Sector
  -- internal state (R68, R69)
  pend       : Pend
  haveData   : Bool
  -- the model's own (logs 1, 2, 7, 15): the last word read, the events to come, the counters of draws
  rdata      : Word
  schedule   : List Event
  draws      : Nat
  resets     : Nat
  deriving DecidableEq, Repr

/-- Why the machine stops. -/
inductive Fault where
  /-- Raised by the verify step (42_verifier.md R230) when VG_IDX + 1 names no group of Groups(), which
  no run from reset reaches and for which the spec gives no effect. Safe: the model stops where it has
  nothing to say (log 11). -/
  | noSuchGroup
  deriving DecidableEq, Repr

/-- Why an instruction has no meaning. -/
inductive Refusal where
  /-- Raised by exec's arm of an instruction that has no meaning yet; no arm is left so. Safe: the
  model says nothing of it. -/
  | notModelled (mnemonic : String)
  deriving DecidableEq, Repr

/-- What a step answers. -/
abbrev Result := Host.Outcome State Fault Refusal

/-- A buffer of which nothing has been written since reset (70_reset_and_hazards.md R382). -/
def Memory.unspecified : Memory := { fill := none, cells := [] }

/-- The block right after reset (70_reset_and_hazards.md R381): IN, IMG and SEC hold no known value
(R382), the capacities are the parameters, no event has been scheduled (log 1). -/
def State.reset : State where
  ctrl := 0x2
  maxAddr := 0
  secSize := 0
  vwin := 0
  eofSeen := false
  drop := false
  phase := .idle
  errCode := .none
  errPhase := .idle
  errInfo := 0
  inAddr := 0
  inLen := 0
  imgAddr := 0
  startAddr := 0
  endAddr := 0
  imgCsum := 0
  imgCrc := 0
  secCount := 0
  ext := 0
  recCount := 0
  cur := 0
  secIdx := 0
  vgTotal := 0
  vgIdx := 0
  vgFirst := 0
  vgLast := 0
  vgStart := 0
  vgLen := 0
  vgExpect := 0
  vgResp := 0
  rangeStart := 0
  rangeLen := 0
  rangeCsum := 0
  rangeCrc := 0
  capBuf := Config.bufCap
  capIn := Config.inCap
  capSec := Config.secCap
  inBuf := Memory.unspecified
  imgBuf := Memory.unspecified
  sec := []
  pend := .none
  haveData := false
  rdata := 0
  schedule := []
  draws := 0
  resets := 0

end Sys2Proof.Machine
end

