-- ==== Sys2Proof/Machine/Flags.lean ====
section
/-! DEFINITION. The fields of STATUS and CTRL and the phase tests: every flag the block computes. -/

namespace Sys2Proof.Machine

/-- The encoding of PHASE (10_state.md R38). -/
def Phase.code : Phase → BitVec 4
  | .idle => 0x0
  | .decoded => 0x1
  | .built => 0x2
  | .verifying => 0x3
  | .passed => 0x4
  | .failed => 0xF

/-- The encoding of ERRCODE (60_exceptions.md R340). -/
def ErrCode.code : ErrCode → BitVec 8
  | .none => 0x00
  | .hexChar => 0x01
  | .hexTrunc => 0x02
  | .recType => 0x03
  | .addrRange => 0x04
  | .spanRange => 0x05
  | .verifyMismatch => 0x06
  | .config => 0x07
  | .sectorOvf => 0x08
  | .sequence => 0x09
  | .illegalCmd => 0x0A
  | .range => 0x0B

/-- CTRL.USES_CRC (10_state.md R32). -/
def State.usesCrc (s : State) : Bool := s.ctrl.getLsbD 0

/-- CTRL.EOF_STOP (10_state.md R32). -/
def State.eofStop (s : State) : Bool := s.ctrl.getLsbD 1

/-- STATUS.BUSY: 1 exactly when PEND is not NONE (10_state.md R42, R68). -/
def State.busy (s : State) : Bool := s.pend != .none

/-- STATUS.VREQ (10_state.md R42). -/
def State.vreq (s : State) : Bool := s.phase == .verifying && !s.busy

/-- STATUS (10_state.md R37, 44_bus_access.md R301), bits 31:20 first. -/
def State.status (s : State) : Word :=
  0#12 ++ s.errPhase.code ++ s.errCode.code ++ s.phase.code
    ++ BitVec.ofBool s.drop ++ BitVec.ofBool s.eofSeen ++ BitVec.ofBool s.vreq
    ++ BitVec.ofBool s.busy

/-- The phases a command word is performed in (43_commands.md R250); `op` is the word's OP. -/
def opLegalIn (op : BitVec 4) (p : Phase) : Bool :=
  if op = 0x0#4 then true
  else if op = 0x1#4 then true
  else if op = 0x2#4 then p == .idle
  else if op = 0x3#4 then p == .decoded
  else if op = 0x4#4 then p == .built || p == .passed
  else if op = 0x5#4 then p == .decoded || p == .built || p == .verifying || p == .passed
  else false

/-- The command words the bus accepts while PHASE = FAILED (44_bus_access.md R294). -/
def acceptedInFailed (w : Word) : Bool := w == 0x0#32 || w == 0x1#32

end Sys2Proof.Machine
end

