-- ==== Sys2Proof/Machine/Ops.lean ====
section
/-! DEFINITION. The named operations every meaning is written over: the buffers, the sums and the CRC,
a host read and a host write, error entry and its return, and the end of an engine step. -/

namespace Sys2Proof.Machine

/-! ### Buffers -/

/-- The listed byte at `a`. -/
def cellAt (a : Nat) : List Host.Cell → Option Byte
  | [] => none
  | (b, v) :: r => if a = b then some v else cellAt a r

/-- Lists `v` at `a`, keeping the addresses rising; a byte equal to what an unlisted address reads as is
taken off the list. -/
def putCell (fill : Option Byte) (a : Nat) (v : Byte) : List Host.Cell → List Host.Cell
  | [] => if fill = some v then [] else [(a, v)]
  | (b, w) :: r =>
    if a < b then (if fill = some v then (b, w) :: r else (a, v) :: (b, w) :: r)
    else if a = b then (if fill = some v then r else (a, v) :: r)
    else (b, w) :: putCell fill a v r

/-- Whether `a` is above the bound, if there is one. -/
def aboveBound : Option Nat → Nat → Bool
  | none, _ => true
  | some l, a => decide (l < a)

/-- Every listed address is above `lo`, they rise strictly, and no listed byte equals `fill`. -/
def cellsFrom (fill : Option Byte) : Option Nat → List Host.Cell → Bool
  | _, [] => true
  | lo, (a, v) :: r => aboveBound lo a && fill != some v && cellsFrom fill (some a) r

/-- The canonical form of a buffer. -/
def Memory.wf (m : Memory) : Bool := cellsFrom m.fill none m.cells

/-- What a byte that is not listed reads as. -/
def Memory.unlisted (m : Memory) : Option Byte := m.fill

/-- The byte at `a`; `none` where nothing has given it a value since reset. -/
def Memory.read? (m : Memory) (a : Nat) : Option Byte :=
  match cellAt a m.cells with
  | some v => some v
  | none => m.unlisted

/-- Writes one byte. -/
def Memory.write (m : Memory) (a : Nat) (v : Byte) : Memory :=
  { m with cells := putCell m.fill a v m.cells }

/-- Writes bytes at `a`, `a + 1`, … in order (41_image_builder.md R184). -/
def Memory.writeBytes (m : Memory) (a : Nat) : List Byte → Memory
  | [] => m
  | v :: vs => (m.write a v).writeBytes (a + 1) vs

/-- A buffer whose every byte is `v` (41_image_builder.md R180). -/
def Memory.filled (v : Byte) : Memory := { fill := some v, cells := [] }

/-- IN[a]; a byte nothing has written since reset is a free value (70_reset_and_hazards.md R382, U3). -/
def State.inByte (s : State) (a : Nat) : Byte :=
  match s.inBuf.read? a with
  | some v => v
  | none => Config.inPowerOn s.resets a

/-- IMG[a]; before the first DECODE after reset a free value (70_reset_and_hazards.md R382, U4). -/
def State.imgByte (s : State) (a : Nat) : Byte :=
  match s.imgBuf.read? a with
  | some v => v
  | none => Config.imgPowerOn s.resets a

/-- SEC[i]; an entry nothing has written since reset is a free value (70_reset_and_hazards.md R382,
U5). -/
def State.sector (s : State) (i : Nat) : Sector :=
  match s.sec[i]? with
  | some e => e
  | none =>
    { startAddr := Config.secPowerOn s.resets i 0
      endAddr := Config.secPowerOn s.resets i 1
      len := Config.secPowerOn s.resets i 2
      csum := Config.secPowerOn s.resets i 3
      crc := Config.secPowerOn s.resets i 4 }

/-! ### Arithmetic (00_scope.md R13, 41_image_builder.md R190, R191) -/

/-- `ceil_div` (00_scope.md R13). -/
def ceilDiv (a b : Nat) : Nat := a / b + (if a % b ≠ 0 then 1 else 0)

/-- The smaller of two unsigned words (00_scope.md R13). -/
def minWord (a b : Word) : Word := if a.toNat ≤ b.toNat then a else b

/-- The larger of two unsigned words (00_scope.md R13). -/
def maxWord (a b : Word) : Word := if a.toNat ≤ b.toNat then b else a

/-- `Sum32` (41_image_builder.md R190). -/
def sum32 (bytes : List Byte) : Word := BitVec.ofNat 32 (bytes.map BitVec.toNat).sum

/-- The sum of words mod 2^32 (41_image_builder.md R198, 42_verifier.md R225). -/
def sumWords (ws : List Word) : Word := BitVec.ofNat 32 (ws.map BitVec.toNat).sum

/-- One bit step of the CRC (41_image_builder.md R191). -/
def crcBit (c : Word) : Word := if c.getLsbD 31 then (c <<< 1) ^^^ Config.crcPoly else c <<< 1

/-- `n` bit steps of the CRC. -/
def crcBits : Nat → Word → Word
  | 0, c => c
  | n + 1, c => crcBits n (crcBit c)

/-- The CRC register after one byte: the byte enters at the top, then 8 bit steps (41_image_builder.md
R191). -/
def crcByte (c : Word) (b : Byte) : Word := crcBits 8 (c ^^^ (b.setWidth 32 <<< 24))

/-- The loop of `CRC32` over bytes, from the register value `c` (41_image_builder.md R191, R192). -/
def crcFrom (c : Word) (bytes : List Byte) : Word := bytes.foldl crcByte c

/-- `CRC32` (41_image_builder.md R191). -/
def crc32 (bytes : List Byte) : Word := crcFrom Config.crcSeed bytes

/-! ### Host transactions -/

/-- A read returns `w` to the host (30_encoding.md R100). -/
def State.answer (s : State) (w : Word) : State := { s with rdata := w }

/-- A read of an unspecified register during BUSY: a fresh free value, no other effect
(70_reset_and_hazards.md R391, U1). -/
def State.answerDraw (s : State) : State :=
  { s with rdata := Config.busyRead s.draws, draws := s.draws + 1 }

/-- A transaction that is dropped sets DROP (10_state.md R41). -/
def State.dropWrite (s : State) : State := { s with drop := true }

/-- A read transaction of a listed offset: the register's own read rule with BUSY = 0, an unspecified
value and no side effect with BUSY = 1 (44_bus_access.md R290, 70_reset_and_hazards.md R391). -/
def hostRead (rule : State → State) (s : State) : State :=
  if s.busy then s.answerDraw else rule s

/-- A plain read: returns the register's value, changes nothing else (44_bus_access.md R292). -/
def plainRead (value : State → Word) (s : State) : State :=
  hostRead (fun s => s.answer (value s)) s

/-- A write transaction of a listed offset: the register's own write rule with BUSY = 0, dropped with
BUSY = 1 (44_bus_access.md R290, 70_reset_and_hazards.md R390). -/
def hostWrite (rule : State → State) (s : State) : State :=
  if s.busy then s.dropWrite else rule s

/-- A write of a read-only register has no effect with BUSY = 0 (44_bus_access.md R291). -/
def readOnlyWrite (s : State) : State := hostWrite (fun s => s) s

/-- A write of a profile register is dropped outside IDLE (44_bus_access.md R295,
70_reset_and_hazards.md R392). -/
def profileWrite (store : State → State) (s : State) : State :=
  hostWrite (fun s => if s.phase = .idle then store s else s.dropWrite) s

/-- An operation is recorded in PEND, and so BUSY becomes 1 (00_scope.md R18). -/
def State.start (s : State) (p : Pend) : State := { s with pend := p }

/-! ### Engine operations -/

/-- How an engine operation ends: without error, or by `raise Err(code, info)`, with the state as the
operation has left it (00_scope.md R14). -/
inductive EngineEnd where
  | ok (s : State)
  | err (s : State) (code : ErrCode) (info : Word)
  deriving DecidableEq, Repr

/-- Error entry (60_exceptions.md R350). The phase in which the operation was accepted is still PHASE:
nothing changes it before a raise (43_commands.md R252). -/
def enterError (code : ErrCode) (info : Word) (s : State) : State :=
  { s with errPhase := s.phase, errCode := code, errInfo := info, phase := .failed }

/-- Return from an error, the part that CLEAR and reset share (60_exceptions.md R352). -/
def leaveError (s : State) : State :=
  { s with phase := .idle, errCode := .none, errPhase := .idle, errInfo := 0 }

/-- The end of every engine step: an error is entered, then BUSY and PEND are cleared (00_scope.md R18,
60_exceptions.md R350). -/
def endStep : EngineEnd → State
  | .ok s => { s with pend := .none }
  | .err s code info => { enterError code info s with pend := .none }

/-- The dispatch of a legal command word: performed in its phases, E_SEQUENCE with ERRINFO = OP in the
others (43_commands.md R250, R252). -/
def runCommand (op : BitVec 4) (body : State → EngineEnd) (s : State) : State :=
  endStep (if opLegalIn op s.phase then body s else .err s .sequence (op.setWidth 32))

/-- An illegal command word (43_commands.md R275). -/
def runIllegal (w : Word) (s : State) : State := endStep (.err s .illegalCmd w)

/-- The reset event (70_reset_and_hazards.md R380, R381, R383): every register and internal element
takes its reset value and the buffers become unspecified anew; the parameters, the events still to
come and the host's last word read are not the block's and stay (log 15). -/
def resetEvent (s : State) : State :=
  { State.reset with
    capBuf := s.capBuf
    capIn := s.capIn
    capSec := s.capSec
    rdata := s.rdata
    schedule := s.schedule
    draws := s.draws
    resets := s.resets + 1 }

end Sys2Proof.Machine
end

