-- ==== Sys2Proof/Machine/Operands.lean ====
section
/-! DEFINITION. The operand forms: what a command or a transaction reads from the state before it
computes. -/

namespace Sys2Proof.Machine

/-- The absolute address of a data record, `ADDR16 + (EXT << 16)` (40_hex_decoder.md R166). -/
def absoluteAddr (ext : BitVec 16) (addr : BitVec 16) : Word :=
  addr.setWidth 32 + (ext.setWidth 32 <<< 16)

/-- The value V of an extended-address record's two payload bytes, first byte high (30_encoding.md
R126). -/
def extValue (d0 d1 : Byte) : BitVec 16 := (d0.setWidth 16 <<< 8) ||| d1.setWidth 16

/-- The bytes IN[lo, hi) (00_scope.md R15). -/
def State.inRange (s : State) (lo len : Nat) : List Byte :=
  (List.range len).map (fun j => s.inByte (lo + j))

/-- The input text IN[0, IN_LEN) (10_state.md R47). -/
def State.inText (s : State) : List Byte := s.inRange 0 s.inLen.toNat

/-- The bytes IMG[lo, lo + len) (00_scope.md R15). -/
def State.imgRange (s : State) (lo len : Nat) : List Byte :=
  (List.range len).map (fun j => s.imgByte (lo + j))

/-- The valid entries of the sector table, SEC[0, SEC_COUNT) (10_state.md R67). -/
def State.sectors (s : State) : List Sector :=
  (List.range s.secCount.toNat).map (fun i => s.sector i)

/-- A field of the sector-table view (10_state.md R58). -/
def State.sectorView (s : State) (field : Sector → Word) : Word :=
  if s.secIdx.toNat < s.secCount.toNat then field (s.sector s.secIdx.toNat) else 0

/-- The byte the IN_DATA port shows (44_bus_access.md R298). -/
def State.inPort (s : State) : Word :=
  if s.inAddr.toNat < s.capIn.toNat then (s.inByte s.inAddr.toNat).setWidth 32 else 0

/-- The byte the IMG_DATA port shows (44_bus_access.md R299). -/
def State.imgPort (s : State) : Word :=
  if s.imgAddr.toNat < s.capBuf.toNat then (s.imgByte s.imgAddr.toNat).setWidth 32 else 0

end Sys2Proof.Machine
end

