-- ==== Sys2Proof/Machine/BusReads.lean ====
section
/-! DEFINITION. The read transactions of the bus (44_bus_access.md part 2), one meaning each. -/

namespace Sys2Proof.Machine

/-- Read of ID: the constant, also while BUSY (10_state.md R31, 70_reset_and_hazards.md R391). -/
def execRdId (s : State) : Result := .next (s.answer Config.idWord)

/-- Read of CMD: 0, also while BUSY (44_bus_access.md R303, 70_reset_and_hazards.md R391). -/
def execRdCmd (s : State) : Result := .next (s.answer 0)

/-- Read of STATUS: composed, also while BUSY, when BUSY reads 1 and VREQ 0 (44_bus_access.md R301,
70_reset_and_hazards.md R391). -/
def execRdStatus (s : State) : Result := .next (s.answer s.status)

/-- Read of CAP_BUF: the parameter, also while BUSY (10_state.md R63, 70_reset_and_hazards.md R391). -/
def execRdCapBuf (s : State) : Result := .next (s.answer s.capBuf)

/-- Read of CAP_IN: the parameter, also while BUSY (10_state.md R63, 70_reset_and_hazards.md R391). -/
def execRdCapIn (s : State) : Result := .next (s.answer s.capIn)

/-- Read of CAP_SEC: the parameter, also while BUSY (10_state.md R63, 70_reset_and_hazards.md R391). -/
def execRdCapSec (s : State) : Result := .next (s.answer s.capSec)

/-- Read of IN_DATA: the byte at IN_ADDR, then IN_ADDR + 1 mod 2^32 (44_bus_access.md R298). -/
def execRdInData (s : State) : Result :=
  .next (hostRead (fun s => { s.answer s.inPort with inAddr := s.inAddr + 1 }) s)

/-- Read of IMG_DATA: the byte at IMG_ADDR, then IMG_ADDR + 1 mod 2^32 (44_bus_access.md R299). -/
def execRdImgData (s : State) : Result :=
  .next (hostRead (fun s => { s.answer s.imgPort with imgAddr := s.imgAddr + 1 }) s)

/-- Read of CTRL: bits 1:0, the others 0 (44_bus_access.md R292, 10_state.md R32). -/
def execRdCtrl (s : State) : Result := .next (plainRead (fun s => s.ctrl.setWidth 32) s)

/-- Read of MAXADDR: the stored value (44_bus_access.md R292, 10_state.md R33). -/
def execRdMaxAddr (s : State) : Result := .next (plainRead State.maxAddr s)

/-- Read of SECSIZE: the stored value (44_bus_access.md R292, 10_state.md R34). -/
def execRdSecSize (s : State) : Result := .next (plainRead State.secSize s)

/-- Read of VWIN: the stored value (44_bus_access.md R292, 10_state.md R35). -/
def execRdVwin (s : State) : Result := .next (plainRead State.vwin s)

/-- Read of ERRINFO: the stored value (44_bus_access.md R292, 10_state.md R43). -/
def execRdErrInfo (s : State) : Result := .next (plainRead State.errInfo s)

/-- Read of IN_ADDR: the stored value (44_bus_access.md R292, 10_state.md R45). -/
def execRdInAddr (s : State) : Result := .next (plainRead State.inAddr s)

/-- Read of IN_LEN: the stored value (44_bus_access.md R292, 10_state.md R47). -/
def execRdInLen (s : State) : Result := .next (plainRead State.inLen s)

/-- Read of IMG_ADDR: the stored value (44_bus_access.md R292, 10_state.md R48). -/
def execRdImgAddr (s : State) : Result := .next (plainRead State.imgAddr s)

/-- Read of START_ADDR: the stored value (44_bus_access.md R292, 10_state.md R50). -/
def execRdStartAddr (s : State) : Result := .next (plainRead State.startAddr s)

/-- Read of END_ADDR: the stored value (44_bus_access.md R292, 10_state.md R51). -/
def execRdEndAddr (s : State) : Result := .next (plainRead State.endAddr s)

/-- Read of IMG_CSUM: the stored value (44_bus_access.md R292, 10_state.md R52). -/
def execRdImgCsum (s : State) : Result := .next (plainRead State.imgCsum s)

/-- Read of IMG_CRC: the stored value (44_bus_access.md R292, 10_state.md R53). -/
def execRdImgCrc (s : State) : Result := .next (plainRead State.imgCrc s)

/-- Read of SEC_COUNT: the stored value (44_bus_access.md R292, 10_state.md R54). -/
def execRdSecCount (s : State) : Result := .next (plainRead State.secCount s)

/-- Read of EXT: bits 15:0, the others 0 (44_bus_access.md R292, 10_state.md R55). -/
def execRdExt (s : State) : Result := .next (plainRead (fun s => s.ext.setWidth 32) s)

/-- Read of REC_COUNT: the stored value (44_bus_access.md R292, 10_state.md R56). -/
def execRdRecCount (s : State) : Result := .next (plainRead State.recCount s)

/-- Read of CUR: the stored value (44_bus_access.md R292, 10_state.md R57). -/
def execRdCur (s : State) : Result := .next (plainRead State.cur s)

/-- Read of SEC_IDX: the stored value (44_bus_access.md R292, 10_state.md R58). -/
def execRdSecIdx (s : State) : Result := .next (plainRead State.secIdx s)

/-- Read of SEC_START: the view of SEC[SEC_IDX] (44_bus_access.md R292, 10_state.md R58). -/
def execRdSecStart (s : State) : Result := .next (plainRead (fun s => s.sectorView Sector.startAddr) s)

/-- Read of SEC_END: the view of SEC[SEC_IDX] (44_bus_access.md R292, 10_state.md R58). -/
def execRdSecEnd (s : State) : Result := .next (plainRead (fun s => s.sectorView Sector.endAddr) s)

/-- Read of SEC_LEN: the view of SEC[SEC_IDX] (44_bus_access.md R292, 10_state.md R58). -/
def execRdSecLen (s : State) : Result := .next (plainRead (fun s => s.sectorView Sector.len) s)

/-- Read of SEC_CSUM: the view of SEC[SEC_IDX] (44_bus_access.md R292, 10_state.md R58). -/
def execRdSecCsum (s : State) : Result := .next (plainRead (fun s => s.sectorView Sector.csum) s)

/-- Read of SEC_CRC: the view of SEC[SEC_IDX] (44_bus_access.md R292, 10_state.md R58). -/
def execRdSecCrc (s : State) : Result := .next (plainRead (fun s => s.sectorView Sector.crc) s)

/-- Read of VG_TOTAL: the stored value (44_bus_access.md R292, 10_state.md R59). -/
def execRdVgTotal (s : State) : Result := .next (plainRead State.vgTotal s)

/-- Read of VG_IDX: the stored value (44_bus_access.md R292, 10_state.md R59). -/
def execRdVgIdx (s : State) : Result := .next (plainRead State.vgIdx s)

/-- Read of VG_FIRST: the stored value (44_bus_access.md R292, 10_state.md R60). -/
def execRdVgFirst (s : State) : Result := .next (plainRead State.vgFirst s)

/-- Read of VG_LAST: the stored value (44_bus_access.md R292, 10_state.md R60). -/
def execRdVgLast (s : State) : Result := .next (plainRead State.vgLast s)

/-- Read of VG_START: the stored value (44_bus_access.md R292, 10_state.md R60). -/
def execRdVgStart (s : State) : Result := .next (plainRead State.vgStart s)

/-- Read of VG_LEN: the stored value (44_bus_access.md R292, 10_state.md R60). -/
def execRdVgLen (s : State) : Result := .next (plainRead State.vgLen s)

/-- Read of VG_EXPECT: the stored value (44_bus_access.md R292, 10_state.md R60). -/
def execRdVgExpect (s : State) : Result := .next (plainRead State.vgExpect s)

/-- Read of VG_RESP: the stored value (44_bus_access.md R292, 10_state.md R61). -/
def execRdVgResp (s : State) : Result := .next (plainRead State.vgResp s)

/-- Read of RANGE_START: the stored value (44_bus_access.md R292, 10_state.md R62). -/
def execRdRangeStart (s : State) : Result := .next (plainRead State.rangeStart s)

/-- Read of RANGE_LEN: the stored value (44_bus_access.md R292, 10_state.md R62). -/
def execRdRangeLen (s : State) : Result := .next (plainRead State.rangeLen s)

/-- Read of RANGE_CSUM: the stored value (44_bus_access.md R292, 10_state.md R62). -/
def execRdRangeCsum (s : State) : Result := .next (plainRead State.rangeCsum s)

/-- Read of RANGE_CRC: the stored value (44_bus_access.md R292, 10_state.md R62). -/
def execRdRangeCrc (s : State) : Result := .next (plainRead State.rangeCrc s)

end Sys2Proof.Machine
end

