-- ==== Sys2Proof/Machine/BusWrites.lean ====
section
/-! DEFINITION. The write transactions of the bus (44_bus_access.md part 3) and the reserved accesses
(part 4), one meaning each. -/

namespace Sys2Proof.Machine

/-- Write of CTRL: bits 1:0 are stored (44_bus_access.md R295, 10_state.md R32). -/
def execWrCtrl (v : Word) (s : State) : Result :=
  .next (profileWrite (fun s => { s with ctrl := v.extractLsb' 0 2 }) s)

/-- Write of MAXADDR: at most BUF_CAP is stored (44_bus_access.md R295, 10_state.md R33). -/
def execWrMaxAddr (v : Word) (s : State) : Result :=
  .next (profileWrite (fun s => { s with maxAddr := minWord v s.capBuf }) s)

/-- Write of SECSIZE (44_bus_access.md R295, 10_state.md R34). -/
def execWrSecSize (v : Word) (s : State) : Result :=
  .next (profileWrite (fun s => { s with secSize := v }) s)

/-- Write of VWIN (44_bus_access.md R295, 10_state.md R35). -/
def execWrVwin (v : Word) (s : State) : Result :=
  .next (profileWrite (fun s => { s with vwin := v }) s)

/-- Write of CMD: starts a command; in FAILED every word but NOP and CLEAR is dropped
(44_bus_access.md R293, R294). -/
def execWrCmd (v : Word) (s : State) : Result :=
  .next (hostWrite (fun s =>
    if s.phase = .failed ∧ acceptedInFailed v = false then s.dropWrite else s.start (.cmd v)) s)

/-- Write of STATUS: bit 3 = 1 clears DROP (44_bus_access.md R296). -/
def execWrStatus (v : Word) (s : State) : Result :=
  .next (hostWrite (fun s => if v.getLsbD 3 then { s with drop := false } else s) s)

/-- Write of IN_ADDR (44_bus_access.md R300, 10_state.md R45). -/
def execWrInAddr (v : Word) (s : State) : Result :=
  .next (hostWrite (fun s => { s with inAddr := v }) s)

/-- Write of IN_DATA: the byte goes to IN[IN_ADDR] when IN_ADDR < IN_CAP, then IN_ADDR + 1 mod 2^32
(44_bus_access.md R297). -/
def execWrInData (v : Word) (s : State) : Result :=
  .next (hostWrite (fun s =>
    { s with
      inBuf := if s.inAddr.toNat < s.capIn.toNat
        then s.inBuf.write s.inAddr.toNat (v.extractLsb' 0 8) else s.inBuf
      inAddr := s.inAddr + 1 }) s)

/-- Write of IN_LEN: at most IN_CAP is stored (44_bus_access.md R300, 10_state.md R47). -/
def execWrInLen (v : Word) (s : State) : Result :=
  .next (hostWrite (fun s => { s with inLen := minWord v s.capIn }) s)

/-- Write of IMG_ADDR (44_bus_access.md R300, 10_state.md R48). -/
def execWrImgAddr (v : Word) (s : State) : Result :=
  .next (hostWrite (fun s => { s with imgAddr := v }) s)

/-- Write of SEC_IDX (44_bus_access.md R300, 10_state.md R58). -/
def execWrSecIdx (v : Word) (s : State) : Result :=
  .next (hostWrite (fun s => { s with secIdx := v }) s)

/-- Write of RANGE_START (44_bus_access.md R300, 10_state.md R62). -/
def execWrRangeStart (v : Word) (s : State) : Result :=
  .next (hostWrite (fun s => { s with rangeStart := v }) s)

/-- Write of RANGE_LEN (44_bus_access.md R300, 10_state.md R62). -/
def execWrRangeLen (v : Word) (s : State) : Result :=
  .next (hostWrite (fun s => { s with rangeLen := v }) s)

/-- Write of VG_RESP: stores the device's readback and starts the verify step; in FAILED it is dropped
(44_bus_access.md R302, R294). -/
def execWrVgResp (v : Word) (s : State) : Result :=
  .next (hostWrite (fun s =>
    if s.phase = .failed then s.dropWrite else { s with vgResp := v }.start .vstep) s)

/-- Reserved access: a read returns 0, a write does nothing; neither depends on BUSY nor sets DROP
(44_bus_access.md R304, 10_state.md R64). -/
def execReservedAccess (sel : Selector) (_wdata : Word) (s : State) : Result :=
  .next (if sel.getLsbD 8 then s else s.answer 0)

/-- Write of ID, a read-only register (44_bus_access.md R291). -/
def execWrId (_v : Word) (s : State) : Result := .next (readOnlyWrite s)

/-- Write of ERRINFO, a read-only register (44_bus_access.md R291). -/
def execWrErrInfo (_v : Word) (s : State) : Result := .next (readOnlyWrite s)

/-- Write of IMG_DATA, a read-only register (44_bus_access.md R291). -/
def execWrImgData (_v : Word) (s : State) : Result := .next (readOnlyWrite s)

/-- Write of START_ADDR, a read-only register (44_bus_access.md R291). -/
def execWrStartAddr (_v : Word) (s : State) : Result := .next (readOnlyWrite s)

/-- Write of END_ADDR, a read-only register (44_bus_access.md R291). -/
def execWrEndAddr (_v : Word) (s : State) : Result := .next (readOnlyWrite s)

/-- Write of IMG_CSUM, a read-only register (44_bus_access.md R291). -/
def execWrImgCsum (_v : Word) (s : State) : Result := .next (readOnlyWrite s)

/-- Write of IMG_CRC, a read-only register (44_bus_access.md R291). -/
def execWrImgCrc (_v : Word) (s : State) : Result := .next (readOnlyWrite s)

/-- Write of SEC_COUNT, a read-only register (44_bus_access.md R291). -/
def execWrSecCount (_v : Word) (s : State) : Result := .next (readOnlyWrite s)

/-- Write of EXT, a read-only register (44_bus_access.md R291). -/
def execWrExt (_v : Word) (s : State) : Result := .next (readOnlyWrite s)

/-- Write of REC_COUNT, a read-only register (44_bus_access.md R291). -/
def execWrRecCount (_v : Word) (s : State) : Result := .next (readOnlyWrite s)

/-- Write of CUR, a read-only register (44_bus_access.md R291). -/
def execWrCur (_v : Word) (s : State) : Result := .next (readOnlyWrite s)

/-- Write of SEC_START, a read-only register (44_bus_access.md R291). -/
def execWrSecStart (_v : Word) (s : State) : Result := .next (readOnlyWrite s)

/-- Write of SEC_END, a read-only register (44_bus_access.md R291). -/
def execWrSecEnd (_v : Word) (s : State) : Result := .next (readOnlyWrite s)

/-- Write of SEC_LEN, a read-only register (44_bus_access.md R291). -/
def execWrSecLen (_v : Word) (s : State) : Result := .next (readOnlyWrite s)

/-- Write of SEC_CSUM, a read-only register (44_bus_access.md R291). -/
def execWrSecCsum (_v : Word) (s : State) : Result := .next (readOnlyWrite s)

/-- Write of SEC_CRC, a read-only register (44_bus_access.md R291). -/
def execWrSecCrc (_v : Word) (s : State) : Result := .next (readOnlyWrite s)

/-- Write of VG_TOTAL, a read-only register (44_bus_access.md R291). -/
def execWrVgTotal (_v : Word) (s : State) : Result := .next (readOnlyWrite s)

/-- Write of VG_IDX, a read-only register (44_bus_access.md R291). -/
def execWrVgIdx (_v : Word) (s : State) : Result := .next (readOnlyWrite s)

/-- Write of VG_FIRST, a read-only register (44_bus_access.md R291). -/
def execWrVgFirst (_v : Word) (s : State) : Result := .next (readOnlyWrite s)

/-- Write of VG_LAST, a read-only register (44_bus_access.md R291). -/
def execWrVgLast (_v : Word) (s : State) : Result := .next (readOnlyWrite s)

/-- Write of VG_START, a read-only register (44_bus_access.md R291). -/
def execWrVgStart (_v : Word) (s : State) : Result := .next (readOnlyWrite s)

/-- Write of VG_LEN, a read-only register (44_bus_access.md R291). -/
def execWrVgLen (_v : Word) (s : State) : Result := .next (readOnlyWrite s)

/-- Write of VG_EXPECT, a read-only register (44_bus_access.md R291). -/
def execWrVgExpect (_v : Word) (s : State) : Result := .next (readOnlyWrite s)

/-- Write of RANGE_CSUM, a read-only register (44_bus_access.md R291). -/
def execWrRangeCsum (_v : Word) (s : State) : Result := .next (readOnlyWrite s)

/-- Write of RANGE_CRC, a read-only register (44_bus_access.md R291). -/
def execWrRangeCrc (_v : Word) (s : State) : Result := .next (readOnlyWrite s)

/-- Write of CAP_BUF, a read-only register (44_bus_access.md R291). -/
def execWrCapBuf (_v : Word) (s : State) : Result := .next (readOnlyWrite s)

/-- Write of CAP_IN, a read-only register (44_bus_access.md R291). -/
def execWrCapIn (_v : Word) (s : State) : Result := .next (readOnlyWrite s)

/-- Write of CAP_SEC, a read-only register (44_bus_access.md R291). -/
def execWrCapSec (_v : Word) (s : State) : Result := .next (readOnlyWrite s)

end Sys2Proof.Machine
end

