-- ==== Sys2Proof/Machine/Builder.lean ====
section
/-! DEFINITION. The partition of the image into sectors (41_image_builder.md part 3), BUILD's body. -/

namespace Sys2Proof.Machine

/-- The sector count n (41_image_builder.md R194). -/
def State.sectorTotal (s : State) : Nat := ceilDiv s.endAddr.toNat s.secSize.toNat

/-- The start of sector `i`, unbounded (41_image_builder.md R195). -/
def State.sectorLo (s : State) (i : Nat) : Nat := i * s.secSize.toNat

/-- The end of sector `i`, unbounded (41_image_builder.md R195). -/
def State.sectorHi (s : State) (i : Nat) : Nat := min ((i + 1) * s.secSize.toNat) s.endAddr.toNat

/-- The bytes of sector `i` (41_image_builder.md R195). -/
def State.sectorBytes (s : State) (i : Nat) : List Byte :=
  s.imgRange (s.sectorLo i) (s.sectorHi i - s.sectorLo i)

/-- SEC[i] as BUILD writes it (41_image_builder.md R195 to R197). -/
def State.buildSector (s : State) (i : Nat) : Sector :=
  { startAddr := BitVec.ofNat 32 (s.sectorLo i)
    endAddr := BitVec.ofNat 32 (s.sectorHi i)
    len := BitVec.ofNat 32 (s.sectorHi i - s.sectorLo i)
    csum := sum32 (s.sectorBytes i)
    crc := if s.usesCrc then crc32 (s.sectorBytes i) else 0 }

/-- The entries BUILD writes (41_image_builder.md R195). -/
def State.builtTable (s : State) : List Sector := (List.range s.sectorTotal).map s.buildSector

/-- BUILD's body (43_commands.md R265). Entries at and above n keep what they held. -/
def buildBody (s : State) : EngineEnd :=
  if s.secSize = 0 then .err s .config 0
  else if s.capSec.toNat < s.sectorTotal then
    .err s .sectorOvf (BitVec.ofNat 32 s.sectorTotal)
  else .ok { s with
    sec := s.builtTable ++ s.sec.drop s.sectorTotal
    secCount := BitVec.ofNat 32 s.sectorTotal
    imgCsum := sumWords (s.builtTable.map Sector.csum)
    imgCrc := sumWords (s.builtTable.map Sector.crc)
    phase := .built }

end Sys2Proof.Machine
end

