-- ==== Sys2Proof/Syntax.lean ====
section
/-! DEFINITION. The instructions of the block: one constructor per mnemonic of
spec/opcode_table.json. Rows that share a mnemonic (EXT_NOT_SELECTED two, RESERVED_TYPE eight) are
one instruction with its TYPE byte as an operand. -/

namespace Sys2Proof

/-- The commands (30_encoding.md R111, R112), the record types (R125) and the bus transactions
(R101). -/
inductive Instr where
  -- command words
  | nop
  | clear
  | decode
  | build
  | verify
  | range
  /-- Words 0x6 and 0x7: `lo` is bit 0. -/
  | illegalOp67 (lo : BitVec 1)
  /-- Words 0x8 to 0xF: `lo` is bits 2:0. -/
  | illegalOp8F (lo : BitVec 3)
  /-- Words with bits 31:4 not 0. -/
  | illegalRsv (w : Word)
  -- record types
  | data (r : HexRecord)
  | eof (r : HexRecord)
  | ext04 (r : HexRecord)
  | ext02 (r : HexRecord)
  | extNotSelected (ty : Byte) (r : HexRecord)
  | reservedType (ty : Byte) (r : HexRecord)
  -- bus transactions: a read has no operand, a write has wdata
  | rdId
  | wrId (v : Word)
  | rdCtrl
  | wrCtrl (v : Word)
  | rdMaxAddr
  | wrMaxAddr (v : Word)
  | rdSecSize
  | wrSecSize (v : Word)
  | rdVwin
  | wrVwin (v : Word)
  | rdCmd
  | wrCmd (v : Word)
  | rdStatus
  | wrStatus (v : Word)
  | rdErrInfo
  | wrErrInfo (v : Word)
  | rdInAddr
  | wrInAddr (v : Word)
  | rdInData
  | wrInData (v : Word)
  | rdInLen
  | wrInLen (v : Word)
  | rdImgAddr
  | wrImgAddr (v : Word)
  | rdImgData
  | wrImgData (v : Word)
  | rdStartAddr
  | wrStartAddr (v : Word)
  | rdEndAddr
  | wrEndAddr (v : Word)
  | rdImgCsum
  | wrImgCsum (v : Word)
  | rdImgCrc
  | wrImgCrc (v : Word)
  | rdSecCount
  | wrSecCount (v : Word)
  | rdExt
  | wrExt (v : Word)
  | rdRecCount
  | wrRecCount (v : Word)
  | rdCur
  | wrCur (v : Word)
  | rdSecIdx
  | wrSecIdx (v : Word)
  | rdSecStart
  | wrSecStart (v : Word)
  | rdSecEnd
  | wrSecEnd (v : Word)
  | rdSecLen
  | wrSecLen (v : Word)
  | rdSecCsum
  | wrSecCsum (v : Word)
  | rdSecCrc
  | wrSecCrc (v : Word)
  | rdVgTotal
  | wrVgTotal (v : Word)
  | rdVgIdx
  | wrVgIdx (v : Word)
  | rdVgFirst
  | wrVgFirst (v : Word)
  | rdVgLast
  | wrVgLast (v : Word)
  | rdVgStart
  | wrVgStart (v : Word)
  | rdVgLen
  | wrVgLen (v : Word)
  | rdVgExpect
  | wrVgExpect (v : Word)
  | rdVgResp
  | wrVgResp (v : Word)
  | rdRangeStart
  | wrRangeStart (v : Word)
  | rdRangeLen
  | wrRangeLen (v : Word)
  | rdRangeCsum
  | wrRangeCsum (v : Word)
  | rdRangeCrc
  | wrRangeCrc (v : Word)
  | rdCapBuf
  | wrCapBuf (v : Word)
  | rdCapIn
  | wrCapIn (v : Word)
  | rdCapSec
  | wrCapSec (v : Word)
  /-- Any selector whose offset is not listed or is misaligned (44_bus_access.md R304). -/
  | reservedAccess (sel : Selector) (wdata : Word)
  deriving DecidableEq, Repr

end Sys2Proof
end

