-- ==== Sys2Proof/WellFormed.lean ====
section
/-! DEFINITION. Which terms of `Instr` are instructions the encodings of 30_encoding.md can spell. -/

namespace Sys2Proof

/-- The length field LL is two hex digits, so a payload has at most 255 bytes (30_encoding.md
R120). -/
def HexRecord.wellFormed (r : HexRecord) : Bool := r.payload.length ≤ 255

/-- An offset that 10_state.md R30 lists: word aligned, 0x00 to 0xA4. -/
def offsetListed (off : BitVec 8) : Bool := off.extractLsb' 0 2 == 0#2 && off ≤ 0xA4#8

/-- The record types R165 reserves: 0x03 and 0x05 to 0xFF. -/
def typeReserved (ty : Byte) : Bool := ty == 0x03#8 || 0x05#8 ≤ ty

/-- Well-formedness of an instruction: the operands are ones its encoding admits. -/
def Instr.wellFormed : Instr → Bool
  | .illegalRsv w => w.extractLsb' 4 28 != 0#28
  | .data r => r.wellFormed
  | .eof r => r.wellFormed
  | .ext04 r => r.wellFormed
  | .ext02 r => r.wellFormed
  | .extNotSelected ty r => (ty == 0x02#8 || ty == 0x04#8) && r.wellFormed
  | .reservedType ty r => typeReserved ty && r.wellFormed
  | .reservedAccess sel _ => !offsetListed (sel.extractLsb' 0 8)
  | .nop | .clear | .decode | .build | .verify | .range | .illegalOp67 _ | .illegalOp8F _
  | .rdId | .wrId _ | .rdCtrl | .wrCtrl _ | .rdMaxAddr | .wrMaxAddr _ | .rdSecSize | .wrSecSize _
  | .rdVwin | .wrVwin _ | .rdCmd | .wrCmd _ | .rdStatus | .wrStatus _ | .rdErrInfo | .wrErrInfo _
  | .rdInAddr | .wrInAddr _ | .rdInData | .wrInData _ | .rdInLen | .wrInLen _
  | .rdImgAddr | .wrImgAddr _ | .rdImgData | .wrImgData _ | .rdStartAddr | .wrStartAddr _
  | .rdEndAddr | .wrEndAddr _ | .rdImgCsum | .wrImgCsum _ | .rdImgCrc | .wrImgCrc _
  | .rdSecCount | .wrSecCount _ | .rdExt | .wrExt _ | .rdRecCount | .wrRecCount _
  | .rdCur | .wrCur _ | .rdSecIdx | .wrSecIdx _ | .rdSecStart | .wrSecStart _
  | .rdSecEnd | .wrSecEnd _ | .rdSecLen | .wrSecLen _ | .rdSecCsum | .wrSecCsum _
  | .rdSecCrc | .wrSecCrc _ | .rdVgTotal | .wrVgTotal _ | .rdVgIdx | .wrVgIdx _
  | .rdVgFirst | .wrVgFirst _ | .rdVgLast | .wrVgLast _ | .rdVgStart | .wrVgStart _
  | .rdVgLen | .wrVgLen _ | .rdVgExpect | .wrVgExpect _ | .rdVgResp | .wrVgResp _
  | .rdRangeStart | .wrRangeStart _ | .rdRangeLen | .wrRangeLen _ | .rdRangeCsum | .wrRangeCsum _
  | .rdRangeCrc | .wrRangeCrc _ | .rdCapBuf | .wrCapBuf _ | .rdCapIn | .wrCapIn _
  | .rdCapSec | .wrCapSec _ => true

/-- Whether CTRL.USES_CRC = `usesCrc` selects the instruction: the condition that
spec/opcode_table.json gives the extended-address rows (40_hex_decoder.md R160, R164). -/
def Instr.selectedBy (usesCrc : Bool) : Instr → Bool
  | .ext04 _ => !usesCrc
  | .ext02 _ => usesCrc
  | .extNotSelected ty _ => (ty == 0x04#8) == usesCrc
  | .nop | .clear | .decode | .build | .verify | .range | .illegalOp67 _ | .illegalOp8F _
  | .illegalRsv _ | .data _ | .eof _ | .reservedType _ _ | .reservedAccess _ _
  | .rdId | .wrId _ | .rdCtrl | .wrCtrl _ | .rdMaxAddr | .wrMaxAddr _ | .rdSecSize | .wrSecSize _
  | .rdVwin | .wrVwin _ | .rdCmd | .wrCmd _ | .rdStatus | .wrStatus _ | .rdErrInfo | .wrErrInfo _
  | .rdInAddr | .wrInAddr _ | .rdInData | .wrInData _ | .rdInLen | .wrInLen _
  | .rdImgAddr | .wrImgAddr _ | .rdImgData | .wrImgData _ | .rdStartAddr | .wrStartAddr _
  | .rdEndAddr | .wrEndAddr _ | .rdImgCsum | .wrImgCsum _ | .rdImgCrc | .wrImgCrc _
  | .rdSecCount | .wrSecCount _ | .rdExt | .wrExt _ | .rdRecCount | .wrRecCount _
  | .rdCur | .wrCur _ | .rdSecIdx | .wrSecIdx _ | .rdSecStart | .wrSecStart _
  | .rdSecEnd | .wrSecEnd _ | .rdSecLen | .wrSecLen _ | .rdSecCsum | .wrSecCsum _
  | .rdSecCrc | .wrSecCrc _ | .rdVgTotal | .wrVgTotal _ | .rdVgIdx | .wrVgIdx _
  | .rdVgFirst | .wrVgFirst _ | .rdVgLast | .wrVgLast _ | .rdVgStart | .wrVgStart _
  | .rdVgLen | .wrVgLen _ | .rdVgExpect | .wrVgExpect _ | .rdVgResp | .wrVgResp _
  | .rdRangeStart | .wrRangeStart _ | .rdRangeLen | .wrRangeLen _ | .rdRangeCsum | .wrRangeCsum _
  | .rdRangeCrc | .wrRangeCrc _ | .rdCapBuf | .wrCapBuf _ | .rdCapIn | .wrCapIn _
  | .rdCapSec | .wrCapSec _ => true

end Sys2Proof
end

