-- ==== Sys2Proof/Decode.lean ====
section
/-! DEFINITION. The decoders of the three opcode spaces (30_encoding.md), total, rejecting by name,
and the encoder written from the same tables. -/

namespace Sys2Proof

/-! ### Hex digits and records -/

/-- Why the scan rejects a record; `k` is the index of the failing character from the record's start
(40_hex_decoder.md R143). -/
inductive ScanReject where
  /-- The text ends before character `k`: E_HEX_TRUNC. -/
  | truncated (k : Nat)
  /-- Character `k` is not a hex digit: E_HEX_CHAR. -/
  | badHexChar (k : Nat)
  deriving DecidableEq, Repr

/-- Why the decoder rejects a packet. -/
inductive DecodeReject where
  /-- The scan rejects its record. -/
  | scan (e : ScanReject)
  /-- The packet holds more than one record: the text goes on at character `k`. -/
  | trailing (k : Nat)
  deriving DecidableEq, Repr

/-- `HexVal` (30_encoding.md R121). -/
def hexVal (c : Byte) : Option Nibble :=
  if 0x30#8 ≤ c ∧ c ≤ 0x39#8 then some ((c - 0x30#8).extractLsb' 0 4)
  else if 0x41#8 ≤ c ∧ c ≤ 0x46#8 then some ((c - 0x41#8 + 10#8).extractLsb' 0 4)
  else if 0x61#8 ≤ c ∧ c ≤ 0x66#8 then some ((c - 0x61#8 + 10#8).extractLsb' 0 4)
  else none

/-- Reads two hex digits, the first at index `k` of the record, first digit most significant
(30_encoding.md R122), with the check of 40_hex_decoder.md R143 on each in index order. -/
def takeByte (k : Nat) : List Byte → Except ScanReject (Byte × List Byte)
  | [] => .error (.truncated k)
  | c :: t =>
    match hexVal c, t with
    | none, _ => .error (.badHexChar k)
    | some _, [] => .error (.truncated (k + 1))
    | some hi, c' :: t' =>
      match hexVal c' with
      | none => .error (.badHexChar (k + 1))
      | some lo => .ok (hi ++ lo, t')

/-- Reads `n` bytes of two hex digits each, the first at index `k` (40_hex_decoder.md R144). -/
def takeBytes : (n k : Nat) → List Byte → Except ScanReject (List Byte × List Byte)
  | 0, _, t => .ok ([], t)
  | n + 1, k, t =>
    match takeByte k t with
    | .error e => .error e
    | .ok (b, t') =>
      match takeBytes n (k + 2) t' with
      | .error e => .error e
      | .ok (bs, t'') => .ok (b :: bs, t'')

/-- The terminator at the start of the text that follows a record's checksum (40_hex_decoder.md
R150). -/
def terminatorOf : List Byte → Terminator
  | [] => .none
  | [c] => if c = 0x0D#8 then .cr else if c = 0x0A#8 then .lf else .none
  | c :: c' :: _ =>
    if c = 0x0D#8 then (if c' = 0x0A#8 then .crlf else .cr)
    else if c = 0x0A#8 then .lf else .none

/-- The characters of a terminator (40_hex_decoder.md R150). -/
def Terminator.chars : Terminator → List Byte
  | .none => []
  | .cr => [0x0D#8]
  | .lf => [0x0A#8]
  | .crlf => [0x0D#8, 0x0A#8]

/-- How many characters a record occupies: `10 + 2L + t` (30_encoding.md R124). -/
def HexRecord.size (r : HexRecord) : Nat := 10 + 2 * r.payload.length + r.term.chars.length

/-- Scans the record at the start of `t`: its TYPE and its other fields, every character checked in
index order (40_hex_decoder.md R143, R144, R150; field positions 30_encoding.md R120, R123). -/
def scanRecord (t : List Byte) : Except ScanReject (Byte × HexRecord) :=
  match takeByte 0 t with
  | .error e => .error e
  | .ok (len, t1) =>
  match takeByte 2 t1 with
  | .error e => .error e
  | .ok (addrHi, t2) =>
  match takeByte 4 t2 with
  | .error e => .error e
  | .ok (addrLo, t3) =>
  match takeByte 6 t3 with
  | .error e => .error e
  | .ok (ty, t4) =>
  match takeBytes len.toNat 8 t4 with
  | .error e => .error e
  | .ok (payload, t5) =>
  match takeByte (8 + 2 * len.toNat) t5 with
  | .error e => .error e
  | .ok (ck, t6) => .ok (ty, { addr := addrHi ++ addrLo, payload, ck, term := terminatorOf t6 })

/-- The record type opcode map (30_encoding.md R125, 40_hex_decoder.md R160): the instruction a TYPE
stands for under CTRL.USES_CRC = `usesCrc`. -/
def recordInstr (usesCrc : Bool) (ty : Byte) (r : HexRecord) : Instr :=
  if ty = 0x00#8 then .data r
  else if ty = 0x01#8 then .eof r
  else if ty = 0x04#8 then (if usesCrc then .extNotSelected ty r else .ext04 r)
  else if ty = 0x02#8 then (if usesCrc then .ext02 r else .extNotSelected ty r)
  else .reservedType ty r

/-- Decodes the record at the start of `t`. -/
def decodeRecord (usesCrc : Bool) (t : List Byte) : Except ScanReject (Instr × HexRecord) :=
  match scanRecord t with
  | .error e => .error e
  | .ok (ty, r) => .ok (recordInstr usesCrc ty r, r)

/-! ### Command words -/

/-- Decodes a command word (30_encoding.md R110 to R112, 43_commands.md R252): an RSV field that is
not 0 makes the word illegal whatever OP holds. -/
def decodeCmd (w : Word) : Instr :=
  if w.extractLsb' 4 28 ≠ 0#28 then .illegalRsv w
  else if w = 0#32 then .nop
  else if w = 1#32 then .clear
  else if w = 2#32 then .decode
  else if w = 3#32 then .build
  else if w = 4#32 then .verify
  else if w = 5#32 then .range
  else if w.getLsbD 3 then .illegalOp8F (w.extractLsb' 0 3)
  else .illegalOp67 (w.extractLsb' 0 1)

/-! ### Bus transactions -/

/-- The byte offset of a register (10_state.md R30). -/
def Reg.offset : Reg → BitVec 8
  | .id => 0x00
  | .ctrl => 0x04
  | .maxAddr => 0x08
  | .secSize => 0x0C
  | .vwin => 0x10
  | .cmd => 0x14
  | .status => 0x18
  | .errInfo => 0x1C
  | .inAddr => 0x20
  | .inData => 0x24
  | .inLen => 0x28
  | .imgAddr => 0x2C
  | .imgData => 0x30
  | .startAddr => 0x34
  | .endAddr => 0x38
  | .imgCsum => 0x3C
  | .imgCrc => 0x40
  | .secCount => 0x44
  | .ext => 0x48
  | .recCount => 0x4C
  | .cur => 0x50
  | .secIdx => 0x54
  | .secStart => 0x58
  | .secEnd => 0x5C
  | .secLen => 0x60
  | .secCsum => 0x64
  | .secCrc => 0x68
  | .vgTotal => 0x6C
  | .vgIdx => 0x70
  | .vgFirst => 0x74
  | .vgLast => 0x78
  | .vgStart => 0x7C
  | .vgLen => 0x80
  | .vgExpect => 0x84
  | .vgResp => 0x88
  | .rangeStart => 0x8C
  | .rangeLen => 0x90
  | .rangeCsum => 0x94
  | .rangeCrc => 0x98
  | .capBuf => 0x9C
  | .capIn => 0xA0
  | .capSec => 0xA4

/-- The registers in the order of their offsets (10_state.md R30). -/
def regTable : List Reg :=
  [.id, .ctrl, .maxAddr, .secSize, .vwin, .cmd, .status, .errInfo, .inAddr, .inData, .inLen,
   .imgAddr, .imgData, .startAddr, .endAddr, .imgCsum, .imgCrc, .secCount, .ext, .recCount,
   .cur, .secIdx, .secStart, .secEnd, .secLen, .secCsum, .secCrc, .vgTotal, .vgIdx, .vgFirst,
   .vgLast, .vgStart, .vgLen, .vgExpect, .vgResp, .rangeStart, .rangeLen, .rangeCsum,
   .rangeCrc, .capBuf, .capIn, .capSec]

/-- The register at an offset, if R30 lists the offset (10_state.md R30, R64). -/
def regAt (off : BitVec 8) : Option Reg :=
  if off.extractLsb' 0 2 = 0#2 then regTable[(off.extractLsb' 2 6).toNat]? else none

/-- The read transaction of a register (30_encoding.md R101). -/
def Reg.readInstr : Reg → Instr
  | .id => .rdId
  | .ctrl => .rdCtrl
  | .maxAddr => .rdMaxAddr
  | .secSize => .rdSecSize
  | .vwin => .rdVwin
  | .cmd => .rdCmd
  | .status => .rdStatus
  | .errInfo => .rdErrInfo
  | .inAddr => .rdInAddr
  | .inData => .rdInData
  | .inLen => .rdInLen
  | .imgAddr => .rdImgAddr
  | .imgData => .rdImgData
  | .startAddr => .rdStartAddr
  | .endAddr => .rdEndAddr
  | .imgCsum => .rdImgCsum
  | .imgCrc => .rdImgCrc
  | .secCount => .rdSecCount
  | .ext => .rdExt
  | .recCount => .rdRecCount
  | .cur => .rdCur
  | .secIdx => .rdSecIdx
  | .secStart => .rdSecStart
  | .secEnd => .rdSecEnd
  | .secLen => .rdSecLen
  | .secCsum => .rdSecCsum
  | .secCrc => .rdSecCrc
  | .vgTotal => .rdVgTotal
  | .vgIdx => .rdVgIdx
  | .vgFirst => .rdVgFirst
  | .vgLast => .rdVgLast
  | .vgStart => .rdVgStart
  | .vgLen => .rdVgLen
  | .vgExpect => .rdVgExpect
  | .vgResp => .rdVgResp
  | .rangeStart => .rdRangeStart
  | .rangeLen => .rdRangeLen
  | .rangeCsum => .rdRangeCsum
  | .rangeCrc => .rdRangeCrc
  | .capBuf => .rdCapBuf
  | .capIn => .rdCapIn
  | .capSec => .rdCapSec

/-- The write transaction of a register (30_encoding.md R101). -/
def Reg.writeInstr (v : Word) : Reg → Instr
  | .id => .wrId v
  | .ctrl => .wrCtrl v
  | .maxAddr => .wrMaxAddr v
  | .secSize => .wrSecSize v
  | .vwin => .wrVwin v
  | .cmd => .wrCmd v
  | .status => .wrStatus v
  | .errInfo => .wrErrInfo v
  | .inAddr => .wrInAddr v
  | .inData => .wrInData v
  | .inLen => .wrInLen v
  | .imgAddr => .wrImgAddr v
  | .imgData => .wrImgData v
  | .startAddr => .wrStartAddr v
  | .endAddr => .wrEndAddr v
  | .imgCsum => .wrImgCsum v
  | .imgCrc => .wrImgCrc v
  | .secCount => .wrSecCount v
  | .ext => .wrExt v
  | .recCount => .wrRecCount v
  | .cur => .wrCur v
  | .secIdx => .wrSecIdx v
  | .secStart => .wrSecStart v
  | .secEnd => .wrSecEnd v
  | .secLen => .wrSecLen v
  | .secCsum => .wrSecCsum v
  | .secCrc => .wrSecCrc v
  | .vgTotal => .wrVgTotal v
  | .vgIdx => .wrVgIdx v
  | .vgFirst => .wrVgFirst v
  | .vgLast => .wrVgLast v
  | .vgStart => .wrVgStart v
  | .vgLen => .wrVgLen v
  | .vgExpect => .wrVgExpect v
  | .vgResp => .wrVgResp v
  | .rangeStart => .wrRangeStart v
  | .rangeLen => .wrRangeLen v
  | .rangeCsum => .wrRangeCsum v
  | .rangeCrc => .wrRangeCrc v
  | .capBuf => .wrCapBuf v
  | .capIn => .wrCapIn v
  | .capSec => .wrCapSec v

/-- Decodes a bus transaction (30_encoding.md R100, R101): bit 8 of the selector is `we`, bits 7:0
the offset; `wdata` is the operand of a write. -/
def decodeBus (sel : Selector) (wdata : Word) : Instr :=
  match regAt (sel.extractLsb' 0 8) with
  | none => .reservedAccess sel wdata
  | some r => if sel.getLsbD 8 then r.writeInstr wdata else r.readInstr

/-! ### One decoder over the three spaces -/

/-- What an instruction of each opcode space looks like before decoding (00_scope.md R3). -/
inductive Packet where
  | command (w : Word)
  | record (chars : List Byte)
  | bus (sel : Selector) (wdata : Word)
  deriving DecidableEq, Repr

/-- The opcode space of a packet. -/
def Packet.space : Packet → OpcodeSpace
  | .command _ => .command
  | .record _ => .record
  | .bus _ _ => .bus

/-- The decoder. `usesCrc` is CTRL.USES_CRC, which selects between the readings of the TYPEs 0x02 and
0x04 (40_hex_decoder.md R160); the other spaces do not depend on it. -/
def decode (usesCrc : Bool) : Packet → Except DecodeReject Instr
  | .command w => .ok (decodeCmd w)
  | .bus sel wdata => .ok (decodeBus sel wdata)
  | .record chars =>
    match decodeRecord usesCrc chars with
    | .error e => .error (.scan e)
    | .ok (i, r) => if r.size < chars.length then .error (.trailing r.size) else .ok i

/-! ### The encoder -/

/-- The hex digit of a value, a capital letter above 9 (30_encoding.md R121). -/
def hexDigit (n : Nibble) : Byte :=
  if n ≤ 9#4 then n.setWidth 8 + 0x30#8 else n.setWidth 8 - 10#8 + 0x41#8

/-- A byte as two hex digits, most significant first (30_encoding.md R122). -/
def hexByte (b : Byte) : List Byte := [hexDigit (b.extractLsb' 4 4), hexDigit (b.extractLsb' 0 4)]

/-- The characters of a record (30_encoding.md R120). -/
def encodeRecord (ty : Byte) (r : HexRecord) : List Byte :=
  hexByte (BitVec.ofNat 8 r.payload.length)
    ++ (hexByte (r.addr.extractLsb' 8 8) ++ (hexByte (r.addr.extractLsb' 0 8)
    ++ (hexByte ty ++ (r.payload.flatMap hexByte ++ (hexByte r.ck ++ r.term.chars)))))

/-- A read of a register as a bus transaction (30_encoding.md R100). -/
def readPacket (r : Reg) : Packet := .bus (0#1 ++ r.offset) 0

/-- A write of a register as a bus transaction (30_encoding.md R100). -/
def writePacket (r : Reg) (v : Word) : Packet := .bus (1#1 ++ r.offset) v

/-- The encoder (30_encoding.md R101, R111, R112, R120, R125). -/
def encode : Instr → Packet
  | .nop => .command 0x0
  | .clear => .command 0x1
  | .decode => .command 0x2
  | .build => .command 0x3
  | .verify => .command 0x4
  | .range => .command 0x5
  | .illegalOp67 lo => .command (3#31 ++ lo)
  | .illegalOp8F lo => .command (1#29 ++ lo)
  | .illegalRsv w => .command w
  | .data r => .record (encodeRecord 0x00 r)
  | .eof r => .record (encodeRecord 0x01 r)
  | .ext04 r => .record (encodeRecord 0x04 r)
  | .ext02 r => .record (encodeRecord 0x02 r)
  | .extNotSelected ty r => .record (encodeRecord ty r)
  | .reservedType ty r => .record (encodeRecord ty r)
  | .rdId => readPacket .id
  | .wrId v => writePacket .id v
  | .rdCtrl => readPacket .ctrl
  | .wrCtrl v => writePacket .ctrl v
  | .rdMaxAddr => readPacket .maxAddr
  | .wrMaxAddr v => writePacket .maxAddr v
  | .rdSecSize => readPacket .secSize
  | .wrSecSize v => writePacket .secSize v
  | .rdVwin => readPacket .vwin
  | .wrVwin v => writePacket .vwin v
  | .rdCmd => readPacket .cmd
  | .wrCmd v => writePacket .cmd v
  | .rdStatus => readPacket .status
  | .wrStatus v => writePacket .status v
  | .rdErrInfo => readPacket .errInfo
  | .wrErrInfo v => writePacket .errInfo v
  | .rdInAddr => readPacket .inAddr
  | .wrInAddr v => writePacket .inAddr v
  | .rdInData => readPacket .inData
  | .wrInData v => writePacket .inData v
  | .rdInLen => readPacket .inLen
  | .wrInLen v => writePacket .inLen v
  | .rdImgAddr => readPacket .imgAddr
  | .wrImgAddr v => writePacket .imgAddr v
  | .rdImgData => readPacket .imgData
  | .wrImgData v => writePacket .imgData v
  | .rdStartAddr => readPacket .startAddr
  | .wrStartAddr v => writePacket .startAddr v
  | .rdEndAddr => readPacket .endAddr
  | .wrEndAddr v => writePacket .endAddr v
  | .rdImgCsum => readPacket .imgCsum
  | .wrImgCsum v => writePacket .imgCsum v
  | .rdImgCrc => readPacket .imgCrc
  | .wrImgCrc v => writePacket .imgCrc v
  | .rdSecCount => readPacket .secCount
  | .wrSecCount v => writePacket .secCount v
  | .rdExt => readPacket .ext
  | .wrExt v => writePacket .ext v
  | .rdRecCount => readPacket .recCount
  | .wrRecCount v => writePacket .recCount v
  | .rdCur => readPacket .cur
  | .wrCur v => writePacket .cur v
  | .rdSecIdx => readPacket .secIdx
  | .wrSecIdx v => writePacket .secIdx v
  | .rdSecStart => readPacket .secStart
  | .wrSecStart v => writePacket .secStart v
  | .rdSecEnd => readPacket .secEnd
  | .wrSecEnd v => writePacket .secEnd v
  | .rdSecLen => readPacket .secLen
  | .wrSecLen v => writePacket .secLen v
  | .rdSecCsum => readPacket .secCsum
  | .wrSecCsum v => writePacket .secCsum v
  | .rdSecCrc => readPacket .secCrc
  | .wrSecCrc v => writePacket .secCrc v
  | .rdVgTotal => readPacket .vgTotal
  | .wrVgTotal v => writePacket .vgTotal v
  | .rdVgIdx => readPacket .vgIdx
  | .wrVgIdx v => writePacket .vgIdx v
  | .rdVgFirst => readPacket .vgFirst
  | .wrVgFirst v => writePacket .vgFirst v
  | .rdVgLast => readPacket .vgLast
  | .wrVgLast v => writePacket .vgLast v
  | .rdVgStart => readPacket .vgStart
  | .wrVgStart v => writePacket .vgStart v
  | .rdVgLen => readPacket .vgLen
  | .wrVgLen v => writePacket .vgLen v
  | .rdVgExpect => readPacket .vgExpect
  | .wrVgExpect v => writePacket .vgExpect v
  | .rdVgResp => readPacket .vgResp
  | .wrVgResp v => writePacket .vgResp v
  | .rdRangeStart => readPacket .rangeStart
  | .wrRangeStart v => writePacket .rangeStart v
  | .rdRangeLen => readPacket .rangeLen
  | .wrRangeLen v => writePacket .rangeLen v
  | .rdRangeCsum => readPacket .rangeCsum
  | .wrRangeCsum v => writePacket .rangeCsum v
  | .rdRangeCrc => readPacket .rangeCrc
  | .wrRangeCrc v => writePacket .rangeCrc v
  | .rdCapBuf => readPacket .capBuf
  | .wrCapBuf v => writePacket .capBuf v
  | .rdCapIn => readPacket .capIn
  | .wrCapIn v => writePacket .capIn v
  | .rdCapSec => readPacket .capSec
  | .wrCapSec v => writePacket .capSec v
  | .reservedAccess sel wdata => .bus sel wdata

/-! ### The opcode table's words -/

/-- CTRL.USES_CRC under which a TYPE byte of the opcode table is read: the table gives the TYPEs 0x02
and 0x04 two rows each, and the value of USES_CRC is not among the row's bits. Log 8: the row that
selects the TYPE is taken (0x02 with USES_CRC = 1, 0x04 with USES_CRC = 0). -/
def tableUsesCrc (ty : Byte) : Bool := ty == 0x02#8

/-- The record text of a TYPE byte of the opcode table: every other character is the digit 0, so L, the
address and the checksum are 0, and no terminator follows (log 8). -/
def tableRecordText (ty : Byte) : List Byte :=
  encodeRecord ty { addr := 0, payload := [], ck := 0, term := .none }

/-- The packet of an opcode table word: 8 bits are a record TYPE, 16 bits a bus selector (bits 15:9 are
0, wdata is 0), 32 bits a command word (log 8). -/
def tablePacket (nbits w : Nat) : Option Packet :=
  if nbits = 8 ∧ w < 0x100 then some (.record (tableRecordText (BitVec.ofNat 8 w)))
  else if nbits = 16 ∧ w < 0x200 then some (.bus (BitVec.ofNat 9 w) 0)
  else if nbits = 32 ∧ w < 0x100000000 then some (.command (BitVec.ofNat 32 w))
  else none

/-- The instruction the decoder reads from a word of the opcode table. -/
def decodeTableWord (nbits w : Nat) : Option Instr :=
  match tablePacket nbits w with
  | none => none
  | some p =>
    match decode (tableUsesCrc (BitVec.ofNat 8 w)) p with
    | .ok i => some i
    | .error _ => none

end Sys2Proof
end

