-- ==== Sys2Proof/Machine/Records.lean ====
section
/-! DEFINITION. The record types (40_hex_decoder.md part 4), the fold of a data record into the image
(41_image_builder.md part 1) and the decoding loop (40_hex_decoder.md R140). The record being decoded
starts at IN[CUR]. -/

namespace Sys2Proof.Machine

/-- `WidenBounds` (41_image_builder.md R185). -/
def widenBounds (a e : Word) (s : State) : State :=
  if s.haveData then
    { s with startAddr := minWord s.startAddr a, endAddr := maxWord s.endAddr e }
  else { s with startAddr := a, endAddr := e, haveData := true }

/-- `ImageDataRecord` for the absolute address `a` and the payload `d` of the record at CUR
(41_image_builder.md R181 to R186). The span is compared unbounded. -/
def imageDataRecord (a : Word) (d : List Byte) (s : State) : EngineEnd :=
  if s.maxAddr.toNat ≤ a.toNat then .err s .addrRange s.cur
  else if s.maxAddr.toNat < a.toNat + d.length then .err s .spanRange s.cur
  else if d = [] then .ok s
  else .ok (widenBounds a (a + BitVec.ofNat 32 d.length)
    { s with imgBuf := s.imgBuf.writeBytes a.toNat d })

/-- DATA record (40_hex_decoder.md R156). -/
def dataRecord (r : HexRecord) (s : State) : EngineEnd :=
  imageDataRecord (absoluteAddr s.ext r.addr) r.payload s

/-- EOF record (40_hex_decoder.md R158); what it stops is decided in the loop. -/
def eofRecord (_r : HexRecord) (s : State) : EngineEnd := .ok { s with eofSeen := true }

/-- A record the decoder refuses: E_REC_TYPE with the record's start (40_hex_decoder.md R163 to
R165). -/
def refuseRecord (s : State) : EngineEnd := .err s .recType s.cur

/-- EXT04 record (40_hex_decoder.md R161, R163). -/
def ext04Record (r : HexRecord) (s : State) : EngineEnd :=
  match r.payload with
  | [d0, d1] => .ok { s with ext := extValue d0 d1 }
  | _ => refuseRecord s

/-- EXT02 record (40_hex_decoder.md R162, R163). -/
def ext02Record (r : HexRecord) (s : State) : EngineEnd :=
  match r.payload with
  | [d0, d1] => .ok { s with ext := extValue d0 d1 >>> Config.ext02Shift }
  | _ => refuseRecord s

/-- `Interpret` (40_hex_decoder.md R155). -/
def interpret (ty : Byte) (r : HexRecord) (s : State) : EngineEnd :=
  if ty = 0x00#8 then dataRecord r s
  else if ty = 0x01#8 then eofRecord r s
  else if ty = 0x04#8 then (if s.usesCrc then refuseRecord s else ext04Record r s)
  else if ty = 0x02#8 then (if s.usesCrc then ext02Record r s else refuseRecord s)
  else refuseRecord s

/-- The end of one turn of the loop without error: the record is counted and the cursor passes it
(40_hex_decoder.md R140, R146, R147). -/
def passRecord (r : HexRecord) (s : State) : State :=
  { s with recCount := s.recCount + 1, cur := s.cur + BitVec.ofNat 32 r.size }

/-- One turn of the loop once the record is scanned (40_hex_decoder.md R140). -/
def recordTurn (r : HexRecord) : EngineEnd → EngineEnd
  | .ok s => .ok (passRecord r s)
  | .err s code info => .err s code info

/-- A record instruction run alone: one turn of the decoder's loop for the record at CUR, an error
ending the engine operation (40_hex_decoder.md R140, 00_scope.md R14; log 9). -/
def runRecord (r : HexRecord) (e : EngineEnd) : State :=
  match recordTurn r e with
  | .ok s => s
  | .err s code info => endStep (.err s code info)

/-- DATA (40_hex_decoder.md R156). -/
def execData (r : HexRecord) (s : State) : Result := .next (runRecord r (dataRecord r s))

/-- EOF (40_hex_decoder.md R158). -/
def execEof (r : HexRecord) (s : State) : Result := .next (runRecord r (eofRecord r s))

/-- EXT04: selected by CTRL.USES_CRC = 0 (40_hex_decoder.md R161, R164). -/
def execExt04 (r : HexRecord) (s : State) : Result :=
  .next (runRecord r (if s.usesCrc then refuseRecord s else ext04Record r s))

/-- EXT02: selected by CTRL.USES_CRC = 1 (40_hex_decoder.md R162, R164). -/
def execExt02 (r : HexRecord) (s : State) : Result :=
  .next (runRecord r (if s.usesCrc then ext02Record r s else refuseRecord s))

/-- The extended-address type CTRL.USES_CRC does not select (40_hex_decoder.md R164). -/
def execExtNotSelected (_ty : Byte) (r : HexRecord) (s : State) : Result :=
  .next (runRecord r (refuseRecord s))

/-- A reserved record type (40_hex_decoder.md R165). -/
def execReservedType (_ty : Byte) (r : HexRecord) (s : State) : Result :=
  .next (runRecord r (refuseRecord s))

/-- The error of a record the scan rejects, at the index of the failing character (40_hex_decoder.md
R143). -/
def scanError (s : State) : ScanReject → EngineEnd
  | .truncated k => .err s .hexTrunc (s.cur + BitVec.ofNat 32 k)
  | .badHexChar k => .err s .hexChar (s.cur + BitVec.ofNat 32 k)

/-- An EOF record ends decoding when CTRL.EOF_STOP = 1 (40_hex_decoder.md R140, R158). -/
def stopsDecoding (ty : Byte) (s : State) : Bool := ty == 0x01#8 && s.eofStop

/-- The decoding loop (40_hex_decoder.md R140) over the text IN[CUR, IN_LEN). Each turn consumes at
least ten characters, so `fuel` equal to the text's length is enough (decodeLoop_fuel). -/
def decodeLoop : (fuel : Nat) → List Byte → State → EngineEnd
  | _, [], s => .ok s
  | 0, _ :: _, s => .ok s
  | fuel + 1, c :: t, s =>
    match scanRecord (c :: t) with
    | .error e => scanError s e
    | .ok (ty, r) =>
      match recordTurn r (interpret ty r s) with
      | .err s' code info => .err s' code info
      | .ok s' => if stopsDecoding ty s' then .ok s' else decodeLoop fuel ((c :: t).drop r.size) s'

/-- `InitImage` and the decoder's start (41_image_builder.md R180, 40_hex_decoder.md R140). -/
def initDecode (s : State) : State :=
  { s with
    imgBuf := Memory.filled Config.fillByte
    startAddr := 0
    endAddr := 0
    haveData := false
    secCount := 0
    imgCsum := 0
    imgCrc := 0
    ext := 0
    recCount := 0
    eofSeen := false
    cur := 0 }

/-- `Decode` (40_hex_decoder.md R140). -/
def runDecode (s : State) : EngineEnd := decodeLoop s.inText.length s.inText (initDecode s)

end Sys2Proof.Machine
end

