-- ==== Sys2Proof/Machine/Verifier.lean ====
section
/-! DEFINITION. The verify groups, VERIFY's body and the verify step (42_verifier.md). -/

namespace Sys2Proof.Machine

/-- A verify group: the indexes of its first and last sector (42_verifier.md R220). -/
structure Group where
  first : Nat
  last  : Nat
  deriving DecidableEq, Repr

/-- The greedy grouping once a group is open: it began at sector `first`, whose start is `start`, and
holds the sectors before index `i`; `rest` are the sectors from `i` on (42_verifier.md R222). The span
is compared unbounded. -/
def extendGroup (vwin start : Word) (first i : Nat) : List Sector → List Group
  | [] => [{ first := first, last := i - 1 }]
  | e :: rest =>
    if e.endAddr.toNat ≤ vwin.toNat + start.toNat then
      extendGroup vwin start first (i + 1) rest
    else { first := first, last := i - 1 } :: extendGroup vwin e.startAddr i (i + 1) rest

/-- `Groups()` of a sector table (42_verifier.md R222). -/
def groupsOf (vwin : Word) : List Sector → List Group
  | [] => []
  | e :: rest => extendGroup vwin e.startAddr 0 1 rest

/-- `Groups()` (42_verifier.md R222). -/
def State.groups (s : State) : List Group := groupsOf s.vwin s.sectors

/-- The sectors of a group (42_verifier.md R220). -/
def State.groupSectors (s : State) (g : Group) : List Sector :=
  (List.range (g.last + 1 - g.first)).map (fun j => s.sector (g.first + j))

/-- `Expect(f, l)` (42_verifier.md R225). -/
def State.expect (s : State) (g : Group) : Word :=
  sumWords ((s.groupSectors g).map (fun e => if s.usesCrc then e.crc else e.csum))

/-- `Present(k)` for the group `g` (42_verifier.md R227). -/
def present (k : Nat) (g : Group) (s : State) : State :=
  { s with
    vgIdx := BitVec.ofNat 32 k
    vgFirst := BitVec.ofNat 32 g.first
    vgLast := BitVec.ofNat 32 g.last
    vgStart := (s.sector g.first).startAddr
    vgLen := (s.sector g.last).endAddr - (s.sector g.first).startAddr
    vgExpect := s.expect g }

/-- The verify-group registers as VERIFY starts: VG_TOTAL is the number of groups, the others are 0
(43_commands.md R268). -/
def initGroups (s : State) : State :=
  { s with
    vgTotal := BitVec.ofNat 32 s.groups.length
    vgIdx := 0
    vgFirst := 0
    vgLast := 0
    vgStart := 0
    vgLen := 0
    vgExpect := 0 }

/-- VERIFY's body (43_commands.md R268, 42_verifier.md R221). -/
def verifyBody (s : State) : EngineEnd :=
  if s.vwin.toNat < s.secSize.toNat then .err s .config 0
  else match s.groups with
    | [] => .ok { initGroups s with phase := .passed }
    | g :: _ => .ok { present 0 g (initGroups s) with phase := .verifying }

/-- ERRINFO of a verify step outside VERIFYING (42_verifier.md R234). -/
def vstepSequenceInfo : Word := 0x100

/-- VSTEP, the verify step that an accepted VG_RESP write starts (42_verifier.md R230 to R234). A next
group that Groups() does not have is a fault (log 11). -/
def execVStep (s : State) : Result :=
  if s.phase ≠ .verifying then .next (endStep (.err s .sequence vstepSequenceInfo))
  else if s.vgResp ≠ s.vgExpect then .next (endStep (.err s .verifyMismatch s.vgIdx))
  else if s.vgIdx.toNat + 1 = s.vgTotal.toNat then
    .next (endStep (.ok { s with vgIdx := s.vgTotal, phase := .passed }))
  else match s.groups[s.vgIdx.toNat + 1]? with
    | some g => .next (endStep (.ok (present (s.vgIdx.toNat + 1) g s)))
    | none => .fault .noSuchGroup

end Sys2Proof.Machine
end

