-- ==== Sys2Proof/Machine/Commands.lean ====
section
/-! DEFINITION. The commands (43_commands.md part 2): each meaning is the engine step that performs the
command word held in PEND. -/

namespace Sys2Proof.Machine

/-- NOP (43_commands.md R253). -/
def execNop (s : State) : Result := .next (runCommand 0x0 .ok s)

/-- CLEAR's body (43_commands.md R256). -/
def clearBody (s : State) : State :=
  { leaveError s with
    drop := false
    eofSeen := false
    haveData := false
    startAddr := 0
    endAddr := 0
    imgCsum := 0
    imgCrc := 0
    secCount := 0
    ext := 0
    recCount := 0
    cur := 0
    vgTotal := 0
    vgIdx := 0
    vgFirst := 0
    vgLast := 0
    vgStart := 0
    vgLen := 0
    vgExpect := 0
    vgResp := 0
    rangeCsum := 0
    rangeCrc := 0 }

/-- CLEAR (43_commands.md R256). -/
def execClear (s : State) : Result := .next (runCommand 0x1 (fun s => .ok (clearBody s)) s)

/-- DECODE's body (43_commands.md R260). -/
def decodeBody (s : State) : EngineEnd :=
  match runDecode s with
  | .ok s' => .ok { s' with phase := .decoded }
  | .err s' code info => .err s' code info

/-- DECODE (43_commands.md R260). -/
def execDecode (s : State) : Result := .next (runCommand 0x2 decodeBody s)

/-- BUILD (43_commands.md R265). -/
def execBuild (s : State) : Result := .next (runCommand 0x3 buildBody s)

/-- VERIFY (43_commands.md R268). -/
def execVerify (s : State) : Result := .next (runCommand 0x4 verifyBody s)

/-- RANGE's body (43_commands.md R270). The range's end is compared unbounded. -/
def rangeBody (s : State) : EngineEnd :=
  if s.capBuf.toNat < s.rangeStart.toNat + s.rangeLen.toNat then .err s .range s.rangeStart
  else .ok { s with
    rangeCsum := sum32 (s.imgRange s.rangeStart.toNat s.rangeLen.toNat)
    rangeCrc := crc32 (s.imgRange s.rangeStart.toNat s.rangeLen.toNat) }

/-- RANGE (43_commands.md R270). -/
def execRange (s : State) : Result := .next (runCommand 0x5 rangeBody s)

/-- The words 0x6 and 0x7 (43_commands.md R275). -/
def execIllegalOp67 (lo : BitVec 1) (s : State) : Result := .next (runIllegal (3#31 ++ lo) s)

/-- The words 0x8 to 0xF (43_commands.md R275). -/
def execIllegalOp8F (lo : BitVec 3) (s : State) : Result := .next (runIllegal (1#29 ++ lo) s)

/-- A word whose bits 31:4 are not 0 (43_commands.md R275). -/
def execIllegalRsv (w : Word) (s : State) : Result := .next (runIllegal w s)

end Sys2Proof.Machine
end

