-- ==== Sys2Proof/Machine/Dispatch.lean ====
section
/-! DEFINITION. The dispatch of every instruction to its meaning, one arm per constructor. -/

namespace Sys2Proof.Machine

def exec (i : Instr) (s : State) : Host.Outcome State Fault Refusal :=
  match i with
  | .nop => Sys2Proof.Machine.execNop s
  | .clear => Sys2Proof.Machine.execClear s
  | .decode => Sys2Proof.Machine.execDecode s
  | .build => Sys2Proof.Machine.execBuild s
  | .verify => Sys2Proof.Machine.execVerify s
  | .range => Sys2Proof.Machine.execRange s
  | .illegalOp67 lo => Sys2Proof.Machine.execIllegalOp67 lo s
  | .illegalOp8F lo => Sys2Proof.Machine.execIllegalOp8F lo s
  | .illegalRsv w => Sys2Proof.Machine.execIllegalRsv w s
  | .data r => Sys2Proof.Machine.execData r s
  | .eof r => Sys2Proof.Machine.execEof r s
  | .ext04 r => Sys2Proof.Machine.execExt04 r s
  | .ext02 r => Sys2Proof.Machine.execExt02 r s
  | .extNotSelected ty r => Sys2Proof.Machine.execExtNotSelected ty r s
  | .reservedType ty r => Sys2Proof.Machine.execReservedType ty r s
  | .rdId => Sys2Proof.Machine.execRdId s
  | .wrId v => Sys2Proof.Machine.execWrId v s
  | .rdCtrl => Sys2Proof.Machine.execRdCtrl s
  | .wrCtrl v => Sys2Proof.Machine.execWrCtrl v s
  | .rdMaxAddr => Sys2Proof.Machine.execRdMaxAddr s
  | .wrMaxAddr v => Sys2Proof.Machine.execWrMaxAddr v s
  | .rdSecSize => Sys2Proof.Machine.execRdSecSize s
  | .wrSecSize v => Sys2Proof.Machine.execWrSecSize v s
  | .rdVwin => Sys2Proof.Machine.execRdVwin s
  | .wrVwin v => Sys2Proof.Machine.execWrVwin v s
  | .rdCmd => Sys2Proof.Machine.execRdCmd s
  | .wrCmd v => Sys2Proof.Machine.execWrCmd v s
  | .rdStatus => Sys2Proof.Machine.execRdStatus s
  | .wrStatus v => Sys2Proof.Machine.execWrStatus v s
  | .rdErrInfo => Sys2Proof.Machine.execRdErrInfo s
  | .wrErrInfo v => Sys2Proof.Machine.execWrErrInfo v s
  | .rdInAddr => Sys2Proof.Machine.execRdInAddr s
  | .wrInAddr v => Sys2Proof.Machine.execWrInAddr v s
  | .rdInData => Sys2Proof.Machine.execRdInData s
  | .wrInData v => Sys2Proof.Machine.execWrInData v s
  | .rdInLen => Sys2Proof.Machine.execRdInLen s
  | .wrInLen v => Sys2Proof.Machine.execWrInLen v s
  | .rdImgAddr => Sys2Proof.Machine.execRdImgAddr s
  | .wrImgAddr v => Sys2Proof.Machine.execWrImgAddr v s
  | .rdImgData => Sys2Proof.Machine.execRdImgData s
  | .wrImgData v => Sys2Proof.Machine.execWrImgData v s
  | .rdStartAddr => Sys2Proof.Machine.execRdStartAddr s
  | .wrStartAddr v => Sys2Proof.Machine.execWrStartAddr v s
  | .rdEndAddr => Sys2Proof.Machine.execRdEndAddr s
  | .wrEndAddr v => Sys2Proof.Machine.execWrEndAddr v s
  | .rdImgCsum => Sys2Proof.Machine.execRdImgCsum s
  | .wrImgCsum v => Sys2Proof.Machine.execWrImgCsum v s
  | .rdImgCrc => Sys2Proof.Machine.execRdImgCrc s
  | .wrImgCrc v => Sys2Proof.Machine.execWrImgCrc v s
  | .rdSecCount => Sys2Proof.Machine.execRdSecCount s
  | .wrSecCount v => Sys2Proof.Machine.execWrSecCount v s
  | .rdExt => Sys2Proof.Machine.execRdExt s
  | .wrExt v => Sys2Proof.Machine.execWrExt v s
  | .rdRecCount => Sys2Proof.Machine.execRdRecCount s
  | .wrRecCount v => Sys2Proof.Machine.execWrRecCount v s
  | .rdCur => Sys2Proof.Machine.execRdCur s
  | .wrCur v => Sys2Proof.Machine.execWrCur v s
  | .rdSecIdx => Sys2Proof.Machine.execRdSecIdx s
  | .wrSecIdx v => Sys2Proof.Machine.execWrSecIdx v s
  | .rdSecStart => Sys2Proof.Machine.execRdSecStart s
  | .wrSecStart v => Sys2Proof.Machine.execWrSecStart v s
  | .rdSecEnd => Sys2Proof.Machine.execRdSecEnd s
  | .wrSecEnd v => Sys2Proof.Machine.execWrSecEnd v s
  | .rdSecLen => Sys2Proof.Machine.execRdSecLen s
  | .wrSecLen v => Sys2Proof.Machine.execWrSecLen v s
  | .rdSecCsum => Sys2Proof.Machine.execRdSecCsum s
  | .wrSecCsum v => Sys2Proof.Machine.execWrSecCsum v s
  | .rdSecCrc => Sys2Proof.Machine.execRdSecCrc s
  | .wrSecCrc v => Sys2Proof.Machine.execWrSecCrc v s
  | .rdVgTotal => Sys2Proof.Machine.execRdVgTotal s
  | .wrVgTotal v => Sys2Proof.Machine.execWrVgTotal v s
  | .rdVgIdx => Sys2Proof.Machine.execRdVgIdx s
  | .wrVgIdx v => Sys2Proof.Machine.execWrVgIdx v s
  | .rdVgFirst => Sys2Proof.Machine.execRdVgFirst s
  | .wrVgFirst v => Sys2Proof.Machine.execWrVgFirst v s
  | .rdVgLast => Sys2Proof.Machine.execRdVgLast s
  | .wrVgLast v => Sys2Proof.Machine.execWrVgLast v s
  | .rdVgStart => Sys2Proof.Machine.execRdVgStart s
  | .wrVgStart v => Sys2Proof.Machine.execWrVgStart v s
  | .rdVgLen => Sys2Proof.Machine.execRdVgLen s
  | .wrVgLen v => Sys2Proof.Machine.execWrVgLen v s
  | .rdVgExpect => Sys2Proof.Machine.execRdVgExpect s
  | .wrVgExpect v => Sys2Proof.Machine.execWrVgExpect v s
  | .rdVgResp => Sys2Proof.Machine.execRdVgResp s
  | .wrVgResp v => Sys2Proof.Machine.execWrVgResp v s
  | .rdRangeStart => Sys2Proof.Machine.execRdRangeStart s
  | .wrRangeStart v => Sys2Proof.Machine.execWrRangeStart v s
  | .rdRangeLen => Sys2Proof.Machine.execRdRangeLen s
  | .wrRangeLen v => Sys2Proof.Machine.execWrRangeLen v s
  | .rdRangeCsum => Sys2Proof.Machine.execRdRangeCsum s
  | .wrRangeCsum v => Sys2Proof.Machine.execWrRangeCsum v s
  | .rdRangeCrc => Sys2Proof.Machine.execRdRangeCrc s
  | .wrRangeCrc v => Sys2Proof.Machine.execWrRangeCrc v s
  | .rdCapBuf => Sys2Proof.Machine.execRdCapBuf s
  | .wrCapBuf v => Sys2Proof.Machine.execWrCapBuf v s
  | .rdCapIn => Sys2Proof.Machine.execRdCapIn s
  | .wrCapIn v => Sys2Proof.Machine.execWrCapIn v s
  | .rdCapSec => Sys2Proof.Machine.execRdCapSec s
  | .wrCapSec v => Sys2Proof.Machine.execWrCapSec v s
  | .reservedAccess sel wdata => Sys2Proof.Machine.execReservedAccess sel wdata s

end Sys2Proof.Machine
end

