-- ==== Sys2Proof/Machine/Fetch.lean ====
section
/-! DEFINITION. Which agent moves next and what it runs (00_scope.md R17, R18), and where a word of the
opcode table is placed so that the next step runs it. -/

namespace Sys2Proof.Machine

/-- What the next step does. -/
inductive Turn where
  /-- Nothing: no transaction, no operation pending (60_exceptions.md R369). -/
  | idle
  | instr (i : Instr)
  /-- The engine performs VSTEP, which has no opcode of its own (42_verifier.md R230). -/
  | verifyStep
  | reset
  deriving DecidableEq, Repr

/-- The engine's turn: enabled exactly when BUSY = 1; the operation in PEND (00_scope.md R18,
43_commands.md R252). -/
def engineTurn (s : State) : Turn :=
  match s.pend with
  | .none => .idle
  | .cmd w => .instr (decodeCmd w)
  | .vstep => .verifyStep

/-- The next turn and the state it starts from, the event taken off the schedule. With no event left
the engine still moves, so an operation that has started is always performed (log 1). -/
def fetch (s : State) : Turn × State :=
  match s.schedule with
  | [] => (engineTurn s, s)
  | .engine :: rest => (engineTurn s, { s with schedule := rest })
  | .bus sel wdata :: rest => (.instr (decodeBus sel wdata), { s with schedule := rest })
  | .reset :: rest => (.reset, { s with schedule := rest })

/-- A bus transaction is the next event. -/
def placeBus (sel : Selector) (wdata : Word) (s : State) : State :=
  { s with schedule := .bus sel wdata :: s.schedule }

/-- A command word is pending and the engine has the next turn. -/
def placeCommand (w : Word) (s : State) : State :=
  { s with pend := .cmd w, schedule := .engine :: s.schedule }

/-- CTRL.USES_CRC under which the record of TYPE `ty` is run: only the two extended-address TYPEs depend
on it (log 8). -/
def placedUsesCrc (ty : Byte) (s : State) : Bool :=
  if ty = 0x02#8 ∨ ty = 0x04#8 then tableUsesCrc ty else s.usesCrc

/-- A record is the whole input text, and DECODE is pending in IDLE with the profile under which the
record's TYPE is read (logs 8, 9). -/
def placeRecord (usesCrc : Bool) (chars : List Byte) (s : State) : State :=
  placeCommand 0x2 { leaveError s with
    ctrl := BitVec.ofBool s.eofStop ++ BitVec.ofBool usesCrc
    inBuf := s.inBuf.writeBytes 0 chars
    inLen := BitVec.ofNat 32 chars.length }

/-- Places a word of the opcode table; a word of no row changes nothing. -/
def placeTableWord (nbits w : Nat) (s : State) : State :=
  match tablePacket nbits w with
  | none => s
  | some (.bus sel wdata) => placeBus sel wdata s
  | some (.command c) => placeCommand c s
  | some (.record chars) => placeRecord (placedUsesCrc (BitVec.ofNat 8 w) s) chars s

end Sys2Proof.Machine
end

