-- ==== Sys2Proof/Machine/Step.lean ====
section
/-! DEFINITION. One step of the machine: one bus transaction, one engine step or one reset
(00_scope.md R18, 70_reset_and_hazards.md R380). -/

namespace Sys2Proof.Machine

/-- One step (00_scope.md R18). -/
def step (s : State) : Host.Outcome State Fault Refusal :=
  match fetch s with
  | (.idle, s') => .next s'
  | (.instr i, s') => exec i s'
  | (.verifyStep, s') => execVStep s'
  | (.reset, s') => .next (resetEvent s')

/-- `s` with a word of the opcode table where `step` fetches its next instruction (log 8, log 9). -/
def State.withFetchWord (s : State) (nbits w : Nat) : State := placeTableWord nbits w s

end Sys2Proof.Machine
end

