-- ==== Sys2Proof/Safety.lean ====
section
/-! DEFINITION. What a legal state of the block is: the facts the rules give of every state that a run
from reset reaches, and what it is for a step not to stop. -/

namespace Sys2Proof.Machine

/-- A phase in which an image has been decoded without error (10_state.md R51). -/
abbrev Phase.hasImage (p : Phase) : Prop :=
  p = .decoded ∨ p = .built ∨ p = .verifying ∨ p = .passed

/-- A phase in which the sector table is valid (10_state.md R38). -/
abbrev Phase.hasSectors (p : Phase) : Prop := p = .built ∨ p = .verifying ∨ p = .passed

/-- IN and IMG are in canonical form. -/
abbrev BuffersCanonical (s : State) : Prop := s.inBuf.wf = true ∧ s.imgBuf.wf = true

/-- The capacities bound what they bound: BUF_CAP ≥ MAXADDR, IN_CAP ≥ IN_LEN, SEC_CAP ≥ SEC_COUNT, and
each is at least 1 (00_scope.md R9, 10_state.md R33, R47, 41_image_builder.md R194). -/
abbrev CapacitiesBound (s : State) : Prop :=
  1 ≤ s.capBuf.toNat ∧ 1 ≤ s.capIn.toNat ∧ 1 ≤ s.capSec.toNat
    ∧ s.maxAddr.toNat ≤ s.capBuf.toNat ∧ s.inLen.toNat ≤ s.capIn.toNat
    ∧ s.secCount.toNat ≤ s.capSec.toNat

/-- The image's bounds (10_state.md R51, R69, 41_image_builder.md R185, R187): in order, inside MAXADDR,
0 where no data record has been met, and 0 in IDLE. -/
abbrev ImageBounded (s : State) : Prop :=
  s.startAddr.toNat ≤ s.endAddr.toNat ∧ s.endAddr.toNat ≤ s.maxAddr.toNat
    ∧ (s.haveData = true ↔ s.endAddr ≠ 0)
    ∧ (s.haveData = false → s.startAddr = 0)
    ∧ (s.phase = .idle → s.haveData = false)

/-- Once an image has been decoded, no byte of IMG is unspecified (41_image_builder.md R180,
70_reset_and_hazards.md R382). -/
abbrev ImageFilled (s : State) : Prop :=
  s.phase.hasImage → s.imgBuf.fill = some Config.fillByte

/-- The error record (10_state.md R39, R40, R43, 44_bus_access.md R294): empty outside FAILED; in FAILED
it holds an error of another phase, and only NOP or CLEAR may be pending. -/
abbrev ErrorRecordSound (s : State) : Prop :=
  (s.phase ≠ .failed → s.errCode = .none ∧ s.errPhase = .idle ∧ s.errInfo = 0)
    ∧ (s.phase = .failed → s.errCode ≠ .none ∧ s.errPhase ≠ .failed
      ∧ (s.pend = .none ∨ s.pend = .cmd 0x0 ∨ s.pend = .cmd 0x1))

/-- The sector table (10_state.md R54, R67, 41_image_builder.md R195, R198): empty in IDLE and DECODED,
and what BUILD wrote from then on. -/
abbrev SectorTableSound (s : State) : Prop :=
  (s.phase = .idle ∨ s.phase = .decoded → s.secCount = 0)
    ∧ (s.phase.hasSectors →
      s.secSize ≠ 0 ∧ s.secCount.toNat = s.sectorTotal ∧ s.sectors = s.builtTable
        ∧ s.imgCsum = sumWords (s.sectors.map Sector.csum)
        ∧ s.imgCrc = sumWords (s.sectors.map Sector.crc))

/-- The verify-group registers name the group `g` with index `k` (42_verifier.md R227). -/
abbrev ShowsGroup (s : State) (k : Nat) (g : Group) : Prop :=
  s.vgIdx = BitVec.ofNat 32 k ∧ s.vgFirst = BitVec.ofNat 32 g.first
    ∧ s.vgLast = BitVec.ofNat 32 g.last ∧ s.vgStart = (s.sector g.first).startAddr
    ∧ s.vgLen = (s.sector g.last).endAddr - (s.sector g.first).startAddr
    ∧ s.vgExpect = s.expect g

/-- The verify-group registers (10_state.md R59, R60): 0 until VERIFY, the group that awaits its answer
in VERIFYING, VG_IDX = VG_TOTAL in PASSED. -/
abbrev VerifyGroupSound (s : State) : Prop :=
  (s.phase = .idle ∨ s.phase = .decoded ∨ s.phase = .built →
      s.vgTotal = 0 ∧ s.vgIdx = 0 ∧ s.vgFirst = 0 ∧ s.vgLast = 0 ∧ s.vgStart = 0 ∧ s.vgLen = 0
        ∧ s.vgExpect = 0)
    ∧ (s.phase = .verifying ∨ s.phase = .passed →
      s.secSize.toNat ≤ s.vwin.toNat ∧ s.vgTotal.toNat = s.groups.length)
    ∧ (s.phase = .verifying →
      ∃ g, s.groups[s.vgIdx.toNat]? = some g ∧ ShowsGroup s s.vgIdx.toNat g)
    ∧ (s.phase = .passed → s.vgIdx = s.vgTotal)

/-- A legal state. -/
structure Legal (s : State) : Prop where
  buffers  : BuffersCanonical s
  caps     : CapacitiesBound s
  bounds   : ImageBounded s
  filled   : ImageFilled s
  error    : ErrorRecordSound s
  sectors  : SectorTableSound s
  groups   : VerifyGroupSound s

/-- A step that neither faults nor is refused. -/
def Completes (o : Result) : Prop := ∃ t, o = .next t

end Sys2Proof.Machine
end

