-- ==== Sys2Proof/Certificates/Slice0/Obligations.lean ====
section
/-! DEFINITION. The statements for the provers. Each is about the machine of Sys2Proof/Machine; a rule
R<n> is a rule of spec/. "The model's choice" marks a clause that rests on a log entry. -/

open Sys2Proof Sys2Proof.Machine

/-! ### Decoding and encoding -/

/-- Decode and encode agree on every well-formed instruction of the three opcode spaces
(30_encoding.md R100, R101, R111, R120, R125). -/
def Obligations.DecodeOfEncodeReturnsInstr : Prop :=
  ∀ (usesCrc : Bool) (i : Instr), i.wellFormed = true → i.selectedBy usesCrc = true →
    decode usesCrc (encode i) = .ok i

/-- A record inside a longer text: the scan reads back its TYPE, address, payload, checksum and
terminator, and consumes 10 + 2L + t characters (30_encoding.md R120, R123, R124, 40_hex_decoder.md
R150). -/
def Obligations.ScanOfEncodedRecordInText : Prop :=
  ∀ (ty : Byte) (r : HexRecord) (rest : List Byte), r.wellFormed = true →
    (r.term = .none → rest.head? ≠ some 0x0D#8 ∧ rest.head? ≠ some 0x0A#8) →
    (r.term = .cr → rest.head? ≠ some 0x0A#8) →
    scanRecord (encodeRecord ty r ++ rest) = .ok (ty, r)
      ∧ (encodeRecord ty r).length = 10 + 2 * r.payload.length + r.term.chars.length

/-- Every 32-bit command word and every bus transaction is the encoding of what it decodes to, so no two
instructions share one; a read of a listed register has no wdata (30_encoding.md R100, R101, R110 to
R112). -/
def Obligations.EncodeOfDecodedCommandOrTransaction : Prop :=
  (∀ w : Word, encode (decodeCmd w) = .command w)
    ∧ ∀ (sel : Selector) (v : Word), encode (decodeBus sel v)
      = .bus sel (if offsetListed (sel.extractLsb' 0 8) = true ∧ sel.getLsbD 8 = false then 0 else v)

/-- The decoders answer only well-formed instructions, and a record's reading is the one CTRL.USES_CRC
selects (30_encoding.md R101, R112, R125, 40_hex_decoder.md R160). -/
def Obligations.DecodedInstructionsAreWellFormed : Prop :=
  (∀ (sel : Selector) (v : Word), (decodeBus sel v).wellFormed = true)
    ∧ (∀ w : Word, (decodeCmd w).wellFormed = true)
    ∧ (∀ (usesCrc : Bool) (t : List Byte) (i : Instr) (r : HexRecord),
        decodeRecord usesCrc t = .ok (i, r) → i.wellFormed = true ∧ i.selectedBy usesCrc = true)

/-- A few words of each family, written out from the spec's encodings (30_encoding.md R101, R111, R125,
R133). -/
def Obligations.WordsOfEachFamilyDecode : Prop :=
  decodeCmd 0x00000002#32 = .decode ∧ decodeCmd 0x00000005#32 = .range
    ∧ decodeCmd 0x0000000B#32 = .illegalOp8F 3#3 ∧ decodeCmd 0x00000011#32 = .illegalRsv 0x11#32
    ∧ decodeBus 0x114#9 7#32 = .wrCmd 7#32 ∧ decodeBus 0x030#9 0#32 = .rdImgData
    ∧ decodeBus 0x0A8#9 0#32 = .reservedAccess 0x0A8#9 0#32
    ∧ decode false (.record [0x30, 0x32, 0x30, 0x30, 0x30, 0x30, 0x30, 0x34, 0x30, 0x30, 0x30, 0x41,
        0x46, 0x30, 0x0D, 0x0A])
      = .ok (.ext04 { addr := 0, payload := [0x00, 0x0A], ck := 0xF0, term := .crlf })

/-- The value of a hex digit, a letter in either case, and of nothing else: the ten characters from 0x30,
the six from 0x41 and the six from 0x61 (30_encoding.md R121, 40_hex_decoder.md R168). -/
def Obligations.HexDigitValues : Prop :=
  (∀ n : Nibble, n.toNat ≤ 9 → hexVal (0x30#8 + n.setWidth 8) = some n)
    ∧ (∀ n : Nibble, 10 ≤ n.toNat →
        hexVal (0x37#8 + n.setWidth 8) = some n ∧ hexVal (0x57#8 + n.setWidth 8) = some n)
    ∧ (∀ (c : Byte) (n : Nibble), hexVal c = some n →
        (n.toNat ≤ 9 ∧ c = 0x30#8 + n.setWidth 8)
          ∨ (10 ≤ n.toNat ∧ (c = 0x37#8 + n.setWidth 8 ∨ c = 0x57#8 + n.setWidth 8)))

/-- A rejected record is rejected at its first failing character, with every character before it a hex
digit: the end of the text, or a character that is no hex digit (40_hex_decoder.md R143, R144). -/
def Obligations.ScanRejectsAtFirstFailingCharacter : Prop :=
  ∀ (t : List Byte) (e : ScanReject), scanRecord t = .error e →
    (∀ k, e = .truncated k → k = t.length
      ∧ ∀ j, j < k → ∃ c n, t[j]? = some c ∧ hexVal c = some n)
    ∧ (∀ k, e = .badHexChar k → (∃ c, t[k]? = some c ∧ hexVal c = none)
      ∧ ∀ j, j < k → ∃ c n, t[j]? = some c ∧ hexVal c = some n)

/-! ### A step -/

/-- A step runs the decoded instruction: a bus transaction at the head of the schedule; the pending
command word when the engine has the turn or no event is left; then too the verify step that an
accepted VG_RESP write has started; with nothing pending the engine's turn does nothing (00_scope.md
R18, 43_commands.md R252, 42_verifier.md R230, 60_exceptions.md R369). The schedule is the model's
choice (log 1). -/
def Obligations.StepRunsTheDecodedInstruction : Prop :=
  (∀ (s : State) (sel : Selector) (v : Word) (rest : List Event), s.schedule = .bus sel v :: rest →
      step s = exec (decodeBus sel v) { s with schedule := rest })
    ∧ (∀ (s : State) (w : Word) (rest : List Event), s.schedule = .engine :: rest →
      s.pend = .cmd w → step s = exec (decodeCmd w) { s with schedule := rest })
    ∧ (∀ (s : State) (w : Word), s.schedule = [] → s.pend = .cmd w → step s = exec (decodeCmd w) s)
    ∧ (∀ (s : State) (rest : List Event), s.schedule = .engine :: rest → s.pend = .vstep →
      step s = execVStep { s with schedule := rest })
    ∧ (∀ s : State, s.schedule = [] → s.pend = .vstep → step s = execVStep s)
    ∧ (∀ (s : State) (rest : List Event), s.schedule = .engine :: rest → s.pend = .none →
      step s = .next { s with schedule := rest })
    ∧ (∀ s : State, s.schedule = [] → s.pend = .none → step s = .next s)

/-- The decoder's loop runs the record instruction that the text at its cursor decodes to: when the
instruction's meaning ends in an error, DECODE ends there; when an EOF record stops decoding, too;
otherwise the loop goes on after the record, from the state that meaning gave (40_hex_decoder.md R140,
R155, R158). -/
def Obligations.DecoderLoopRunsRecordInstructions : Prop :=
  ∀ (fuel : Nat) (c : Byte) (t : List Byte) (s s' : State) (ty : Byte) (r : HexRecord),
    scanRecord (c :: t) = .ok (ty, r) → s.phase ≠ .failed →
    exec (recordInstr s.usesCrc ty r) s = .next s' →
    (s'.phase = .failed → endStep (decodeLoop (fuel + 1) (c :: t) s) = s')
      ∧ (s'.phase ≠ .failed → ty = 0x01#8 → s.eofStop = true →
          decodeLoop (fuel + 1) (c :: t) s = .ok s')
      ∧ (s'.phase ≠ .failed → (ty ≠ 0x01#8 ∨ s.eofStop = false) →
          decodeLoop (fuel + 1) (c :: t) s = decodeLoop fuel ((c :: t).drop r.size) s')

/-- Every instruction has an effect in every state: exec never stops (00_scope.md R19, 60_exceptions.md
R351). -/
def Obligations.EveryInstructionCompletes : Prop :=
  ∀ (i : Instr) (s : State), Completes (exec i s)

/-! ### Reads -/

/-- Plain reads with BUSY = 0: the stored value with its reserved bits 0, the view of SEC[SEC_IDX], no
state changed (44_bus_access.md R292, 10_state.md R58). The word goes to the model's field rdata
(log 2). -/
def Obligations.PlainReadsReturnStoredValues : Prop :=
  ∀ s : State, s.busy = false →
    exec .rdId s = .next { s with rdata := 0x43535601#32 }
    ∧ exec .rdCtrl s = .next { s with rdata := s.ctrl.setWidth 32 }
    ∧ exec .rdMaxAddr s = .next { s with rdata := s.maxAddr }
    ∧ exec .rdSecSize s = .next { s with rdata := s.secSize }
    ∧ exec .rdVwin s = .next { s with rdata := s.vwin }
    ∧ exec .rdErrInfo s = .next { s with rdata := s.errInfo }
    ∧ exec .rdInAddr s = .next { s with rdata := s.inAddr }
    ∧ exec .rdInLen s = .next { s with rdata := s.inLen }
    ∧ exec .rdImgAddr s = .next { s with rdata := s.imgAddr }
    ∧ exec .rdStartAddr s = .next { s with rdata := s.startAddr }
    ∧ exec .rdEndAddr s = .next { s with rdata := s.endAddr }
    ∧ exec .rdImgCsum s = .next { s with rdata := s.imgCsum }
    ∧ exec .rdImgCrc s = .next { s with rdata := s.imgCrc }
    ∧ exec .rdSecCount s = .next { s with rdata := s.secCount }
    ∧ exec .rdExt s = .next { s with rdata := s.ext.setWidth 32 }
    ∧ exec .rdRecCount s = .next { s with rdata := s.recCount }
    ∧ exec .rdCur s = .next { s with rdata := s.cur }
    ∧ exec .rdSecIdx s = .next { s with rdata := s.secIdx }
    ∧ exec .rdVgTotal s = .next { s with rdata := s.vgTotal }
    ∧ exec .rdVgIdx s = .next { s with rdata := s.vgIdx }
    ∧ exec .rdVgFirst s = .next { s with rdata := s.vgFirst }
    ∧ exec .rdVgLast s = .next { s with rdata := s.vgLast }
    ∧ exec .rdVgStart s = .next { s with rdata := s.vgStart }
    ∧ exec .rdVgLen s = .next { s with rdata := s.vgLen }
    ∧ exec .rdVgExpect s = .next { s with rdata := s.vgExpect }
    ∧ exec .rdVgResp s = .next { s with rdata := s.vgResp }
    ∧ exec .rdRangeStart s = .next { s with rdata := s.rangeStart }
    ∧ exec .rdRangeLen s = .next { s with rdata := s.rangeLen }
    ∧ exec .rdRangeCsum s = .next { s with rdata := s.rangeCsum }
    ∧ exec .rdRangeCrc s = .next { s with rdata := s.rangeCrc }
    ∧ exec .rdCapBuf s = .next { s with rdata := s.capBuf }
    ∧ exec .rdCapIn s = .next { s with rdata := s.capIn }
    ∧ exec .rdCapSec s = .next { s with rdata := s.capSec }
    ∧ exec .rdSecStart s = .next { s with rdata := if s.secIdx.toNat < s.secCount.toNat
        then (s.sector s.secIdx.toNat).startAddr else 0 }
    ∧ exec .rdSecEnd s = .next { s with rdata := if s.secIdx.toNat < s.secCount.toNat
        then (s.sector s.secIdx.toNat).endAddr else 0 }
    ∧ exec .rdSecLen s = .next { s with rdata := if s.secIdx.toNat < s.secCount.toNat
        then (s.sector s.secIdx.toNat).len else 0 }
    ∧ exec .rdSecCsum s = .next { s with rdata := if s.secIdx.toNat < s.secCount.toNat
        then (s.sector s.secIdx.toNat).csum else 0 }
    ∧ exec .rdSecCrc s = .next { s with rdata := if s.secIdx.toNat < s.secCount.toNat
        then (s.sector s.secIdx.toNat).crc else 0 }

/-- The two ports with BUSY = 0: the byte at the pointer inside the buffer, 0 outside it, and the pointer
advances mod 2^32 (44_bus_access.md R298, R299). A byte that nothing has written is a free value
(logs 4, 5). -/
def Obligations.PortReadsAdvanceThePointer : Prop :=
  ∀ s : State, s.busy = false →
    exec .rdInData s = .next { s with
        rdata := if s.inAddr.toNat < s.capIn.toNat then (s.inByte s.inAddr.toNat).setWidth 32 else 0
        inAddr := BitVec.ofNat 32 ((s.inAddr.toNat + 1) % 2 ^ 32) }
      ∧ exec .rdImgData s = .next { s with
        rdata := if s.imgAddr.toNat < s.capBuf.toNat
          then (s.imgByte s.imgAddr.toNat).setWidth 32 else 0
        imgAddr := BitVec.ofNat 32 ((s.imgAddr.toNat + 1) % 2 ^ 32) }

/-- Reads of STATUS and CMD, BUSY or not: CMD reads 0; STATUS is composed, field by field, and each
phase and each error code has the value its table gives it (44_bus_access.md R301, R303, 10_state.md R37,
R38, R42, 60_exceptions.md R340, 70_reset_and_hazards.md R391). -/
def Obligations.StatusAndCmdReads : Prop :=
  (∀ s : State, exec .rdCmd s = .next { s with rdata := 0 }
    ∧ exec .rdStatus s = .next { s with rdata := s.status }
    ∧ s.status.getLsbD 0 = s.busy
    ∧ s.status.getLsbD 1 = (decide (s.phase = .verifying) && !s.busy)
    ∧ s.status.getLsbD 2 = s.eofSeen ∧ s.status.getLsbD 3 = s.drop
    ∧ s.status.extractLsb' 4 4 = s.phase.code ∧ s.status.extractLsb' 8 8 = s.errCode.code
    ∧ s.status.extractLsb' 16 4 = s.errPhase.code ∧ s.status.extractLsb' 20 12 = 0#12)
  ∧ (Phase.idle.code = 0x0#4 ∧ Phase.decoded.code = 0x1#4 ∧ Phase.built.code = 0x2#4
    ∧ Phase.verifying.code = 0x3#4 ∧ Phase.passed.code = 0x4#4 ∧ Phase.failed.code = 0xF#4)
  ∧ (ErrCode.none.code = 0x00#8 ∧ ErrCode.hexChar.code = 0x01#8 ∧ ErrCode.hexTrunc.code = 0x02#8
    ∧ ErrCode.recType.code = 0x03#8 ∧ ErrCode.addrRange.code = 0x04#8
    ∧ ErrCode.spanRange.code = 0x05#8 ∧ ErrCode.verifyMismatch.code = 0x06#8
    ∧ ErrCode.config.code = 0x07#8 ∧ ErrCode.sectorOvf.code = 0x08#8
    ∧ ErrCode.sequence.code = 0x09#8 ∧ ErrCode.illegalCmd.code = 0x0A#8
    ∧ ErrCode.range.code = 0x0B#8)

/-- Reads while BUSY = 1: STATUS, ID, CMD and the capacities as ever; every other listed register answers
an unspecified value, a fresh one each time, and no read has a side effect (70_reset_and_hazards.md
R391). The counter of draws is the model's (log 7). -/
def Obligations.ReadsWhileBusy : Prop :=
  ∀ s : State, s.busy = true →
    exec .rdId s = .next { s with rdata := 0x43535601#32 }
    ∧ exec .rdCmd s = .next { s with rdata := 0 }
    ∧ exec .rdCapBuf s = .next { s with rdata := s.capBuf }
    ∧ exec .rdCapIn s = .next { s with rdata := s.capIn }
    ∧ exec .rdCapSec s = .next { s with rdata := s.capSec }
    ∧ exec .rdStatus s = .next { s with rdata := s.status }
    ∧ s.status.getLsbD 0 = true ∧ s.status.getLsbD 1 = false
    ∧ ∀ r : Reg, r ≠ .id ∧ r ≠ .cmd ∧ r ≠ .status ∧ r ≠ .capBuf ∧ r ≠ .capIn ∧ r ≠ .capSec →
        exec r.readInstr s
          = .next { s with rdata := Config.busyRead s.draws, draws := s.draws + 1 }

/-- A reserved access: a read returns 0, a write has no effect, BUSY or not, and DROP is not set
(44_bus_access.md R304). -/
def Obligations.ReservedAccessesDoNothing : Prop :=
  ∀ (sel : Selector) (v : Word) (s : State), offsetListed (sel.extractLsb' 0 8) = false →
    decodeBus sel v = .reservedAccess sel v
      ∧ (sel.getLsbD 8 = false →
          exec (.reservedAccess sel v) s = .next { s with rdata := 0 })
      ∧ (sel.getLsbD 8 = true → exec (.reservedAccess sel v) s = .next s)

/-- A read of a register other than the two ports is idempotent with BUSY = 0: a second read answers the
same word, and nothing but the word answered has changed (20_memory.md R88). -/
def Obligations.ReadsOtherThanPortsAreIdempotent : Prop :=
  ∀ (r : Reg) (s t u : State), s.busy = false → r ≠ .inData → r ≠ .imgData →
    exec r.readInstr s = .next t → exec r.readInstr t = .next u →
    u = t ∧ t = { s with rdata := t.rdata }

/-! ### Writes -/

/-- Writes with BUSY = 0 of the plain read-write registers, in any phase, and of STATUS, where bit 3 = 1
clears DROP and nothing else changes (44_bus_access.md R296, R300, 10_state.md R47). -/
def Obligations.PlainAndStatusWrites : Prop :=
  ∀ (v : Word) (s : State), s.busy = false →
    (v.getLsbD 3 = true → exec (.wrStatus v) s = .next { s with drop := false })
    ∧ (v.getLsbD 3 = false → exec (.wrStatus v) s = .next s)
    ∧ exec (.wrInAddr v) s = .next { s with inAddr := v }
    ∧ exec (.wrImgAddr v) s = .next { s with imgAddr := v }
    ∧ exec (.wrSecIdx v) s = .next { s with secIdx := v }
    ∧ exec (.wrRangeStart v) s = .next { s with rangeStart := v }
    ∧ exec (.wrRangeLen v) s = .next { s with rangeLen := v }
    ∧ exec (.wrInLen v) s
        = .next { s with inLen := BitVec.ofNat 32 (min v.toNat s.capIn.toNat) }

/-- The profile registers with BUSY = 0: stored in IDLE (CTRL its two bits, MAXADDR at most BUF_CAP),
dropped with DROP in every other phase (44_bus_access.md R295, 10_state.md R32 to R35). -/
def Obligations.ProfileWritesStoreOnlyInIdle : Prop :=
  ∀ (v : Word) (s : State), s.busy = false →
    (s.phase = .idle →
      exec (.wrCtrl v) s = .next { s with ctrl := v.extractLsb' 0 2 }
      ∧ exec (.wrMaxAddr v) s
          = .next { s with maxAddr := BitVec.ofNat 32 (min v.toNat s.capBuf.toNat) }
      ∧ exec (.wrSecSize v) s = .next { s with secSize := v }
      ∧ exec (.wrVwin v) s = .next { s with vwin := v })
    ∧ (s.phase ≠ .idle →
      exec (.wrCtrl v) s = .next { s with drop := true }
      ∧ exec (.wrMaxAddr v) s = .next { s with drop := true }
      ∧ exec (.wrSecSize v) s = .next { s with drop := true }
      ∧ exec (.wrVwin v) s = .next { s with drop := true })

/-- A write of a read-only register with BUSY = 0 has no effect (44_bus_access.md R291). -/
def Obligations.ReadOnlyWritesHaveNoEffect : Prop :=
  ∀ (v : Word) (s : State), s.busy = false →
    exec (.wrId v) s = .next s
    ∧ exec (.wrErrInfo v) s = .next s
    ∧ exec (.wrImgData v) s = .next s
    ∧ exec (.wrStartAddr v) s = .next s
    ∧ exec (.wrEndAddr v) s = .next s
    ∧ exec (.wrImgCsum v) s = .next s
    ∧ exec (.wrImgCrc v) s = .next s
    ∧ exec (.wrSecCount v) s = .next s
    ∧ exec (.wrExt v) s = .next s
    ∧ exec (.wrRecCount v) s = .next s
    ∧ exec (.wrCur v) s = .next s
    ∧ exec (.wrSecStart v) s = .next s
    ∧ exec (.wrSecEnd v) s = .next s
    ∧ exec (.wrSecLen v) s = .next s
    ∧ exec (.wrSecCsum v) s = .next s
    ∧ exec (.wrSecCrc v) s = .next s
    ∧ exec (.wrVgTotal v) s = .next s
    ∧ exec (.wrVgIdx v) s = .next s
    ∧ exec (.wrVgFirst v) s = .next s
    ∧ exec (.wrVgLast v) s = .next s
    ∧ exec (.wrVgStart v) s = .next s
    ∧ exec (.wrVgLen v) s = .next s
    ∧ exec (.wrVgExpect v) s = .next s
    ∧ exec (.wrRangeCsum v) s = .next s
    ∧ exec (.wrRangeCrc v) s = .next s
    ∧ exec (.wrCapBuf v) s = .next s
    ∧ exec (.wrCapIn v) s = .next s
    ∧ exec (.wrCapSec v) s = .next s

/-- A write of IN_DATA with BUSY = 0: IN[IN_ADDR] becomes bits 7:0 when IN_ADDR < IN_CAP, every other byte
of IN stays, IN_ADDR advances mod 2^32, nothing else changes (44_bus_access.md R297). -/
def Obligations.InDataWriteStoresOneByte : Prop :=
  ∀ (v : Word) (s : State), s.busy = false → s.inBuf.wf = true →
    ∃ t, exec (.wrInData v) s = .next t
      ∧ t = { s with inBuf := t.inBuf, inAddr := BitVec.ofNat 32 ((s.inAddr.toNat + 1) % 2 ^ 32) }
      ∧ ∀ a : Nat, t.inByte a
          = if a = s.inAddr.toNat ∧ s.inAddr.toNat < s.capIn.toNat then v.extractLsb' 0 8
            else s.inByte a

/-- The writes that start an operation, with BUSY = 0: a CMD word becomes pending, a VG_RESP value is
stored and the verify step becomes pending; in FAILED only the words NOP and CLEAR do so, and every
other CMD write and every VG_RESP write sets DROP and nothing else (44_bus_access.md R293, R294,
R302). -/
def Obligations.CmdAndVgRespWritesStartOperations : Prop :=
  ∀ (v : Word) (s : State), s.busy = false →
    (s.phase ≠ .failed → exec (.wrVgResp v) s = .next { s with vgResp := v, pend := .vstep })
    ∧ (s.phase = .failed → exec (.wrVgResp v) s = .next { s with drop := true })
    ∧ (s.phase ≠ .failed ∨ v = 0x00000000#32 ∨ v = 0x00000001#32 →
      exec (.wrCmd v) s = .next { s with pend := .cmd v })
    ∧ (s.phase = .failed ∧ v ≠ 0x00000000#32 ∧ v ≠ 0x00000001#32 →
      exec (.wrCmd v) s = .next { s with drop := true })

/-- A write of any listed register while BUSY = 1 changes nothing but DROP (70_reset_and_hazards.md
R390). -/
def Obligations.WritesWhileBusyOnlySetDrop : Prop :=
  ∀ (r : Reg) (v : Word) (s : State), s.busy = true →
    exec (r.writeInstr v) s = .next { s with drop := true }

/-! ### Records -/

/-- A data record inside the profile's capacity: its payload goes to IMG[A, A + L) at the absolute
address A = ADDR16 + EXT * 2^16, every other byte stays; the bounds widen, or are taken from it when it
is the first with data, and an empty record leaves them; the record is counted and the cursor passes
it; nothing else changes (40_hex_decoder.md R156, R166, 41_image_builder.md R181, R184 to R186). -/
def Obligations.DataRecordWritesImageAndBounds : Prop :=
  ∀ (r : HexRecord) (s : State) (a0 : Nat), s.imgBuf.wf = true →
    a0 = r.addr.toNat + s.ext.toNat * 2 ^ 16 → a0 < s.maxAddr.toNat →
    a0 + r.payload.length ≤ s.maxAddr.toNat →
    ∃ t, exec (.data r) s = .next t
      ∧ (∀ a : Nat, t.imgByte a
          = if a0 ≤ a ∧ a < a0 + r.payload.length then r.payload.getD (a - a0) 0 else s.imgByte a)
      ∧ (r.payload = [] → t.startAddr = s.startAddr ∧ t.endAddr = s.endAddr
          ∧ t.haveData = s.haveData)
      ∧ (r.payload ≠ [] → t.haveData = true
          ∧ (s.haveData = false → t.startAddr.toNat = a0
            ∧ t.endAddr.toNat = a0 + r.payload.length)
          ∧ (s.haveData = true → t.startAddr.toNat = min s.startAddr.toNat a0
            ∧ t.endAddr.toNat = max s.endAddr.toNat (a0 + r.payload.length)))
      ∧ t = { s with imgBuf := t.imgBuf, startAddr := t.startAddr, endAddr := t.endAddr,
                     haveData := t.haveData, recCount := s.recCount + 1,
                     cur := s.cur + BitVec.ofNat 32 r.size }

/-- A data record outside the profile's capacity writes nothing and records E_ADDR_RANGE (its address is
not below MAXADDR) or E_SPAN_RANGE (its last byte is not), with the record's start, whatever its length
(41_image_builder.md R181 to R183, R186, 60_exceptions.md R350). Inside DECODE the phase is IDLE
(60_exceptions.md R342); that a record run alone records as ERRPHASE the phase it is run in, and ends the
engine step (PEND becomes NONE), is the model's choice (log 9). -/
def Obligations.DataRecordOutOfRangeIsRefused : Prop :=
  ∀ (r : HexRecord) (s : State) (a0 : Nat), a0 = r.addr.toNat + s.ext.toNat * 2 ^ 16 →
    (s.maxAddr.toNat ≤ a0 → exec (.data r) s = .next { s with
        errPhase := s.phase, errCode := .addrRange, errInfo := s.cur, phase := .failed,
        pend := .none })
    ∧ (a0 < s.maxAddr.toNat → s.maxAddr.toNat < a0 + r.payload.length →
      exec (.data r) s = .next { s with
        errPhase := s.phase, errCode := .spanRange, errInfo := s.cur, phase := .failed,
        pend := .none })

/-- An EOF record, whatever its length, sets EOF_SEEN; the extended-address record that CTRL.USES_CRC
selects, with two payload bytes, sets EXT to the value they spell, first byte high (EXT04), or to that
value shifted right by 12 (EXT02). Each is counted and passed, and nothing else changes
(40_hex_decoder.md R158, R161, R162, 30_encoding.md R126). -/
def Obligations.EofAndExtendedAddressRecords : Prop :=
  (∀ (r : HexRecord) (s : State), exec (.eof r) s = .next { s with
    eofSeen := true, recCount := s.recCount + 1, cur := s.cur + BitVec.ofNat 32 r.size })
  ∧ ∀ (r : HexRecord) (s : State) (d0 d1 : Byte), r.payload = [d0, d1] →
    (s.usesCrc = false → exec (.ext04 r) s = .next { s with
      ext := BitVec.ofNat 16 (d0.toNat * 256 + d1.toNat)
      recCount := s.recCount + 1, cur := s.cur + BitVec.ofNat 32 r.size })
    ∧ (s.usesCrc = true → exec (.ext02 r) s = .next { s with
      ext := BitVec.ofNat 16 ((d0.toNat * 256 + d1.toNat) / 2 ^ 12)
      recCount := s.recCount + 1, cur := s.cur + BitVec.ofNat 32 r.size })

/-- The refused records: a reserved type, an extended-address type that CTRL.USES_CRC does not select, an
extended-address record whose length is not 2. Each records E_REC_TYPE with the record's start and
writes nothing else (40_hex_decoder.md R163 to R165, 60_exceptions.md R350). Inside DECODE the phase is
IDLE (60_exceptions.md R342); that a record run alone records as ERRPHASE the phase it is run in, and ends
the engine step (PEND becomes NONE), is the model's choice (log 9). -/
def Obligations.RefusedRecordsRecordRecType : Prop :=
  ∀ (r : HexRecord) (ty : Byte) (s t : State),
    t = { s with errPhase := s.phase, errCode := .recType, errInfo := s.cur, phase := .failed,
                 pend := .none } →
    exec (.reservedType ty r) s = .next t
    ∧ exec (.extNotSelected ty r) s = .next t
    ∧ (s.usesCrc = true ∨ r.payload.length ≠ 2 → exec (.ext04 r) s = .next t)
    ∧ (s.usesCrc = false ∨ r.payload.length ≠ 2 → exec (.ext02 r) s = .next t)

/-- Two data records that both fit under one EXT, with spans that do not overlap (the empty span of a
record without payload overlaps nothing, wherever its address lies), may change places: the whole state
after them is the same (41_image_builder.md R189). -/
def Obligations.DisjointDataRecordsCommute : Prop :=
  ∀ (r1 r2 : HexRecord) (s s1 s2 s12 s21 : State) (a1 a2 : Nat), s.imgBuf.wf = true →
    s.phase ≠ .failed →
    a1 = r1.addr.toNat + s.ext.toNat * 2 ^ 16 → a2 = r2.addr.toNat + s.ext.toNat * 2 ^ 16 →
    a1 < s.maxAddr.toNat → a1 + r1.payload.length ≤ s.maxAddr.toNat →
    a2 < s.maxAddr.toNat → a2 + r2.payload.length ≤ s.maxAddr.toNat →
    r1.payload = [] ∨ r2.payload = [] ∨ a1 + r1.payload.length ≤ a2
      ∨ a2 + r2.payload.length ≤ a1 →
    exec (.data r1) s = .next s1 → exec (.data r2) s1 = .next s12 →
    exec (.data r2) s = .next s2 → exec (.data r1) s2 = .next s21 →
    s12 = s21

/-! ### DECODE -/

/-- DECODE of an empty input in IDLE: an image of fill bytes, no bounds, no record, phase DECODED; nothing
else changes (43_commands.md R260, 41_image_builder.md R187). -/
def Obligations.DecodeOfEmptyInput : Prop :=
  ∀ s : State, s.phase = .idle → s.inLen = 0 →
    ∃ t, exec .decode s = .next t
      ∧ (∀ a, t.imgByte a = 0xFF#8)
      ∧ t = { s with imgBuf := t.imgBuf, startAddr := 0, endAddr := 0, haveData := false, secCount := 0,
                     imgCsum := 0, imgCrc := 0, ext := 0, recCount := 0, cur := 0, eofSeen := false,
                     phase := .decoded, pend := .none }

/-- DECODE of an input that is a sequence of data records, so with EXT = 0 throughout, each inside the
profile's capacity: every byte of the image is the one the last record that covers it wrote, or the fill value; all records are counted and
the cursor is at the end (43_commands.md R260, R282, 40_hex_decoder.md R140, R142, 41_image_builder.md
R180, R184). -/
def Obligations.DecodeOfDataRecordsBuildsTheImage : Prop :=
  ∀ (s : State) (rs : List HexRecord), s.phase = .idle →
    s.inText = rs.flatMap (encodeRecord 0x00) →
    (∀ r ∈ rs, r.wellFormed = true ∧ r.addr.toNat < s.maxAddr.toNat
      ∧ r.addr.toNat + r.payload.length ≤ s.maxAddr.toNat) →
    ∃ t, exec .decode s = .next t ∧ t.phase = .decoded ∧ t.pend = .none
      ∧ t.recCount.toNat = rs.length ∧ t.cur = s.inLen ∧ t.ext = 0 ∧ t.eofSeen = false
      ∧ ∀ a : Nat, t.imgByte a = rs.foldl (fun b r =>
          if r.addr.toNat ≤ a ∧ a < r.addr.toNat + r.payload.length
            then r.payload.getD (a - r.addr.toNat) 0 else b) 0xFF#8

/-- With CTRL.EOF_STOP = 1 an EOF record ends decoding: whatever follows its terminator in IN is ignored
(40_hex_decoder.md R158). -/
def Obligations.EofRecordStopsDecoding : Prop :=
  ∀ (s : State) (r : HexRecord) (rest : List Byte), s.phase = .idle → s.eofStop = true →
    r.wellFormed = true → s.inText = encodeRecord 0x01 r ++ rest →
    (r.term = .none → rest.head? ≠ some 0x0D#8 ∧ rest.head? ≠ some 0x0A#8) →
    (r.term = .cr → rest.head? ≠ some 0x0A#8) →
    ∃ t, exec .decode s = .next t ∧ t.phase = .decoded ∧ t.pend = .none ∧ t.eofSeen = true
      ∧ t.recCount = 1 ∧ t.cur = BitVec.ofNat 32 r.size ∧ t.startAddr = 0 ∧ t.endAddr = 0
      ∧ ∀ a, t.imgByte a = 0xFF#8

/-- After a DECODE without error the image is 0xFF outside [START_ADDR, END_ADDR) (41_image_builder.md
R188), and the bounds are in order and inside MAXADDR (10_state.md R51). -/
def Obligations.DecodedImageIsFillOutsideItsBounds : Prop :=
  ∀ s t : State, s.phase = .idle → exec .decode s = .next t → t.phase = .decoded →
    (∀ a : Nat, a < t.startAddr.toNat ∨ t.endAddr.toNat ≤ a → t.imgByte a = 0xFF#8)
      ∧ t.startAddr.toNat ≤ t.endAddr.toNat
      ∧ t.endAddr.toNat ≤ t.maxAddr.toNat
      ∧ (t.haveData = true ↔ t.endAddr ≠ 0)

/-- What a failing DECODE records: one of its five errors, in phase IDLE; E_HEX_TRUNC with IN_LEN,
E_HEX_CHAR with the index, not before CUR, of a byte of the input that is no hex digit, the others with
CUR; CUR is inside the input (60_exceptions.md R340, R342, 40_hex_decoder.md R143, R167). -/
def Obligations.FailingDecodeLocatesItsError : Prop :=
  ∀ s t : State, s.phase = .idle → exec .decode s = .next t → t.phase = .failed →
    t.errPhase = .idle
      ∧ (t.errCode = .hexChar ∨ t.errCode = .hexTrunc ∨ t.errCode = .recType
        ∨ t.errCode = .addrRange ∨ t.errCode = .spanRange)
      ∧ t.cur.toNat < s.inLen.toNat
      ∧ (t.errCode = .hexTrunc → t.errInfo = s.inLen)
      ∧ (t.errCode = .hexChar → t.cur.toNat ≤ t.errInfo.toNat ∧ t.errInfo.toNat < s.inLen.toNat
        ∧ hexVal (s.inByte t.errInfo.toNat) = none)
      ∧ (t.errCode = .recType ∨ t.errCode = .addrRange ∨ t.errCode = .spanRange →
        t.errInfo = t.cur)

/-- What DECODE writes: the image, its bounds, the decoder registers, the sector count and the image sums
(to 0), the phase or the error record, PEND. Everything else stays (43_commands.md R260). -/
def Obligations.DecodeFrame : Prop :=
  ∀ s t : State, s.phase = .idle → exec .decode s = .next t →
    t = { s with imgBuf := t.imgBuf, startAddr := t.startAddr, endAddr := t.endAddr,
                 haveData := t.haveData, secCount := 0, imgCsum := 0, imgCrc := 0, ext := t.ext,
                 recCount := t.recCount, cur := t.cur, eofSeen := t.eofSeen, phase := t.phase,
                 errCode := t.errCode, errPhase := t.errPhase, errInfo := t.errInfo, pend := .none }
      ∧ (t.phase = .decoded ∨ t.phase = .failed)
      ∧ (t.phase = .decoded →
        t.errCode = s.errCode ∧ t.errPhase = s.errPhase ∧ t.errInfo = s.errInfo)

/-- Two states with the same input text and the same profile decode alike: the same image, bounds, decoder
registers, phase and error record, whatever the rest of the state holds (43_commands.md R281,
20_memory.md R92). -/
def Obligations.DecodeDependsOnInputAndProfileOnly : Prop :=
  ∀ s s' t t' : State, s.phase = .idle → s'.phase = .idle → s.inText = s'.inText →
    s.ctrl = s'.ctrl → s.maxAddr = s'.maxAddr →
    exec .decode s = .next t → exec .decode s' = .next t' →
    t.imgBuf = t'.imgBuf ∧ t.startAddr = t'.startAddr ∧ t.endAddr = t'.endAddr
      ∧ t.haveData = t'.haveData ∧ t.ext = t'.ext ∧ t.recCount = t'.recCount ∧ t.cur = t'.cur
      ∧ t.eofSeen = t'.eofSeen ∧ t.phase = t'.phase
      ∧ (t.phase = .failed → t.errCode = t'.errCode ∧ t.errInfo = t'.errInfo)

/-! ### BUILD -/

/-- BUILD in DECODED with a sector size and a table that is large enough: SEC_COUNT is
ceil(END_ADDR / SECSIZE), each entry has the start, end, length, checksum and CRC of its part of the
image, the other entries and everything else stay (43_commands.md R265, 41_image_builder.md R194 to
R197, R199). -/
def Obligations.BuildWritesTheSectorTable : Prop :=
  ∀ (s : State) (n : Nat), s.phase = .decoded → s.secSize ≠ 0 →
    n = ceilDiv s.endAddr.toNat s.secSize.toNat → n ≤ s.capSec.toNat →
    ∃ t, exec .build s = .next t ∧ t.phase = .built ∧ t.secCount.toNat = n
      ∧ (∀ i : Nat, i < n → ∀ lo hi : Nat, lo = i * s.secSize.toNat →
          hi = min ((i + 1) * s.secSize.toNat) s.endAddr.toNat →
          (t.sector i).startAddr.toNat = lo ∧ (t.sector i).endAddr.toNat = hi
          ∧ (t.sector i).len.toNat = hi - lo
          ∧ (t.sector i).csum = sum32 (s.imgRange lo (hi - lo))
          ∧ (t.sector i).crc
              = if s.usesCrc = true then crc32 (s.imgRange lo (hi - lo)) else 0)
      ∧ (∀ i : Nat, n ≤ i → t.sec[i]? = s.sec[i]?)
      ∧ t = { s with sec := t.sec, secCount := t.secCount, imgCsum := t.imgCsum,
                     imgCrc := t.imgCrc, phase := .built, pend := .none }

/-- The sectors after BUILD follow one another without gap or overlap from address 0 to END_ADDR; each has
SECSIZE bytes but the last, which has at least one (41_image_builder.md R195). -/
def Obligations.SectorsAreContiguous : Prop :=
  ∀ s : State, SectorTableSound s → s.phase.hasSectors →
    (∀ i : Nat, i + 1 < s.secCount.toNat →
      (s.sector i).endAddr = (s.sector (i + 1)).startAddr ∧ (s.sector i).len = s.secSize)
    ∧ (0 < s.secCount.toNat → (s.sector 0).startAddr = 0
      ∧ (s.sector (s.secCount.toNat - 1)).endAddr = s.endAddr
      ∧ 1 ≤ (s.sector (s.secCount.toNat - 1)).len.toNat
      ∧ (s.sector (s.secCount.toNat - 1)).len.toNat ≤ s.secSize.toNat
      ∧ (s.sector (s.secCount.toNat - 1)).len
          = s.endAddr - (s.sector (s.secCount.toNat - 1)).startAddr)

/-- BUILD's two errors, before anything is written: SECSIZE = 0, and more sectors than the table holds
(41_image_builder.md R193, R194, 60_exceptions.md R350). -/
def Obligations.BuildErrors : Prop :=
  ∀ s : State, s.phase = .decoded →
    (s.secSize = 0 → exec .build s = .next { s with
        errPhase := .decoded, errCode := .config, errInfo := 0, phase := .failed, pend := .none })
    ∧ (s.secSize ≠ 0 → s.capSec.toNat < ceilDiv s.endAddr.toNat s.secSize.toNat →
      exec .build s = .next { s with
        errPhase := .decoded, errCode := .sectorOvf
        errInfo := BitVec.ofNat 32 (ceilDiv s.endAddr.toNat s.secSize.toNat)
        phase := .failed, pend := .none })

/-- After BUILD, IMG_CSUM is the checksum of the whole of IMG[0, END_ADDR); IMG_CRC is the sum of the
sectors' CRCs, and 0 in the checksum variant (41_image_builder.md R198). -/
def Obligations.ImageChecksumIsSumOfImage : Prop :=
  ∀ s t : State, s.phase = .decoded → exec .build s = .next t → t.phase = .built →
    t.imgCsum = sum32 (t.imgRange 0 t.endAddr.toNat)
      ∧ t.imgCrc = sumWords (t.sectors.map Sector.crc)
      ∧ (s.usesCrc = false → t.imgCrc = 0)

/-- Sum32 and CRC32: the empty sequence, one byte (for Sum32 every byte), sequences of other bytes
(95_test_vectors.md 1.1 and 2.1), and the incremental form (41_image_builder.md R190 to R192). -/
def Obligations.ChecksumsAreIncremental : Prop :=
  sum32 [] = 0 ∧ (∀ b : Byte, sum32 [b] = b.setWidth 32)
    ∧ crc32 [] = 0xFFFFFFFF#32 ∧ crc32 [0x00] = 0x4E08BFB4#32 ∧ crc32 [0x01] = 0x4AC9A203#32
    ∧ crc32 [0xDE, 0xAD, 0xBE, 0xEF] = 0x81DA1A18#32
    ∧ (∀ b b' : List Byte, sum32 (b ++ b') = sum32 b + sum32 b')
    ∧ (∀ b b' : List Byte, crc32 (b ++ b') = crcFrom (crc32 b) b')

/-! ### VERIFY and the verify step -/

/-- Groups() covers every sector once, in order, with non-empty groups; with contiguous sectors, each at
most VWIN long, every group's span is at most VWIN, and a group that another follows is maximal
(42_verifier.md R222, R223). -/
def Obligations.GroupsPartitionTheSectors : Prop :=
  ∀ (vwin : Word) (tbl : List Sector),
    (∀ (i : Nat) (e : Sector), tbl[i]? = some e →
      e.endAddr.toNat ≤ vwin.toNat + e.startAddr.toNat) →
    (groupsOf vwin tbl).flatMap (fun g => List.range' g.first (g.last + 1 - g.first))
        = List.range tbl.length
      ∧ (∀ g ∈ groupsOf vwin tbl, ∃ f l : Sector, g.first ≤ g.last ∧ tbl[g.first]? = some f
          ∧ tbl[g.last]? = some l ∧ l.endAddr.toNat ≤ vwin.toNat + f.startAddr.toNat)
      ∧ (∀ (k : Nat) (g g' : Group), (groupsOf vwin tbl)[k]? = some g →
          (groupsOf vwin tbl)[k + 1]? = some g' →
          ∃ f e : Sector, tbl[g.first]? = some f ∧ tbl[g.last + 1]? = some e
            ∧ vwin.toNat + f.startAddr.toNat < e.endAddr.toNat)

/-- In a state whose sector table is sound (SectorTableSound) and valid, the expected values of all groups add up to IMG_CSUM in the
checksum variant and to IMG_CRC in the CRC variant (42_verifier.md R224). -/
def Obligations.GroupSumsAddUpToTheImageSum : Prop :=
  ∀ s : State, SectorTableSound s → s.phase.hasSectors →
    sumWords (s.groups.map s.expect) = if s.usesCrc = true then s.imgCrc else s.imgCsum

/-- VERIFY in BUILT or PASSED: E_CONFIG when VWIN < SECSIZE; with no sector, PASSED at once with the
group registers 0; otherwise VG_TOTAL groups, the first one presented, phase VERIFYING. VG_RESP and
everything else stay (43_commands.md R268, 42_verifier.md R221, R225, R227). -/
def Obligations.VerifyFormsGroupsAndPresentsTheFirst : Prop :=
  ∀ s : State, s.phase = .built ∨ s.phase = .passed →
    (s.vwin.toNat < s.secSize.toNat → exec .verify s = .next { s with
        errPhase := s.phase, errCode := .config, errInfo := 0, phase := .failed, pend := .none })
    ∧ (s.secSize.toNat ≤ s.vwin.toNat → s.groups = [] → exec .verify s = .next { s with
        vgTotal := 0, vgIdx := 0, vgFirst := 0, vgLast := 0, vgStart := 0, vgLen := 0,
        vgExpect := 0, phase := .passed, pend := .none })
    ∧ (∀ (g : Group) (gs : List Group), s.secSize.toNat ≤ s.vwin.toNat → s.groups = g :: gs →
        exec .verify s = .next { s with
          vgTotal := BitVec.ofNat 32 (gs.length + 1), vgIdx := 0,
          vgFirst := BitVec.ofNat 32 g.first, vgLast := BitVec.ofNat 32 g.last,
          vgStart := (s.sector g.first).startAddr,
          vgLen := (s.sector g.last).endAddr - (s.sector g.first).startAddr,
          vgExpect := sumWords ((List.range (g.last + 1 - g.first)).map (fun j =>
            if s.usesCrc = true then (s.sector (g.first + j)).crc
            else (s.sector (g.first + j)).csum)),
          phase := .verifying, pend := .none })

/-- The verify step in VERIFYING: a value that differs in any bit is E_VERIFY_MISMATCH with VG_IDX and
the group registers kept; a match on the last group is PASSED with VG_IDX = VG_TOTAL; a match on
another presents the next. In IDLE, DECODED, BUILT and PASSED it is E_SEQUENCE with ERRINFO 0x100
(42_verifier.md R227, R230 to R232, R234). -/
def Obligations.VerifyStepComparesAndAdvances : Prop :=
  (∀ s : State, s.phase = .idle ∨ s.phase = .decoded ∨ s.phase = .built ∨ s.phase = .passed →
    execVStep s = .next { s with
      errPhase := s.phase, errCode := .sequence, errInfo := 0x100#32, phase := .failed,
      pend := .none })
  ∧ ∀ s : State, s.phase = .verifying →
    (s.vgResp ≠ s.vgExpect → execVStep s = .next { s with
        errPhase := .verifying, errCode := .verifyMismatch, errInfo := s.vgIdx, phase := .failed,
        pend := .none })
    ∧ (s.vgResp = s.vgExpect → s.vgIdx.toNat + 1 = s.vgTotal.toNat → execVStep s = .next { s with
        vgIdx := s.vgTotal, phase := .passed, pend := .none })
    ∧ (∀ g : Group, s.vgResp = s.vgExpect → s.vgIdx.toNat + 1 ≠ s.vgTotal.toNat →
        s.groups[s.vgIdx.toNat + 1]? = some g →
        ∃ t, execVStep s = .next t ∧ ShowsGroup t (s.vgIdx.toNat + 1) g
          ∧ t = { s with vgIdx := t.vgIdx, vgFirst := t.vgFirst, vgLast := t.vgLast,
                         vgStart := t.vgStart, vgLen := t.vgLen, vgExpect := t.vgExpect,
                         pend := .none })

/-! ### The other commands -/

/-- NOP and CLEAR in every phase: NOP only ends the engine step; what CLEAR writes, and that everything
else stays (43_commands.md R253, R256). -/
def Obligations.NopAndClearInEveryPhase : Prop :=
  ∀ s : State, exec .nop s = .next { s with pend := .none } ∧ exec .clear s = .next { s with
    phase := .idle, errCode := .none, errPhase := .idle, errInfo := 0, drop := false,
    eofSeen := false, haveData := false, startAddr := 0, endAddr := 0, imgCsum := 0, imgCrc := 0,
    secCount := 0, ext := 0, recCount := 0, cur := 0, vgTotal := 0, vgIdx := 0, vgFirst := 0,
    vgLast := 0, vgStart := 0, vgLen := 0, vgExpect := 0, vgResp := 0, rangeCsum := 0,
    rangeCrc := 0, pend := .none }

/-- RANGE outside IDLE and FAILED: the checksum and the CRC of IMG[RANGE_START, RANGE_START + RANGE_LEN),
whatever USES_CRC holds; E_RANGE, with no result written, when the range passes BUF_CAP, the sum taken
unbounded (43_commands.md R270). -/
def Obligations.RangeComputesChecksumAndCrc : Prop :=
  ∀ s : State, s.phase.hasImage →
    (s.rangeStart.toNat + s.rangeLen.toNat ≤ s.capBuf.toNat → exec .range s = .next { s with
        rangeCsum := sum32 (s.imgRange s.rangeStart.toNat s.rangeLen.toNat)
        rangeCrc := crc32 (s.imgRange s.rangeStart.toNat s.rangeLen.toNat)
        pend := .none })
    ∧ (s.capBuf.toNat < s.rangeStart.toNat + s.rangeLen.toNat → exec .range s = .next { s with
        errPhase := s.phase, errCode := .range, errInfo := s.rangeStart, phase := .failed,
        pend := .none })

/-- An illegal command word (OP above 5, or bits 31:4 not 0) records E_ILLEGAL_CMD with the whole word
and writes nothing else (43_commands.md R275, 30_encoding.md R112). FAILED is among the phases: the bus
lets no such word reach the engine there (44_bus_access.md R294), and that the engine would record it is
the model's reading of R252 (43_commands.md, log 10). -/
def Obligations.IllegalWordsRecordIllegalCmd : Prop :=
  ∀ (w : Word) (s : State), 5 < w.toNat →
    ((∃ lo, decodeCmd w = .illegalOp67 lo) ∨ (∃ lo, decodeCmd w = .illegalOp8F lo)
      ∨ decodeCmd w = .illegalRsv w)
    ∧ exec (decodeCmd w) s = .next { s with
        errPhase := s.phase, errCode := .illegalCmd, errInfo := w, phase := .failed,
        pend := .none }

/-- A legal command word outside its phases records E_SEQUENCE with ERRINFO = OP and writes nothing else
(43_commands.md R250, R252): DECODE outside IDLE, BUILD outside DECODED, VERIFY outside BUILT and
PASSED, RANGE in IDLE. FAILED is among the phases refused: the bus lets none of these words reach the
engine there (R294), and that the engine would refuse it is the model's reading of R252 (log 10). -/
def Obligations.CommandsOutOfPhaseRecordSequence : Prop :=
  ∀ (w : Word) (s : State),
    (w = 2#32 ∧ s.phase ≠ .idle) ∨ (w = 3#32 ∧ s.phase ≠ .decoded)
      ∨ (w = 4#32 ∧ s.phase ≠ .built ∧ s.phase ≠ .passed)
      ∨ (w = 5#32 ∧ ¬ s.phase.hasImage) →
    exec (decodeCmd w) s = .next { s with
      errPhase := s.phase, errCode := .sequence, errInfo := w, phase := .failed, pend := .none }

/-! ### The whole machine -/

/-- Reset, whatever the state: every register and internal element at its reset value, the pending
operation discarded, IN, IMG and SEC without any known value (70_reset_and_hazards.md R380 to R383).
The parameters stay; that the schedule, the last word read and the draw counters stay is the model's
choice (log 15). -/
def Obligations.ResetPutsEveryRegisterInItsResetValue : Prop :=
  ∀ (s : State) (rest : List Event), s.schedule = .reset :: rest →
    step s = .next {
      ctrl := 0x2#2, maxAddr := 0, secSize := 0, vwin := 0, eofSeen := false, drop := false,
      phase := .idle, errCode := .none, errPhase := .idle, errInfo := 0, inAddr := 0, inLen := 0,
      imgAddr := 0, startAddr := 0, endAddr := 0, imgCsum := 0, imgCrc := 0, secCount := 0, ext := 0,
      recCount := 0, cur := 0, secIdx := 0, vgTotal := 0, vgIdx := 0, vgFirst := 0, vgLast := 0,
      vgStart := 0, vgLen := 0, vgExpect := 0, vgResp := 0, rangeStart := 0, rangeLen := 0,
      rangeCsum := 0, rangeCrc := 0, capBuf := s.capBuf, capIn := s.capIn, capSec := s.capSec,
      inBuf := { fill := none, cells := [] }, imgBuf := { fill := none, cells := [] }, sec := [],
      pend := .none, haveData := false, rdata := s.rdata, schedule := rest, draws := s.draws,
      resets := s.resets + 1 }

/-- The state after reset is legal, with every capacity in 1 to 2^32 - 1 (70_reset_and_hazards.md R381,
00_scope.md R9). -/
def Obligations.ResetStateIsLegal : Prop := Legal State.reset

/-- Every step keeps the buffers canonical and the capacities above what they bound (10_state.md R33, R47,
41_image_builder.md R194, 20_memory.md R82). -/
def Obligations.StepKeepsBuffersAndCapacities : Prop :=
  ∀ s t : State, Legal s → step s = .next t → BuffersCanonical t ∧ CapacitiesBound t

/-- Every step keeps the image's bounds in order inside MAXADDR, and once an image is decoded none of its
bytes is unspecified (10_state.md R51, R69, 70_reset_and_hazards.md R382). -/
def Obligations.StepKeepsImageBounded : Prop :=
  ∀ s t : State, Legal s → step s = .next t → ImageBounded t ∧ ImageFilled t

/-- Every step keeps the error record sound: empty outside FAILED; in FAILED an error recorded in another
phase, with nothing but NOP or CLEAR pending (10_state.md R39, R40, R43, 60_exceptions.md R346,
R353). -/
def Obligations.StepKeepsErrorRecordSound : Prop :=
  ∀ s t : State, Legal s → step s = .next t → ErrorRecordSound t

/-- Every step keeps the sector table what BUILD makes of the image, and the verify registers the current
group of that table (10_state.md R54, R59, R60, R67). -/
def Obligations.StepKeepsSectorsAndGroupsSound : Prop :=
  ∀ s t : State, Legal s → step s = .next t → SectorTableSound t ∧ VerifyGroupSound t

/-- No run of the block from a legal state ever stops, however the host's transactions, the engine's turns
and resets are ordered; it stays among the legal states (00_scope.md R19, 60_exceptions.md R351). -/
def Obligations.NoRunFromALegalStateStops : Prop :=
  ∀ (k : Nat) (s : State), Legal s → ∃ t : State, Host.Core.run Sys2Proof.core k s = .next t ∧ Legal t

/-- The phase changes only by a transition of R251's list, with the event that makes it and that event's
condition: VG_TOTAL after VERIFY, a match on the last group for a verify step that passes, a recorded
error for FAILED (43_commands.md R251). -/
def Obligations.PhaseChangesOnlyAsListed : Prop :=
  ∀ s t : State, step s = .next t → t.phase ≠ s.phase →
    ((fetch s).1 = .instr .decode ∧ s.phase = .idle ∧ t.phase = .decoded)
    ∨ ((fetch s).1 = .instr .build ∧ s.phase = .decoded ∧ t.phase = .built)
    ∨ ((fetch s).1 = .instr .verify ∧ (s.phase = .built ∨ s.phase = .passed)
        ∧ t.phase = .verifying ∧ t.vgTotal ≠ 0)
    ∨ ((fetch s).1 = .instr .verify ∧ s.phase = .built ∧ t.phase = .passed ∧ t.vgTotal = 0)
    ∨ ((fetch s).1 = .verifyStep ∧ s.phase = .verifying ∧ t.phase = .passed
        ∧ s.vgResp = s.vgExpect ∧ s.vgIdx.toNat + 1 = s.vgTotal.toNat ∧ t.vgIdx = t.vgTotal)
    ∨ (s.busy = true ∧ s.phase ≠ .failed ∧ t.phase = .failed ∧ t.errPhase = s.phase
        ∧ t.errCode ≠ .none)
    ∨ ((fetch s).1 = .instr .clear ∧ t.phase = .idle)
    ∨ ((fetch s).1 = .reset ∧ t.phase = .idle)

/-- From FAILED, CLEAR and reset go to IDLE and empty ERRCODE, ERRINFO and ERRPHASE; every other step
stays in FAILED and keeps them (60_exceptions.md R346, R352, 44_bus_access.md R294). -/
def Obligations.FailedIsLeftOnlyByClearOrReset : Prop :=
  ∀ s t : State, Legal s → s.phase = .failed → step s = .next t →
    ((fetch s).1 = .instr .clear ∨ (fetch s).1 = .reset →
      t.phase = .idle ∧ t.errCode = .none ∧ t.errInfo = 0 ∧ t.errPhase = .idle)
    ∧ (¬ ((fetch s).1 = .instr .clear ∨ (fetch s).1 = .reset) →
      t.phase = .failed ∧ t.errCode = s.errCode ∧ t.errInfo = s.errInfo ∧ t.errPhase = s.errPhase)

/-- The profile registers change only by their own writes in IDLE with BUSY = 0, or by reset
(70_reset_and_hazards.md R392, 10_state.md R36). -/
def Obligations.ProfileIsLockedOutsideIdle : Prop :=
  ∀ s t : State, step s = .next t →
    (t.ctrl = s.ctrl ∧ t.maxAddr = s.maxAddr ∧ t.secSize = s.secSize ∧ t.vwin = s.vwin)
    ∨ (fetch s).1 = .reset
    ∨ (s.phase = .idle ∧ s.busy = false ∧ ∃ v, (fetch s).1 = .instr (.wrCtrl v)
        ∨ (fetch s).1 = .instr (.wrMaxAddr v) ∨ (fetch s).1 = .instr (.wrSecSize v)
        ∨ (fetch s).1 = .instr (.wrVwin v))

/-- IN changes only by a host write of IN_DATA with BUSY = 0 or by reset, IMG only by DECODE in IDLE or
by reset (10_state.md R49, R65, R66, 20_memory.md R92, 41_image_builder.md R199). -/
def Obligations.BuffersChangeOnlyByTheirWriters : Prop :=
  ∀ s t : State, step s = .next t →
    (t.inBuf ≠ s.inBuf → (fetch s).1 = .reset
      ∨ (s.busy = false ∧ ∃ v, (fetch s).1 = .instr (.wrInData v)))
    ∧ (t.imgBuf ≠ s.imgBuf → (fetch s).1 = .reset
      ∨ (s.phase = .idle ∧ (fetch s).1 = .instr .decode))

/-- DROP is sticky: only a STATUS write with bit 3 = 1 accepted with BUSY = 0, CLEAR and reset clear it.
BUSY rises only by a CMD or VG_RESP write, and the engine's turn always ends the operation (10_state.md
R41, R42, 00_scope.md R18). That the engine also has the turn when no event is left is the model's choice
(log 1). -/
def Obligations.DropAndBusyChangeOnlyAsListed : Prop :=
  (∀ s t : State, step s = .next t → s.drop = true → t.drop = false →
    (s.busy = false ∧ ∃ v : Word, v.getLsbD 3 = true ∧ (fetch s).1 = .instr (.wrStatus v))
    ∨ (fetch s).1 = .instr .clear ∨ (fetch s).1 = .reset)
  ∧ (∀ s t : State, step s = .next t → s.busy = false → t.busy = true →
      ∃ v, (fetch s).1 = .instr (.wrCmd v) ∨ (fetch s).1 = .instr (.wrVgResp v))
  ∧ (∀ s t : State, step s = .next t → (s.schedule = [] ∨ ∃ rest, s.schedule = .engine :: rest) →
      t.busy = false)
end

