-- ==== Sys2Proof/Laws/Memory.lean ====
section
/-! SUPPORT. What the buffer operations do: reads after writes, and the canonical form kept. -/

namespace Sys2Proof.Machine

/-- Raising the lower bound of a canonical list to one it also meets. -/
theorem cellsFrom_none_of_some {fill : Option Byte} {l : Nat} {cs : List Host.Cell}
    (h : cellsFrom fill (some l) cs = true) : cellsFrom fill none cs = true := by
  cases cs with
  | nil => rfl
  | cons c cs => simp only [cellsFrom, aboveBound, Bool.and_eq_true] at h ⊢; exact ⟨⟨trivial, h.1.2⟩, h.2⟩

/-- A lower bound may be lowered. -/
theorem cellsFrom_mono {fill : Option Byte} {l l' : Nat} {cs : List Host.Cell} (hl : l' ≤ l)
    (h : cellsFrom fill (some l) cs = true) : cellsFrom fill (some l') cs = true := by
  cases cs with
  | nil => rfl
  | cons c cs =>
    simp only [cellsFrom, aboveBound, Bool.and_eq_true, decide_eq_true_eq] at h ⊢
    exact ⟨⟨by omega, h.1.2⟩, h.2⟩

/-- An address at or below the lower bound is not listed. -/
theorem cellAt_of_le {fill : Option Byte} {l a : Nat} {cs : List Host.Cell} (ha : a ≤ l)
    (h : cellsFrom fill (some l) cs = true) : cellAt a cs = none := by
  induction cs generalizing l with
  | nil => rfl
  | cons c cs ih =>
    obtain ⟨b, w⟩ := c
    simp only [cellsFrom, aboveBound, Bool.and_eq_true, decide_eq_true_eq] at h
    have hne : a ≠ b := by omega
    simp only [cellAt, if_neg hne]
    exact ih (by omega) h.2

/-- Listing a byte keeps a lower bound that lies below it. -/
theorem putCell_from {fill : Option Byte} {lo : Option Nat} {a : Nat} {v : Byte}
    {cs : List Host.Cell} (hlo : ∀ l, lo = some l → l < a) (h : cellsFrom fill lo cs = true) :
    cellsFrom fill lo (putCell fill a v cs) = true := by
  have hlo' : aboveBound lo a = true := by
    cases lo with
    | none => rfl
    | some l => simpa [aboveBound] using hlo l rfl
  induction cs generalizing lo with
  | nil =>
    unfold putCell
    split
    · rfl
    · rename_i hv
      simp only [cellsFrom, hlo', Bool.true_and, Bool.and_true, bne_iff_ne, ne_eq]
      exact hv
  | cons c cs ih =>
    obtain ⟨b, w⟩ := c
    have h0 := h
    simp only [cellsFrom, Bool.and_eq_true] at h
    obtain ⟨⟨h1, h2⟩, h3⟩ := h
    unfold putCell
    split
    · rename_i hab
      split
      · exact h0
      · rename_i hv
        have hb : aboveBound (some a) b = true := by simpa [aboveBound] using hab
        simp only [cellsFrom, hlo', hb, h2, h3, Bool.true_and, Bool.and_true, bne_iff_ne, ne_eq]
        exact hv
    · split
      · rename_i hab
        subst hab
        split
        · cases lo with
          | none => exact cellsFrom_none_of_some h3
          | some l => exact cellsFrom_mono (Nat.le_of_lt (hlo l rfl)) h3
        · rename_i hv
          simp only [cellsFrom, hlo', Bool.true_and, Bool.and_eq_true, bne_iff_ne, ne_eq]
          exact ⟨hv, h3⟩
      · rename_i hlt hne
        have hba : b < a := by omega
        simp only [cellsFrom, Bool.and_eq_true]
        exact ⟨⟨h1, h2⟩, ih (by rintro l ⟨⟩; exact hba) h3 (by simpa [aboveBound] using hba)⟩

/-- Reading one cell of a list after listing a byte. -/
theorem cellAt_putCell {fill : Option Byte} {lo : Option Nat} {a a' : Nat} {v : Byte}
    {cs : List Host.Cell} (h : cellsFrom fill lo cs = true) :
    cellAt a' (putCell fill a v cs)
      = if a' = a then (if fill = some v then none else some v) else cellAt a' cs := by
  induction cs generalizing lo with
  | nil => unfold putCell; split <;> simp [cellAt]
  | cons c cs ih =>
    obtain ⟨b, w⟩ := c
    simp only [cellsFrom, Bool.and_eq_true] at h
    obtain ⟨⟨h1, h2⟩, h3⟩ := h
    unfold putCell
    split
    · rename_i hab
      have hb : cellAt a cs = none := cellAt_of_le (Nat.le_of_lt hab) h3
      split
      · by_cases h' : a' = a
        · subst h'; simp [cellAt, hb, Nat.ne_of_lt hab]
        · simp [h']
      · by_cases h' : a' = a <;> simp [cellAt, h']
    · split
      · rename_i hab
        subst hab
        have hb : cellAt a cs = none := cellAt_of_le (Nat.le_refl _) h3
        split
        · by_cases h' : a' = a
          · subst h'; simp [hb]
          · simp [cellAt, h']
        · by_cases h' : a' = a <;> simp [cellAt, h']
      · rename_i hab hne
        have := ih h3
        by_cases h' : a' = b
        · subst h'; simp [cellAt, Ne.symm hne]
        · simp only [cellAt, if_neg h', this]

/-- A write keeps the canonical form. -/
theorem Memory.write_wf {m : Memory} (h : m.wf = true) (a : Nat) (v : Byte) :
    (m.write a v).wf = true :=
  putCell_from (by intro l hl; cases hl) h

/-- A read after a write: the byte written there, the old byte elsewhere. -/
theorem Memory.read?_write {m : Memory} (h : m.wf = true) (a a' : Nat) (v : Byte) :
    (m.write a v).read? a' = if a' = a then some v else m.read? a' := by
  unfold Memory.read? Memory.write Memory.unlisted
  simp only [cellAt_putCell h]
  by_cases h' : a' = a
  · simp only [h', if_true]
    split
    · rename_i hf; split at hf <;> simp_all
    · rename_i hf; split at hf <;> simp_all
  · simp only [if_neg h']

@[simp] theorem Memory.write_fill (m : Memory) (a : Nat) (v : Byte) :
    (m.write a v).fill = m.fill := rfl

/-- A write of several bytes keeps the canonical form. -/
theorem Memory.writeBytes_wf {m : Memory} (h : m.wf = true) (a : Nat) (vs : List Byte) :
    (m.writeBytes a vs).wf = true := by
  induction vs generalizing m a with
  | nil => exact h
  | cons v vs ih => exact ih (m.write_wf h a v) (a + 1)

@[simp] theorem Memory.writeBytes_fill (m : Memory) (a : Nat) (vs : List Byte) :
    (m.writeBytes a vs).fill = m.fill := by
  induction vs generalizing m a with
  | nil => rfl
  | cons v vs ih => exact ih (m.write a v) (a + 1)

/-- A read after a write of several bytes (41_image_builder.md R184). -/
theorem Memory.read?_writeBytes {m : Memory} (h : m.wf = true) (a a' : Nat) (vs : List Byte) :
    (m.writeBytes a vs).read? a'
      = if a ≤ a' ∧ a' < a + vs.length then vs[a' - a]? else m.read? a' := by
  induction vs generalizing m a with
  | nil => simp [Memory.writeBytes]
  | cons v vs ih =>
    rw [Memory.writeBytes, ih (m.write_wf h a v), Memory.read?_write h]
    by_cases h1 : a' = a
    · subst h1; simp
    · by_cases h2 : a + 1 ≤ a' ∧ a' < a + 1 + vs.length
      · have h3 : a ≤ a' ∧ a' < a + (v :: vs).length := by simp only [List.length_cons]; omega
        have h4 : a' - a = (a' - (a + 1)) + 1 := by omega
        rw [if_pos h2, if_pos h3, h4, List.getElem?_cons_succ]
      · have h3 : ¬ (a ≤ a' ∧ a' < a + (v :: vs).length) := by simp only [List.length_cons]; omega
        rw [if_neg h2, if_neg h3, if_neg h1]

@[simp] theorem Memory.filled_wf (v : Byte) : (Memory.filled v).wf = true := rfl

@[simp] theorem Memory.read?_filled (v : Byte) (a : Nat) : (Memory.filled v).read? a = some v := rfl

@[simp] theorem Memory.unspecified_wf : Memory.unspecified.wf = true := rfl

@[simp] theorem Memory.read?_unspecified (a : Nat) : Memory.unspecified.read? a = none := rfl

/-- The buffers are in canonical form after reset. -/
theorem reset_inBuf_wf : State.reset.inBuf.wf = true := rfl

/-- The buffers are in canonical form after reset. -/
theorem reset_imgBuf_wf : State.reset.imgBuf.wf = true := rfl

/-- A buffer whose unlisted bytes have a value has a value everywhere. -/
theorem Memory.read?_isSome {m : Memory} {v : Byte} (h : m.fill = some v) (a : Nat) :
    (m.read? a).isSome = true := by
  unfold Memory.read? Memory.unlisted
  split <;> simp [h]

/-- No listed byte equals the fill. -/
theorem cellAt_ne_fill {fill : Option Byte} {lo : Option Nat} {cs : List Host.Cell} {a : Nat} {v : Byte}
    (h : cellsFrom fill lo cs = true) (hc : cellAt a cs = some v) : fill ≠ some v := by
  induction cs generalizing lo with
  | nil => cases hc
  | cons c cs ih =>
    obtain ⟨b, w⟩ := c
    simp only [cellsFrom, Bool.and_eq_true, bne_iff_ne, ne_eq] at h
    unfold cellAt at hc
    split at hc
    · cases hc; exact h.1.2
    · exact ih h.2 hc

/-- Canonical lists that list the same bytes are equal. -/
theorem cells_ext {fill : Option Byte} {lo : Option Nat} {cs ds : List Host.Cell}
    (hc : cellsFrom fill lo cs = true) (hd : cellsFrom fill lo ds = true)
    (h : ∀ a, cellAt a cs = cellAt a ds) : cs = ds := by
  induction cs generalizing lo ds with
  | nil =>
    cases ds with
    | nil => rfl
    | cons d ds => exact absurd (h d.1) (by simp [cellAt])
  | cons c cs ih =>
    obtain ⟨b, w⟩ := c
    cases ds with
    | nil => exact absurd (h b) (by simp [cellAt])
    | cons d ds =>
      obtain ⟨b', w'⟩ := d
      simp only [cellsFrom, Bool.and_eq_true] at hc hd
      have hb : b = b' := by
        rcases Nat.lt_trichotomy b b' with hlt | he | hgt
        · have := h b
          simp only [cellAt, if_true, if_neg (Nat.ne_of_lt hlt),
            cellAt_of_le (Nat.le_of_lt hlt) hd.2] at this
          cases this
        · exact he
        · have := h b'
          simp only [cellAt, if_true, if_neg (Nat.ne_of_lt hgt),
            cellAt_of_le (Nat.le_of_lt hgt) hc.2] at this
          cases this
      subst hb
      have hw := h b
      simp only [cellAt, if_true, Option.some.injEq] at hw
      subst hw
      rw [ih hc.2 hd.2 fun a => ?_]
      by_cases ha : a = b
      · subst ha
        rw [cellAt_of_le (Nat.le_refl a) hc.2, cellAt_of_le (Nat.le_refl a) hd.2]
      · have := h a
        simpa only [cellAt, if_neg ha] using this

/-- Equal memories are equal data: canonical buffers with one fill that read alike are equal. -/
theorem Memory.ext_read {m n : Memory} (hm : m.wf = true) (hn : n.wf = true)
    (hf : m.fill = n.fill) (h : ∀ a, m.read? a = n.read? a) : m = n := by
  obtain ⟨f, cs⟩ := m
  obtain ⟨f', ds⟩ := n
  obtain rfl : f = f' := hf
  simp only [Memory.mk.injEq, true_and]
  refine cells_ext hm hn fun a => ?_
  have := h a
  simp only [Memory.read?, Memory.unlisted] at this
  cases hc : cellAt a cs with
  | none =>
    cases hd : cellAt a ds with
    | none => rfl
    | some v => rw [hc, hd] at this; exact absurd this (cellAt_ne_fill hn hd)
  | some v =>
    cases hd : cellAt a ds with
    | none => rw [hc, hd] at this; exact absurd this.symm (cellAt_ne_fill hm hc)
    | some w => rw [hc, hd] at this; exact this

end Sys2Proof.Machine
end

