-- ==== Sys2Proof/Laws/State.lean ====
section
/-! SUPPORT. One lemma per field per named update of the state. -/

namespace Sys2Proof.Machine

/-! ### A word answered to the host -/

@[simp] theorem State.answer_ctrl (s : State) (w : Word) : (s.answer w).ctrl = s.ctrl := rfl
@[simp] theorem State.answer_maxAddr (s : State) (w : Word) :
    (s.answer w).maxAddr = s.maxAddr := rfl
@[simp] theorem State.answer_secSize (s : State) (w : Word) :
    (s.answer w).secSize = s.secSize := rfl
@[simp] theorem State.answer_vwin (s : State) (w : Word) : (s.answer w).vwin = s.vwin := rfl
@[simp] theorem State.answer_eofSeen (s : State) (w : Word) :
    (s.answer w).eofSeen = s.eofSeen := rfl
@[simp] theorem State.answer_drop (s : State) (w : Word) : (s.answer w).drop = s.drop := rfl
@[simp] theorem State.answer_phase (s : State) (w : Word) : (s.answer w).phase = s.phase := rfl
@[simp] theorem State.answer_errCode (s : State) (w : Word) :
    (s.answer w).errCode = s.errCode := rfl
@[simp] theorem State.answer_errPhase (s : State) (w : Word) :
    (s.answer w).errPhase = s.errPhase := rfl
@[simp] theorem State.answer_errInfo (s : State) (w : Word) :
    (s.answer w).errInfo = s.errInfo := rfl
@[simp] theorem State.answer_inAddr (s : State) (w : Word) : (s.answer w).inAddr = s.inAddr := rfl
@[simp] theorem State.answer_inLen (s : State) (w : Word) : (s.answer w).inLen = s.inLen := rfl
@[simp] theorem State.answer_imgAddr (s : State) (w : Word) :
    (s.answer w).imgAddr = s.imgAddr := rfl
@[simp] theorem State.answer_startAddr (s : State) (w : Word) :
    (s.answer w).startAddr = s.startAddr := rfl
@[simp] theorem State.answer_endAddr (s : State) (w : Word) :
    (s.answer w).endAddr = s.endAddr := rfl
@[simp] theorem State.answer_imgCsum (s : State) (w : Word) :
    (s.answer w).imgCsum = s.imgCsum := rfl
@[simp] theorem State.answer_imgCrc (s : State) (w : Word) : (s.answer w).imgCrc = s.imgCrc := rfl
@[simp] theorem State.answer_secCount (s : State) (w : Word) :
    (s.answer w).secCount = s.secCount := rfl
@[simp] theorem State.answer_ext (s : State) (w : Word) : (s.answer w).ext = s.ext := rfl
@[simp] theorem State.answer_recCount (s : State) (w : Word) :
    (s.answer w).recCount = s.recCount := rfl
@[simp] theorem State.answer_cur (s : State) (w : Word) : (s.answer w).cur = s.cur := rfl
@[simp] theorem State.answer_secIdx (s : State) (w : Word) : (s.answer w).secIdx = s.secIdx := rfl
@[simp] theorem State.answer_vgTotal (s : State) (w : Word) :
    (s.answer w).vgTotal = s.vgTotal := rfl
@[simp] theorem State.answer_vgIdx (s : State) (w : Word) : (s.answer w).vgIdx = s.vgIdx := rfl
@[simp] theorem State.answer_vgFirst (s : State) (w : Word) :
    (s.answer w).vgFirst = s.vgFirst := rfl
@[simp] theorem State.answer_vgLast (s : State) (w : Word) : (s.answer w).vgLast = s.vgLast := rfl
@[simp] theorem State.answer_vgStart (s : State) (w : Word) :
    (s.answer w).vgStart = s.vgStart := rfl
@[simp] theorem State.answer_vgLen (s : State) (w : Word) : (s.answer w).vgLen = s.vgLen := rfl
@[simp] theorem State.answer_vgExpect (s : State) (w : Word) :
    (s.answer w).vgExpect = s.vgExpect := rfl
@[simp] theorem State.answer_vgResp (s : State) (w : Word) : (s.answer w).vgResp = s.vgResp := rfl
@[simp] theorem State.answer_rangeStart (s : State) (w : Word) :
    (s.answer w).rangeStart = s.rangeStart := rfl
@[simp] theorem State.answer_rangeLen (s : State) (w : Word) :
    (s.answer w).rangeLen = s.rangeLen := rfl
@[simp] theorem State.answer_rangeCsum (s : State) (w : Word) :
    (s.answer w).rangeCsum = s.rangeCsum := rfl
@[simp] theorem State.answer_rangeCrc (s : State) (w : Word) :
    (s.answer w).rangeCrc = s.rangeCrc := rfl
@[simp] theorem State.answer_capBuf (s : State) (w : Word) : (s.answer w).capBuf = s.capBuf := rfl
@[simp] theorem State.answer_capIn (s : State) (w : Word) : (s.answer w).capIn = s.capIn := rfl
@[simp] theorem State.answer_capSec (s : State) (w : Word) : (s.answer w).capSec = s.capSec := rfl
@[simp] theorem State.answer_inBuf (s : State) (w : Word) : (s.answer w).inBuf = s.inBuf := rfl
@[simp] theorem State.answer_imgBuf (s : State) (w : Word) : (s.answer w).imgBuf = s.imgBuf := rfl
@[simp] theorem State.answer_sec (s : State) (w : Word) : (s.answer w).sec = s.sec := rfl
@[simp] theorem State.answer_pend (s : State) (w : Word) : (s.answer w).pend = s.pend := rfl
@[simp] theorem State.answer_haveData (s : State) (w : Word) :
    (s.answer w).haveData = s.haveData := rfl
@[simp] theorem State.answer_rdata (s : State) (w : Word) : (s.answer w).rdata = w := rfl
@[simp] theorem State.answer_schedule (s : State) (w : Word) :
    (s.answer w).schedule = s.schedule := rfl
@[simp] theorem State.answer_draws (s : State) (w : Word) : (s.answer w).draws = s.draws := rfl
@[simp] theorem State.answer_resets (s : State) (w : Word) : (s.answer w).resets = s.resets := rfl

/-! ### A read while BUSY -/

@[simp] theorem State.answerDraw_ctrl (s : State) : (s.answerDraw).ctrl = s.ctrl := rfl
@[simp] theorem State.answerDraw_maxAddr (s : State) : (s.answerDraw).maxAddr = s.maxAddr := rfl
@[simp] theorem State.answerDraw_secSize (s : State) : (s.answerDraw).secSize = s.secSize := rfl
@[simp] theorem State.answerDraw_vwin (s : State) : (s.answerDraw).vwin = s.vwin := rfl
@[simp] theorem State.answerDraw_eofSeen (s : State) : (s.answerDraw).eofSeen = s.eofSeen := rfl
@[simp] theorem State.answerDraw_drop (s : State) : (s.answerDraw).drop = s.drop := rfl
@[simp] theorem State.answerDraw_phase (s : State) : (s.answerDraw).phase = s.phase := rfl
@[simp] theorem State.answerDraw_errCode (s : State) : (s.answerDraw).errCode = s.errCode := rfl
@[simp] theorem State.answerDraw_errPhase (s : State) : (s.answerDraw).errPhase = s.errPhase := rfl
@[simp] theorem State.answerDraw_errInfo (s : State) : (s.answerDraw).errInfo = s.errInfo := rfl
@[simp] theorem State.answerDraw_inAddr (s : State) : (s.answerDraw).inAddr = s.inAddr := rfl
@[simp] theorem State.answerDraw_inLen (s : State) : (s.answerDraw).inLen = s.inLen := rfl
@[simp] theorem State.answerDraw_imgAddr (s : State) : (s.answerDraw).imgAddr = s.imgAddr := rfl
@[simp] theorem State.answerDraw_startAddr (s : State) :
    (s.answerDraw).startAddr = s.startAddr := rfl
@[simp] theorem State.answerDraw_endAddr (s : State) : (s.answerDraw).endAddr = s.endAddr := rfl
@[simp] theorem State.answerDraw_imgCsum (s : State) : (s.answerDraw).imgCsum = s.imgCsum := rfl
@[simp] theorem State.answerDraw_imgCrc (s : State) : (s.answerDraw).imgCrc = s.imgCrc := rfl
@[simp] theorem State.answerDraw_secCount (s : State) : (s.answerDraw).secCount = s.secCount := rfl
@[simp] theorem State.answerDraw_ext (s : State) : (s.answerDraw).ext = s.ext := rfl
@[simp] theorem State.answerDraw_recCount (s : State) : (s.answerDraw).recCount = s.recCount := rfl
@[simp] theorem State.answerDraw_cur (s : State) : (s.answerDraw).cur = s.cur := rfl
@[simp] theorem State.answerDraw_secIdx (s : State) : (s.answerDraw).secIdx = s.secIdx := rfl
@[simp] theorem State.answerDraw_vgTotal (s : State) : (s.answerDraw).vgTotal = s.vgTotal := rfl
@[simp] theorem State.answerDraw_vgIdx (s : State) : (s.answerDraw).vgIdx = s.vgIdx := rfl
@[simp] theorem State.answerDraw_vgFirst (s : State) : (s.answerDraw).vgFirst = s.vgFirst := rfl
@[simp] theorem State.answerDraw_vgLast (s : State) : (s.answerDraw).vgLast = s.vgLast := rfl
@[simp] theorem State.answerDraw_vgStart (s : State) : (s.answerDraw).vgStart = s.vgStart := rfl
@[simp] theorem State.answerDraw_vgLen (s : State) : (s.answerDraw).vgLen = s.vgLen := rfl
@[simp] theorem State.answerDraw_vgExpect (s : State) : (s.answerDraw).vgExpect = s.vgExpect := rfl
@[simp] theorem State.answerDraw_vgResp (s : State) : (s.answerDraw).vgResp = s.vgResp := rfl
@[simp] theorem State.answerDraw_rangeStart (s : State) :
    (s.answerDraw).rangeStart = s.rangeStart := rfl
@[simp] theorem State.answerDraw_rangeLen (s : State) : (s.answerDraw).rangeLen = s.rangeLen := rfl
@[simp] theorem State.answerDraw_rangeCsum (s : State) :
    (s.answerDraw).rangeCsum = s.rangeCsum := rfl
@[simp] theorem State.answerDraw_rangeCrc (s : State) : (s.answerDraw).rangeCrc = s.rangeCrc := rfl
@[simp] theorem State.answerDraw_capBuf (s : State) : (s.answerDraw).capBuf = s.capBuf := rfl
@[simp] theorem State.answerDraw_capIn (s : State) : (s.answerDraw).capIn = s.capIn := rfl
@[simp] theorem State.answerDraw_capSec (s : State) : (s.answerDraw).capSec = s.capSec := rfl
@[simp] theorem State.answerDraw_inBuf (s : State) : (s.answerDraw).inBuf = s.inBuf := rfl
@[simp] theorem State.answerDraw_imgBuf (s : State) : (s.answerDraw).imgBuf = s.imgBuf := rfl
@[simp] theorem State.answerDraw_sec (s : State) : (s.answerDraw).sec = s.sec := rfl
@[simp] theorem State.answerDraw_pend (s : State) : (s.answerDraw).pend = s.pend := rfl
@[simp] theorem State.answerDraw_haveData (s : State) : (s.answerDraw).haveData = s.haveData := rfl
@[simp] theorem State.answerDraw_rdata (s : State) :
    (s.answerDraw).rdata = Config.busyRead s.draws := rfl
@[simp] theorem State.answerDraw_schedule (s : State) : (s.answerDraw).schedule = s.schedule := rfl
@[simp] theorem State.answerDraw_draws (s : State) : (s.answerDraw).draws = s.draws + 1 := rfl
@[simp] theorem State.answerDraw_resets (s : State) : (s.answerDraw).resets = s.resets := rfl

/-! ### A dropped transaction -/

@[simp] theorem State.dropWrite_ctrl (s : State) : (s.dropWrite).ctrl = s.ctrl := rfl
@[simp] theorem State.dropWrite_maxAddr (s : State) : (s.dropWrite).maxAddr = s.maxAddr := rfl
@[simp] theorem State.dropWrite_secSize (s : State) : (s.dropWrite).secSize = s.secSize := rfl
@[simp] theorem State.dropWrite_vwin (s : State) : (s.dropWrite).vwin = s.vwin := rfl
@[simp] theorem State.dropWrite_eofSeen (s : State) : (s.dropWrite).eofSeen = s.eofSeen := rfl
@[simp] theorem State.dropWrite_drop (s : State) : (s.dropWrite).drop = true := rfl
@[simp] theorem State.dropWrite_phase (s : State) : (s.dropWrite).phase = s.phase := rfl
@[simp] theorem State.dropWrite_errCode (s : State) : (s.dropWrite).errCode = s.errCode := rfl
@[simp] theorem State.dropWrite_errPhase (s : State) : (s.dropWrite).errPhase = s.errPhase := rfl
@[simp] theorem State.dropWrite_errInfo (s : State) : (s.dropWrite).errInfo = s.errInfo := rfl
@[simp] theorem State.dropWrite_inAddr (s : State) : (s.dropWrite).inAddr = s.inAddr := rfl
@[simp] theorem State.dropWrite_inLen (s : State) : (s.dropWrite).inLen = s.inLen := rfl
@[simp] theorem State.dropWrite_imgAddr (s : State) : (s.dropWrite).imgAddr = s.imgAddr := rfl
@[simp] theorem State.dropWrite_startAddr (s : State) : (s.dropWrite).startAddr = s.startAddr := rfl
@[simp] theorem State.dropWrite_endAddr (s : State) : (s.dropWrite).endAddr = s.endAddr := rfl
@[simp] theorem State.dropWrite_imgCsum (s : State) : (s.dropWrite).imgCsum = s.imgCsum := rfl
@[simp] theorem State.dropWrite_imgCrc (s : State) : (s.dropWrite).imgCrc = s.imgCrc := rfl
@[simp] theorem State.dropWrite_secCount (s : State) : (s.dropWrite).secCount = s.secCount := rfl
@[simp] theorem State.dropWrite_ext (s : State) : (s.dropWrite).ext = s.ext := rfl
@[simp] theorem State.dropWrite_recCount (s : State) : (s.dropWrite).recCount = s.recCount := rfl
@[simp] theorem State.dropWrite_cur (s : State) : (s.dropWrite).cur = s.cur := rfl
@[simp] theorem State.dropWrite_secIdx (s : State) : (s.dropWrite).secIdx = s.secIdx := rfl
@[simp] theorem State.dropWrite_vgTotal (s : State) : (s.dropWrite).vgTotal = s.vgTotal := rfl
@[simp] theorem State.dropWrite_vgIdx (s : State) : (s.dropWrite).vgIdx = s.vgIdx := rfl
@[simp] theorem State.dropWrite_vgFirst (s : State) : (s.dropWrite).vgFirst = s.vgFirst := rfl
@[simp] theorem State.dropWrite_vgLast (s : State) : (s.dropWrite).vgLast = s.vgLast := rfl
@[simp] theorem State.dropWrite_vgStart (s : State) : (s.dropWrite).vgStart = s.vgStart := rfl
@[simp] theorem State.dropWrite_vgLen (s : State) : (s.dropWrite).vgLen = s.vgLen := rfl
@[simp] theorem State.dropWrite_vgExpect (s : State) : (s.dropWrite).vgExpect = s.vgExpect := rfl
@[simp] theorem State.dropWrite_vgResp (s : State) : (s.dropWrite).vgResp = s.vgResp := rfl
@[simp] theorem State.dropWrite_rangeStart (s : State) :
    (s.dropWrite).rangeStart = s.rangeStart := rfl
@[simp] theorem State.dropWrite_rangeLen (s : State) : (s.dropWrite).rangeLen = s.rangeLen := rfl
@[simp] theorem State.dropWrite_rangeCsum (s : State) : (s.dropWrite).rangeCsum = s.rangeCsum := rfl
@[simp] theorem State.dropWrite_rangeCrc (s : State) : (s.dropWrite).rangeCrc = s.rangeCrc := rfl
@[simp] theorem State.dropWrite_capBuf (s : State) : (s.dropWrite).capBuf = s.capBuf := rfl
@[simp] theorem State.dropWrite_capIn (s : State) : (s.dropWrite).capIn = s.capIn := rfl
@[simp] theorem State.dropWrite_capSec (s : State) : (s.dropWrite).capSec = s.capSec := rfl
@[simp] theorem State.dropWrite_inBuf (s : State) : (s.dropWrite).inBuf = s.inBuf := rfl
@[simp] theorem State.dropWrite_imgBuf (s : State) : (s.dropWrite).imgBuf = s.imgBuf := rfl
@[simp] theorem State.dropWrite_sec (s : State) : (s.dropWrite).sec = s.sec := rfl
@[simp] theorem State.dropWrite_pend (s : State) : (s.dropWrite).pend = s.pend := rfl
@[simp] theorem State.dropWrite_haveData (s : State) : (s.dropWrite).haveData = s.haveData := rfl
@[simp] theorem State.dropWrite_rdata (s : State) : (s.dropWrite).rdata = s.rdata := rfl
@[simp] theorem State.dropWrite_schedule (s : State) : (s.dropWrite).schedule = s.schedule := rfl
@[simp] theorem State.dropWrite_draws (s : State) : (s.dropWrite).draws = s.draws := rfl
@[simp] theorem State.dropWrite_resets (s : State) : (s.dropWrite).resets = s.resets := rfl

/-! ### An operation recorded in PEND -/

@[simp] theorem State.start_ctrl (s : State) (p : Pend) : (s.start p).ctrl = s.ctrl := rfl
@[simp] theorem State.start_maxAddr (s : State) (p : Pend) : (s.start p).maxAddr = s.maxAddr := rfl
@[simp] theorem State.start_secSize (s : State) (p : Pend) : (s.start p).secSize = s.secSize := rfl
@[simp] theorem State.start_vwin (s : State) (p : Pend) : (s.start p).vwin = s.vwin := rfl
@[simp] theorem State.start_eofSeen (s : State) (p : Pend) : (s.start p).eofSeen = s.eofSeen := rfl
@[simp] theorem State.start_drop (s : State) (p : Pend) : (s.start p).drop = s.drop := rfl
@[simp] theorem State.start_phase (s : State) (p : Pend) : (s.start p).phase = s.phase := rfl
@[simp] theorem State.start_errCode (s : State) (p : Pend) : (s.start p).errCode = s.errCode := rfl
@[simp] theorem State.start_errPhase (s : State) (p : Pend) :
    (s.start p).errPhase = s.errPhase := rfl
@[simp] theorem State.start_errInfo (s : State) (p : Pend) : (s.start p).errInfo = s.errInfo := rfl
@[simp] theorem State.start_inAddr (s : State) (p : Pend) : (s.start p).inAddr = s.inAddr := rfl
@[simp] theorem State.start_inLen (s : State) (p : Pend) : (s.start p).inLen = s.inLen := rfl
@[simp] theorem State.start_imgAddr (s : State) (p : Pend) : (s.start p).imgAddr = s.imgAddr := rfl
@[simp] theorem State.start_startAddr (s : State) (p : Pend) :
    (s.start p).startAddr = s.startAddr := rfl
@[simp] theorem State.start_endAddr (s : State) (p : Pend) : (s.start p).endAddr = s.endAddr := rfl
@[simp] theorem State.start_imgCsum (s : State) (p : Pend) : (s.start p).imgCsum = s.imgCsum := rfl
@[simp] theorem State.start_imgCrc (s : State) (p : Pend) : (s.start p).imgCrc = s.imgCrc := rfl
@[simp] theorem State.start_secCount (s : State) (p : Pend) :
    (s.start p).secCount = s.secCount := rfl
@[simp] theorem State.start_ext (s : State) (p : Pend) : (s.start p).ext = s.ext := rfl
@[simp] theorem State.start_recCount (s : State) (p : Pend) :
    (s.start p).recCount = s.recCount := rfl
@[simp] theorem State.start_cur (s : State) (p : Pend) : (s.start p).cur = s.cur := rfl
@[simp] theorem State.start_secIdx (s : State) (p : Pend) : (s.start p).secIdx = s.secIdx := rfl
@[simp] theorem State.start_vgTotal (s : State) (p : Pend) : (s.start p).vgTotal = s.vgTotal := rfl
@[simp] theorem State.start_vgIdx (s : State) (p : Pend) : (s.start p).vgIdx = s.vgIdx := rfl
@[simp] theorem State.start_vgFirst (s : State) (p : Pend) : (s.start p).vgFirst = s.vgFirst := rfl
@[simp] theorem State.start_vgLast (s : State) (p : Pend) : (s.start p).vgLast = s.vgLast := rfl
@[simp] theorem State.start_vgStart (s : State) (p : Pend) : (s.start p).vgStart = s.vgStart := rfl
@[simp] theorem State.start_vgLen (s : State) (p : Pend) : (s.start p).vgLen = s.vgLen := rfl
@[simp] theorem State.start_vgExpect (s : State) (p : Pend) :
    (s.start p).vgExpect = s.vgExpect := rfl
@[simp] theorem State.start_vgResp (s : State) (p : Pend) : (s.start p).vgResp = s.vgResp := rfl
@[simp] theorem State.start_rangeStart (s : State) (p : Pend) :
    (s.start p).rangeStart = s.rangeStart := rfl
@[simp] theorem State.start_rangeLen (s : State) (p : Pend) :
    (s.start p).rangeLen = s.rangeLen := rfl
@[simp] theorem State.start_rangeCsum (s : State) (p : Pend) :
    (s.start p).rangeCsum = s.rangeCsum := rfl
@[simp] theorem State.start_rangeCrc (s : State) (p : Pend) :
    (s.start p).rangeCrc = s.rangeCrc := rfl
@[simp] theorem State.start_capBuf (s : State) (p : Pend) : (s.start p).capBuf = s.capBuf := rfl
@[simp] theorem State.start_capIn (s : State) (p : Pend) : (s.start p).capIn = s.capIn := rfl
@[simp] theorem State.start_capSec (s : State) (p : Pend) : (s.start p).capSec = s.capSec := rfl
@[simp] theorem State.start_inBuf (s : State) (p : Pend) : (s.start p).inBuf = s.inBuf := rfl
@[simp] theorem State.start_imgBuf (s : State) (p : Pend) : (s.start p).imgBuf = s.imgBuf := rfl
@[simp] theorem State.start_sec (s : State) (p : Pend) : (s.start p).sec = s.sec := rfl
@[simp] theorem State.start_pend (s : State) (p : Pend) : (s.start p).pend = p := rfl
@[simp] theorem State.start_haveData (s : State) (p : Pend) :
    (s.start p).haveData = s.haveData := rfl
@[simp] theorem State.start_rdata (s : State) (p : Pend) : (s.start p).rdata = s.rdata := rfl
@[simp] theorem State.start_schedule (s : State) (p : Pend) :
    (s.start p).schedule = s.schedule := rfl
@[simp] theorem State.start_draws (s : State) (p : Pend) : (s.start p).draws = s.draws := rfl
@[simp] theorem State.start_resets (s : State) (p : Pend) : (s.start p).resets = s.resets := rfl

/-! ### Error entry -/

@[simp] theorem enterError_ctrl (s : State) (code : ErrCode) (info : Word) :
    (enterError code info s).ctrl = s.ctrl := rfl
@[simp] theorem enterError_maxAddr (s : State) (code : ErrCode) (info : Word) :
    (enterError code info s).maxAddr = s.maxAddr := rfl
@[simp] theorem enterError_secSize (s : State) (code : ErrCode) (info : Word) :
    (enterError code info s).secSize = s.secSize := rfl
@[simp] theorem enterError_vwin (s : State) (code : ErrCode) (info : Word) :
    (enterError code info s).vwin = s.vwin := rfl
@[simp] theorem enterError_eofSeen (s : State) (code : ErrCode) (info : Word) :
    (enterError code info s).eofSeen = s.eofSeen := rfl
@[simp] theorem enterError_drop (s : State) (code : ErrCode) (info : Word) :
    (enterError code info s).drop = s.drop := rfl
@[simp] theorem enterError_phase (s : State) (code : ErrCode) (info : Word) :
    (enterError code info s).phase = .failed := rfl
@[simp] theorem enterError_errCode (s : State) (code : ErrCode) (info : Word) :
    (enterError code info s).errCode = code := rfl
@[simp] theorem enterError_errPhase (s : State) (code : ErrCode) (info : Word) :
    (enterError code info s).errPhase = s.phase := rfl
@[simp] theorem enterError_errInfo (s : State) (code : ErrCode) (info : Word) :
    (enterError code info s).errInfo = info := rfl
@[simp] theorem enterError_inAddr (s : State) (code : ErrCode) (info : Word) :
    (enterError code info s).inAddr = s.inAddr := rfl
@[simp] theorem enterError_inLen (s : State) (code : ErrCode) (info : Word) :
    (enterError code info s).inLen = s.inLen := rfl
@[simp] theorem enterError_imgAddr (s : State) (code : ErrCode) (info : Word) :
    (enterError code info s).imgAddr = s.imgAddr := rfl
@[simp] theorem enterError_startAddr (s : State) (code : ErrCode) (info : Word) :
    (enterError code info s).startAddr = s.startAddr := rfl
@[simp] theorem enterError_endAddr (s : State) (code : ErrCode) (info : Word) :
    (enterError code info s).endAddr = s.endAddr := rfl
@[simp] theorem enterError_imgCsum (s : State) (code : ErrCode) (info : Word) :
    (enterError code info s).imgCsum = s.imgCsum := rfl
@[simp] theorem enterError_imgCrc (s : State) (code : ErrCode) (info : Word) :
    (enterError code info s).imgCrc = s.imgCrc := rfl
@[simp] theorem enterError_secCount (s : State) (code : ErrCode) (info : Word) :
    (enterError code info s).secCount = s.secCount := rfl
@[simp] theorem enterError_ext (s : State) (code : ErrCode) (info : Word) :
    (enterError code info s).ext = s.ext := rfl
@[simp] theorem enterError_recCount (s : State) (code : ErrCode) (info : Word) :
    (enterError code info s).recCount = s.recCount := rfl
@[simp] theorem enterError_cur (s : State) (code : ErrCode) (info : Word) :
    (enterError code info s).cur = s.cur := rfl
@[simp] theorem enterError_secIdx (s : State) (code : ErrCode) (info : Word) :
    (enterError code info s).secIdx = s.secIdx := rfl
@[simp] theorem enterError_vgTotal (s : State) (code : ErrCode) (info : Word) :
    (enterError code info s).vgTotal = s.vgTotal := rfl
@[simp] theorem enterError_vgIdx (s : State) (code : ErrCode) (info : Word) :
    (enterError code info s).vgIdx = s.vgIdx := rfl
@[simp] theorem enterError_vgFirst (s : State) (code : ErrCode) (info : Word) :
    (enterError code info s).vgFirst = s.vgFirst := rfl
@[simp] theorem enterError_vgLast (s : State) (code : ErrCode) (info : Word) :
    (enterError code info s).vgLast = s.vgLast := rfl
@[simp] theorem enterError_vgStart (s : State) (code : ErrCode) (info : Word) :
    (enterError code info s).vgStart = s.vgStart := rfl
@[simp] theorem enterError_vgLen (s : State) (code : ErrCode) (info : Word) :
    (enterError code info s).vgLen = s.vgLen := rfl
@[simp] theorem enterError_vgExpect (s : State) (code : ErrCode) (info : Word) :
    (enterError code info s).vgExpect = s.vgExpect := rfl
@[simp] theorem enterError_vgResp (s : State) (code : ErrCode) (info : Word) :
    (enterError code info s).vgResp = s.vgResp := rfl
@[simp] theorem enterError_rangeStart (s : State) (code : ErrCode) (info : Word) :
    (enterError code info s).rangeStart = s.rangeStart := rfl
@[simp] theorem enterError_rangeLen (s : State) (code : ErrCode) (info : Word) :
    (enterError code info s).rangeLen = s.rangeLen := rfl
@[simp] theorem enterError_rangeCsum (s : State) (code : ErrCode) (info : Word) :
    (enterError code info s).rangeCsum = s.rangeCsum := rfl
@[simp] theorem enterError_rangeCrc (s : State) (code : ErrCode) (info : Word) :
    (enterError code info s).rangeCrc = s.rangeCrc := rfl
@[simp] theorem enterError_capBuf (s : State) (code : ErrCode) (info : Word) :
    (enterError code info s).capBuf = s.capBuf := rfl
@[simp] theorem enterError_capIn (s : State) (code : ErrCode) (info : Word) :
    (enterError code info s).capIn = s.capIn := rfl
@[simp] theorem enterError_capSec (s : State) (code : ErrCode) (info : Word) :
    (enterError code info s).capSec = s.capSec := rfl
@[simp] theorem enterError_inBuf (s : State) (code : ErrCode) (info : Word) :
    (enterError code info s).inBuf = s.inBuf := rfl
@[simp] theorem enterError_imgBuf (s : State) (code : ErrCode) (info : Word) :
    (enterError code info s).imgBuf = s.imgBuf := rfl
@[simp] theorem enterError_sec (s : State) (code : ErrCode) (info : Word) :
    (enterError code info s).sec = s.sec := rfl
@[simp] theorem enterError_pend (s : State) (code : ErrCode) (info : Word) :
    (enterError code info s).pend = s.pend := rfl
@[simp] theorem enterError_haveData (s : State) (code : ErrCode) (info : Word) :
    (enterError code info s).haveData = s.haveData := rfl
@[simp] theorem enterError_rdata (s : State) (code : ErrCode) (info : Word) :
    (enterError code info s).rdata = s.rdata := rfl
@[simp] theorem enterError_schedule (s : State) (code : ErrCode) (info : Word) :
    (enterError code info s).schedule = s.schedule := rfl
@[simp] theorem enterError_draws (s : State) (code : ErrCode) (info : Word) :
    (enterError code info s).draws = s.draws := rfl
@[simp] theorem enterError_resets (s : State) (code : ErrCode) (info : Word) :
    (enterError code info s).resets = s.resets := rfl

/-! ### Return from an error -/

@[simp] theorem leaveError_ctrl (s : State) : (leaveError s).ctrl = s.ctrl := rfl
@[simp] theorem leaveError_maxAddr (s : State) : (leaveError s).maxAddr = s.maxAddr := rfl
@[simp] theorem leaveError_secSize (s : State) : (leaveError s).secSize = s.secSize := rfl
@[simp] theorem leaveError_vwin (s : State) : (leaveError s).vwin = s.vwin := rfl
@[simp] theorem leaveError_eofSeen (s : State) : (leaveError s).eofSeen = s.eofSeen := rfl
@[simp] theorem leaveError_drop (s : State) : (leaveError s).drop = s.drop := rfl
@[simp] theorem leaveError_phase (s : State) : (leaveError s).phase = .idle := rfl
@[simp] theorem leaveError_errCode (s : State) : (leaveError s).errCode = .none := rfl
@[simp] theorem leaveError_errPhase (s : State) : (leaveError s).errPhase = .idle := rfl
@[simp] theorem leaveError_errInfo (s : State) : (leaveError s).errInfo = 0 := rfl
@[simp] theorem leaveError_inAddr (s : State) : (leaveError s).inAddr = s.inAddr := rfl
@[simp] theorem leaveError_inLen (s : State) : (leaveError s).inLen = s.inLen := rfl
@[simp] theorem leaveError_imgAddr (s : State) : (leaveError s).imgAddr = s.imgAddr := rfl
@[simp] theorem leaveError_startAddr (s : State) : (leaveError s).startAddr = s.startAddr := rfl
@[simp] theorem leaveError_endAddr (s : State) : (leaveError s).endAddr = s.endAddr := rfl
@[simp] theorem leaveError_imgCsum (s : State) : (leaveError s).imgCsum = s.imgCsum := rfl
@[simp] theorem leaveError_imgCrc (s : State) : (leaveError s).imgCrc = s.imgCrc := rfl
@[simp] theorem leaveError_secCount (s : State) : (leaveError s).secCount = s.secCount := rfl
@[simp] theorem leaveError_ext (s : State) : (leaveError s).ext = s.ext := rfl
@[simp] theorem leaveError_recCount (s : State) : (leaveError s).recCount = s.recCount := rfl
@[simp] theorem leaveError_cur (s : State) : (leaveError s).cur = s.cur := rfl
@[simp] theorem leaveError_secIdx (s : State) : (leaveError s).secIdx = s.secIdx := rfl
@[simp] theorem leaveError_vgTotal (s : State) : (leaveError s).vgTotal = s.vgTotal := rfl
@[simp] theorem leaveError_vgIdx (s : State) : (leaveError s).vgIdx = s.vgIdx := rfl
@[simp] theorem leaveError_vgFirst (s : State) : (leaveError s).vgFirst = s.vgFirst := rfl
@[simp] theorem leaveError_vgLast (s : State) : (leaveError s).vgLast = s.vgLast := rfl
@[simp] theorem leaveError_vgStart (s : State) : (leaveError s).vgStart = s.vgStart := rfl
@[simp] theorem leaveError_vgLen (s : State) : (leaveError s).vgLen = s.vgLen := rfl
@[simp] theorem leaveError_vgExpect (s : State) : (leaveError s).vgExpect = s.vgExpect := rfl
@[simp] theorem leaveError_vgResp (s : State) : (leaveError s).vgResp = s.vgResp := rfl
@[simp] theorem leaveError_rangeStart (s : State) : (leaveError s).rangeStart = s.rangeStart := rfl
@[simp] theorem leaveError_rangeLen (s : State) : (leaveError s).rangeLen = s.rangeLen := rfl
@[simp] theorem leaveError_rangeCsum (s : State) : (leaveError s).rangeCsum = s.rangeCsum := rfl
@[simp] theorem leaveError_rangeCrc (s : State) : (leaveError s).rangeCrc = s.rangeCrc := rfl
@[simp] theorem leaveError_capBuf (s : State) : (leaveError s).capBuf = s.capBuf := rfl
@[simp] theorem leaveError_capIn (s : State) : (leaveError s).capIn = s.capIn := rfl
@[simp] theorem leaveError_capSec (s : State) : (leaveError s).capSec = s.capSec := rfl
@[simp] theorem leaveError_inBuf (s : State) : (leaveError s).inBuf = s.inBuf := rfl
@[simp] theorem leaveError_imgBuf (s : State) : (leaveError s).imgBuf = s.imgBuf := rfl
@[simp] theorem leaveError_sec (s : State) : (leaveError s).sec = s.sec := rfl
@[simp] theorem leaveError_pend (s : State) : (leaveError s).pend = s.pend := rfl
@[simp] theorem leaveError_haveData (s : State) : (leaveError s).haveData = s.haveData := rfl
@[simp] theorem leaveError_rdata (s : State) : (leaveError s).rdata = s.rdata := rfl
@[simp] theorem leaveError_schedule (s : State) : (leaveError s).schedule = s.schedule := rfl
@[simp] theorem leaveError_draws (s : State) : (leaveError s).draws = s.draws := rfl
@[simp] theorem leaveError_resets (s : State) : (leaveError s).resets = s.resets := rfl

/-! ### An engine step that ends without error -/

@[simp] theorem endStep_ok_ctrl (s : State) : (endStep (.ok s)).ctrl = s.ctrl := rfl
@[simp] theorem endStep_ok_maxAddr (s : State) : (endStep (.ok s)).maxAddr = s.maxAddr := rfl
@[simp] theorem endStep_ok_secSize (s : State) : (endStep (.ok s)).secSize = s.secSize := rfl
@[simp] theorem endStep_ok_vwin (s : State) : (endStep (.ok s)).vwin = s.vwin := rfl
@[simp] theorem endStep_ok_eofSeen (s : State) : (endStep (.ok s)).eofSeen = s.eofSeen := rfl
@[simp] theorem endStep_ok_drop (s : State) : (endStep (.ok s)).drop = s.drop := rfl
@[simp] theorem endStep_ok_phase (s : State) : (endStep (.ok s)).phase = s.phase := rfl
@[simp] theorem endStep_ok_errCode (s : State) : (endStep (.ok s)).errCode = s.errCode := rfl
@[simp] theorem endStep_ok_errPhase (s : State) : (endStep (.ok s)).errPhase = s.errPhase := rfl
@[simp] theorem endStep_ok_errInfo (s : State) : (endStep (.ok s)).errInfo = s.errInfo := rfl
@[simp] theorem endStep_ok_inAddr (s : State) : (endStep (.ok s)).inAddr = s.inAddr := rfl
@[simp] theorem endStep_ok_inLen (s : State) : (endStep (.ok s)).inLen = s.inLen := rfl
@[simp] theorem endStep_ok_imgAddr (s : State) : (endStep (.ok s)).imgAddr = s.imgAddr := rfl
@[simp] theorem endStep_ok_startAddr (s : State) : (endStep (.ok s)).startAddr = s.startAddr := rfl
@[simp] theorem endStep_ok_endAddr (s : State) : (endStep (.ok s)).endAddr = s.endAddr := rfl
@[simp] theorem endStep_ok_imgCsum (s : State) : (endStep (.ok s)).imgCsum = s.imgCsum := rfl
@[simp] theorem endStep_ok_imgCrc (s : State) : (endStep (.ok s)).imgCrc = s.imgCrc := rfl
@[simp] theorem endStep_ok_secCount (s : State) : (endStep (.ok s)).secCount = s.secCount := rfl
@[simp] theorem endStep_ok_ext (s : State) : (endStep (.ok s)).ext = s.ext := rfl
@[simp] theorem endStep_ok_recCount (s : State) : (endStep (.ok s)).recCount = s.recCount := rfl
@[simp] theorem endStep_ok_cur (s : State) : (endStep (.ok s)).cur = s.cur := rfl
@[simp] theorem endStep_ok_secIdx (s : State) : (endStep (.ok s)).secIdx = s.secIdx := rfl
@[simp] theorem endStep_ok_vgTotal (s : State) : (endStep (.ok s)).vgTotal = s.vgTotal := rfl
@[simp] theorem endStep_ok_vgIdx (s : State) : (endStep (.ok s)).vgIdx = s.vgIdx := rfl
@[simp] theorem endStep_ok_vgFirst (s : State) : (endStep (.ok s)).vgFirst = s.vgFirst := rfl
@[simp] theorem endStep_ok_vgLast (s : State) : (endStep (.ok s)).vgLast = s.vgLast := rfl
@[simp] theorem endStep_ok_vgStart (s : State) : (endStep (.ok s)).vgStart = s.vgStart := rfl
@[simp] theorem endStep_ok_vgLen (s : State) : (endStep (.ok s)).vgLen = s.vgLen := rfl
@[simp] theorem endStep_ok_vgExpect (s : State) : (endStep (.ok s)).vgExpect = s.vgExpect := rfl
@[simp] theorem endStep_ok_vgResp (s : State) : (endStep (.ok s)).vgResp = s.vgResp := rfl
@[simp] theorem endStep_ok_rangeStart (s : State) :
    (endStep (.ok s)).rangeStart = s.rangeStart := rfl
@[simp] theorem endStep_ok_rangeLen (s : State) : (endStep (.ok s)).rangeLen = s.rangeLen := rfl
@[simp] theorem endStep_ok_rangeCsum (s : State) : (endStep (.ok s)).rangeCsum = s.rangeCsum := rfl
@[simp] theorem endStep_ok_rangeCrc (s : State) : (endStep (.ok s)).rangeCrc = s.rangeCrc := rfl
@[simp] theorem endStep_ok_capBuf (s : State) : (endStep (.ok s)).capBuf = s.capBuf := rfl
@[simp] theorem endStep_ok_capIn (s : State) : (endStep (.ok s)).capIn = s.capIn := rfl
@[simp] theorem endStep_ok_capSec (s : State) : (endStep (.ok s)).capSec = s.capSec := rfl
@[simp] theorem endStep_ok_inBuf (s : State) : (endStep (.ok s)).inBuf = s.inBuf := rfl
@[simp] theorem endStep_ok_imgBuf (s : State) : (endStep (.ok s)).imgBuf = s.imgBuf := rfl
@[simp] theorem endStep_ok_sec (s : State) : (endStep (.ok s)).sec = s.sec := rfl
@[simp] theorem endStep_ok_pend (s : State) : (endStep (.ok s)).pend = .none := rfl
@[simp] theorem endStep_ok_haveData (s : State) : (endStep (.ok s)).haveData = s.haveData := rfl
@[simp] theorem endStep_ok_rdata (s : State) : (endStep (.ok s)).rdata = s.rdata := rfl
@[simp] theorem endStep_ok_schedule (s : State) : (endStep (.ok s)).schedule = s.schedule := rfl
@[simp] theorem endStep_ok_draws (s : State) : (endStep (.ok s)).draws = s.draws := rfl
@[simp] theorem endStep_ok_resets (s : State) : (endStep (.ok s)).resets = s.resets := rfl

/-! ### An engine step that ends in an error -/

@[simp] theorem endStep_err_ctrl (s : State) (code : ErrCode) (info : Word) :
    (endStep (.err s code info)).ctrl = s.ctrl := rfl
@[simp] theorem endStep_err_maxAddr (s : State) (code : ErrCode) (info : Word) :
    (endStep (.err s code info)).maxAddr = s.maxAddr := rfl
@[simp] theorem endStep_err_secSize (s : State) (code : ErrCode) (info : Word) :
    (endStep (.err s code info)).secSize = s.secSize := rfl
@[simp] theorem endStep_err_vwin (s : State) (code : ErrCode) (info : Word) :
    (endStep (.err s code info)).vwin = s.vwin := rfl
@[simp] theorem endStep_err_eofSeen (s : State) (code : ErrCode) (info : Word) :
    (endStep (.err s code info)).eofSeen = s.eofSeen := rfl
@[simp] theorem endStep_err_drop (s : State) (code : ErrCode) (info : Word) :
    (endStep (.err s code info)).drop = s.drop := rfl
@[simp] theorem endStep_err_phase (s : State) (code : ErrCode) (info : Word) :
    (endStep (.err s code info)).phase = .failed := rfl
@[simp] theorem endStep_err_errCode (s : State) (code : ErrCode) (info : Word) :
    (endStep (.err s code info)).errCode = code := rfl
@[simp] theorem endStep_err_errPhase (s : State) (code : ErrCode) (info : Word) :
    (endStep (.err s code info)).errPhase = s.phase := rfl
@[simp] theorem endStep_err_errInfo (s : State) (code : ErrCode) (info : Word) :
    (endStep (.err s code info)).errInfo = info := rfl
@[simp] theorem endStep_err_inAddr (s : State) (code : ErrCode) (info : Word) :
    (endStep (.err s code info)).inAddr = s.inAddr := rfl
@[simp] theorem endStep_err_inLen (s : State) (code : ErrCode) (info : Word) :
    (endStep (.err s code info)).inLen = s.inLen := rfl
@[simp] theorem endStep_err_imgAddr (s : State) (code : ErrCode) (info : Word) :
    (endStep (.err s code info)).imgAddr = s.imgAddr := rfl
@[simp] theorem endStep_err_startAddr (s : State) (code : ErrCode) (info : Word) :
    (endStep (.err s code info)).startAddr = s.startAddr := rfl
@[simp] theorem endStep_err_endAddr (s : State) (code : ErrCode) (info : Word) :
    (endStep (.err s code info)).endAddr = s.endAddr := rfl
@[simp] theorem endStep_err_imgCsum (s : State) (code : ErrCode) (info : Word) :
    (endStep (.err s code info)).imgCsum = s.imgCsum := rfl
@[simp] theorem endStep_err_imgCrc (s : State) (code : ErrCode) (info : Word) :
    (endStep (.err s code info)).imgCrc = s.imgCrc := rfl
@[simp] theorem endStep_err_secCount (s : State) (code : ErrCode) (info : Word) :
    (endStep (.err s code info)).secCount = s.secCount := rfl
@[simp] theorem endStep_err_ext (s : State) (code : ErrCode) (info : Word) :
    (endStep (.err s code info)).ext = s.ext := rfl
@[simp] theorem endStep_err_recCount (s : State) (code : ErrCode) (info : Word) :
    (endStep (.err s code info)).recCount = s.recCount := rfl
@[simp] theorem endStep_err_cur (s : State) (code : ErrCode) (info : Word) :
    (endStep (.err s code info)).cur = s.cur := rfl
@[simp] theorem endStep_err_secIdx (s : State) (code : ErrCode) (info : Word) :
    (endStep (.err s code info)).secIdx = s.secIdx := rfl
@[simp] theorem endStep_err_vgTotal (s : State) (code : ErrCode) (info : Word) :
    (endStep (.err s code info)).vgTotal = s.vgTotal := rfl
@[simp] theorem endStep_err_vgIdx (s : State) (code : ErrCode) (info : Word) :
    (endStep (.err s code info)).vgIdx = s.vgIdx := rfl
@[simp] theorem endStep_err_vgFirst (s : State) (code : ErrCode) (info : Word) :
    (endStep (.err s code info)).vgFirst = s.vgFirst := rfl
@[simp] theorem endStep_err_vgLast (s : State) (code : ErrCode) (info : Word) :
    (endStep (.err s code info)).vgLast = s.vgLast := rfl
@[simp] theorem endStep_err_vgStart (s : State) (code : ErrCode) (info : Word) :
    (endStep (.err s code info)).vgStart = s.vgStart := rfl
@[simp] theorem endStep_err_vgLen (s : State) (code : ErrCode) (info : Word) :
    (endStep (.err s code info)).vgLen = s.vgLen := rfl
@[simp] theorem endStep_err_vgExpect (s : State) (code : ErrCode) (info : Word) :
    (endStep (.err s code info)).vgExpect = s.vgExpect := rfl
@[simp] theorem endStep_err_vgResp (s : State) (code : ErrCode) (info : Word) :
    (endStep (.err s code info)).vgResp = s.vgResp := rfl
@[simp] theorem endStep_err_rangeStart (s : State) (code : ErrCode) (info : Word) :
    (endStep (.err s code info)).rangeStart = s.rangeStart := rfl
@[simp] theorem endStep_err_rangeLen (s : State) (code : ErrCode) (info : Word) :
    (endStep (.err s code info)).rangeLen = s.rangeLen := rfl
@[simp] theorem endStep_err_rangeCsum (s : State) (code : ErrCode) (info : Word) :
    (endStep (.err s code info)).rangeCsum = s.rangeCsum := rfl
@[simp] theorem endStep_err_rangeCrc (s : State) (code : ErrCode) (info : Word) :
    (endStep (.err s code info)).rangeCrc = s.rangeCrc := rfl
@[simp] theorem endStep_err_capBuf (s : State) (code : ErrCode) (info : Word) :
    (endStep (.err s code info)).capBuf = s.capBuf := rfl
@[simp] theorem endStep_err_capIn (s : State) (code : ErrCode) (info : Word) :
    (endStep (.err s code info)).capIn = s.capIn := rfl
@[simp] theorem endStep_err_capSec (s : State) (code : ErrCode) (info : Word) :
    (endStep (.err s code info)).capSec = s.capSec := rfl
@[simp] theorem endStep_err_inBuf (s : State) (code : ErrCode) (info : Word) :
    (endStep (.err s code info)).inBuf = s.inBuf := rfl
@[simp] theorem endStep_err_imgBuf (s : State) (code : ErrCode) (info : Word) :
    (endStep (.err s code info)).imgBuf = s.imgBuf := rfl
@[simp] theorem endStep_err_sec (s : State) (code : ErrCode) (info : Word) :
    (endStep (.err s code info)).sec = s.sec := rfl
@[simp] theorem endStep_err_pend (s : State) (code : ErrCode) (info : Word) :
    (endStep (.err s code info)).pend = .none := rfl
@[simp] theorem endStep_err_haveData (s : State) (code : ErrCode) (info : Word) :
    (endStep (.err s code info)).haveData = s.haveData := rfl
@[simp] theorem endStep_err_rdata (s : State) (code : ErrCode) (info : Word) :
    (endStep (.err s code info)).rdata = s.rdata := rfl
@[simp] theorem endStep_err_schedule (s : State) (code : ErrCode) (info : Word) :
    (endStep (.err s code info)).schedule = s.schedule := rfl
@[simp] theorem endStep_err_draws (s : State) (code : ErrCode) (info : Word) :
    (endStep (.err s code info)).draws = s.draws := rfl
@[simp] theorem endStep_err_resets (s : State) (code : ErrCode) (info : Word) :
    (endStep (.err s code info)).resets = s.resets := rfl

/-! ### CLEAR -/

@[simp] theorem clearBody_ctrl (s : State) : (clearBody s).ctrl = s.ctrl := rfl
@[simp] theorem clearBody_maxAddr (s : State) : (clearBody s).maxAddr = s.maxAddr := rfl
@[simp] theorem clearBody_secSize (s : State) : (clearBody s).secSize = s.secSize := rfl
@[simp] theorem clearBody_vwin (s : State) : (clearBody s).vwin = s.vwin := rfl
@[simp] theorem clearBody_eofSeen (s : State) : (clearBody s).eofSeen = false := rfl
@[simp] theorem clearBody_drop (s : State) : (clearBody s).drop = false := rfl
@[simp] theorem clearBody_phase (s : State) : (clearBody s).phase = .idle := rfl
@[simp] theorem clearBody_errCode (s : State) : (clearBody s).errCode = .none := rfl
@[simp] theorem clearBody_errPhase (s : State) : (clearBody s).errPhase = .idle := rfl
@[simp] theorem clearBody_errInfo (s : State) : (clearBody s).errInfo = 0 := rfl
@[simp] theorem clearBody_inAddr (s : State) : (clearBody s).inAddr = s.inAddr := rfl
@[simp] theorem clearBody_inLen (s : State) : (clearBody s).inLen = s.inLen := rfl
@[simp] theorem clearBody_imgAddr (s : State) : (clearBody s).imgAddr = s.imgAddr := rfl
@[simp] theorem clearBody_startAddr (s : State) : (clearBody s).startAddr = 0 := rfl
@[simp] theorem clearBody_endAddr (s : State) : (clearBody s).endAddr = 0 := rfl
@[simp] theorem clearBody_imgCsum (s : State) : (clearBody s).imgCsum = 0 := rfl
@[simp] theorem clearBody_imgCrc (s : State) : (clearBody s).imgCrc = 0 := rfl
@[simp] theorem clearBody_secCount (s : State) : (clearBody s).secCount = 0 := rfl
@[simp] theorem clearBody_ext (s : State) : (clearBody s).ext = 0 := rfl
@[simp] theorem clearBody_recCount (s : State) : (clearBody s).recCount = 0 := rfl
@[simp] theorem clearBody_cur (s : State) : (clearBody s).cur = 0 := rfl
@[simp] theorem clearBody_secIdx (s : State) : (clearBody s).secIdx = s.secIdx := rfl
@[simp] theorem clearBody_vgTotal (s : State) : (clearBody s).vgTotal = 0 := rfl
@[simp] theorem clearBody_vgIdx (s : State) : (clearBody s).vgIdx = 0 := rfl
@[simp] theorem clearBody_vgFirst (s : State) : (clearBody s).vgFirst = 0 := rfl
@[simp] theorem clearBody_vgLast (s : State) : (clearBody s).vgLast = 0 := rfl
@[simp] theorem clearBody_vgStart (s : State) : (clearBody s).vgStart = 0 := rfl
@[simp] theorem clearBody_vgLen (s : State) : (clearBody s).vgLen = 0 := rfl
@[simp] theorem clearBody_vgExpect (s : State) : (clearBody s).vgExpect = 0 := rfl
@[simp] theorem clearBody_vgResp (s : State) : (clearBody s).vgResp = 0 := rfl
@[simp] theorem clearBody_rangeStart (s : State) : (clearBody s).rangeStart = s.rangeStart := rfl
@[simp] theorem clearBody_rangeLen (s : State) : (clearBody s).rangeLen = s.rangeLen := rfl
@[simp] theorem clearBody_rangeCsum (s : State) : (clearBody s).rangeCsum = 0 := rfl
@[simp] theorem clearBody_rangeCrc (s : State) : (clearBody s).rangeCrc = 0 := rfl
@[simp] theorem clearBody_capBuf (s : State) : (clearBody s).capBuf = s.capBuf := rfl
@[simp] theorem clearBody_capIn (s : State) : (clearBody s).capIn = s.capIn := rfl
@[simp] theorem clearBody_capSec (s : State) : (clearBody s).capSec = s.capSec := rfl
@[simp] theorem clearBody_inBuf (s : State) : (clearBody s).inBuf = s.inBuf := rfl
@[simp] theorem clearBody_imgBuf (s : State) : (clearBody s).imgBuf = s.imgBuf := rfl
@[simp] theorem clearBody_sec (s : State) : (clearBody s).sec = s.sec := rfl
@[simp] theorem clearBody_pend (s : State) : (clearBody s).pend = s.pend := rfl
@[simp] theorem clearBody_haveData (s : State) : (clearBody s).haveData = false := rfl
@[simp] theorem clearBody_rdata (s : State) : (clearBody s).rdata = s.rdata := rfl
@[simp] theorem clearBody_schedule (s : State) : (clearBody s).schedule = s.schedule := rfl
@[simp] theorem clearBody_draws (s : State) : (clearBody s).draws = s.draws := rfl
@[simp] theorem clearBody_resets (s : State) : (clearBody s).resets = s.resets := rfl

/-! ### The decoder's start -/

@[simp] theorem initDecode_ctrl (s : State) : (initDecode s).ctrl = s.ctrl := rfl
@[simp] theorem initDecode_maxAddr (s : State) : (initDecode s).maxAddr = s.maxAddr := rfl
@[simp] theorem initDecode_secSize (s : State) : (initDecode s).secSize = s.secSize := rfl
@[simp] theorem initDecode_vwin (s : State) : (initDecode s).vwin = s.vwin := rfl
@[simp] theorem initDecode_eofSeen (s : State) : (initDecode s).eofSeen = false := rfl
@[simp] theorem initDecode_drop (s : State) : (initDecode s).drop = s.drop := rfl
@[simp] theorem initDecode_phase (s : State) : (initDecode s).phase = s.phase := rfl
@[simp] theorem initDecode_errCode (s : State) : (initDecode s).errCode = s.errCode := rfl
@[simp] theorem initDecode_errPhase (s : State) : (initDecode s).errPhase = s.errPhase := rfl
@[simp] theorem initDecode_errInfo (s : State) : (initDecode s).errInfo = s.errInfo := rfl
@[simp] theorem initDecode_inAddr (s : State) : (initDecode s).inAddr = s.inAddr := rfl
@[simp] theorem initDecode_inLen (s : State) : (initDecode s).inLen = s.inLen := rfl
@[simp] theorem initDecode_imgAddr (s : State) : (initDecode s).imgAddr = s.imgAddr := rfl
@[simp] theorem initDecode_startAddr (s : State) : (initDecode s).startAddr = 0 := rfl
@[simp] theorem initDecode_endAddr (s : State) : (initDecode s).endAddr = 0 := rfl
@[simp] theorem initDecode_imgCsum (s : State) : (initDecode s).imgCsum = 0 := rfl
@[simp] theorem initDecode_imgCrc (s : State) : (initDecode s).imgCrc = 0 := rfl
@[simp] theorem initDecode_secCount (s : State) : (initDecode s).secCount = 0 := rfl
@[simp] theorem initDecode_ext (s : State) : (initDecode s).ext = 0 := rfl
@[simp] theorem initDecode_recCount (s : State) : (initDecode s).recCount = 0 := rfl
@[simp] theorem initDecode_cur (s : State) : (initDecode s).cur = 0 := rfl
@[simp] theorem initDecode_secIdx (s : State) : (initDecode s).secIdx = s.secIdx := rfl
@[simp] theorem initDecode_vgTotal (s : State) : (initDecode s).vgTotal = s.vgTotal := rfl
@[simp] theorem initDecode_vgIdx (s : State) : (initDecode s).vgIdx = s.vgIdx := rfl
@[simp] theorem initDecode_vgFirst (s : State) : (initDecode s).vgFirst = s.vgFirst := rfl
@[simp] theorem initDecode_vgLast (s : State) : (initDecode s).vgLast = s.vgLast := rfl
@[simp] theorem initDecode_vgStart (s : State) : (initDecode s).vgStart = s.vgStart := rfl
@[simp] theorem initDecode_vgLen (s : State) : (initDecode s).vgLen = s.vgLen := rfl
@[simp] theorem initDecode_vgExpect (s : State) : (initDecode s).vgExpect = s.vgExpect := rfl
@[simp] theorem initDecode_vgResp (s : State) : (initDecode s).vgResp = s.vgResp := rfl
@[simp] theorem initDecode_rangeStart (s : State) : (initDecode s).rangeStart = s.rangeStart := rfl
@[simp] theorem initDecode_rangeLen (s : State) : (initDecode s).rangeLen = s.rangeLen := rfl
@[simp] theorem initDecode_rangeCsum (s : State) : (initDecode s).rangeCsum = s.rangeCsum := rfl
@[simp] theorem initDecode_rangeCrc (s : State) : (initDecode s).rangeCrc = s.rangeCrc := rfl
@[simp] theorem initDecode_capBuf (s : State) : (initDecode s).capBuf = s.capBuf := rfl
@[simp] theorem initDecode_capIn (s : State) : (initDecode s).capIn = s.capIn := rfl
@[simp] theorem initDecode_capSec (s : State) : (initDecode s).capSec = s.capSec := rfl
@[simp] theorem initDecode_inBuf (s : State) : (initDecode s).inBuf = s.inBuf := rfl
@[simp] theorem initDecode_imgBuf (s : State) :
    (initDecode s).imgBuf = Memory.filled Config.fillByte := rfl
@[simp] theorem initDecode_sec (s : State) : (initDecode s).sec = s.sec := rfl
@[simp] theorem initDecode_pend (s : State) : (initDecode s).pend = s.pend := rfl
@[simp] theorem initDecode_haveData (s : State) : (initDecode s).haveData = false := rfl
@[simp] theorem initDecode_rdata (s : State) : (initDecode s).rdata = s.rdata := rfl
@[simp] theorem initDecode_schedule (s : State) : (initDecode s).schedule = s.schedule := rfl
@[simp] theorem initDecode_draws (s : State) : (initDecode s).draws = s.draws := rfl
@[simp] theorem initDecode_resets (s : State) : (initDecode s).resets = s.resets := rfl

/-! ### A record passed -/

@[simp] theorem passRecord_ctrl (s : State) (r : HexRecord) : (passRecord r s).ctrl = s.ctrl := rfl
@[simp] theorem passRecord_maxAddr (s : State) (r : HexRecord) :
    (passRecord r s).maxAddr = s.maxAddr := rfl
@[simp] theorem passRecord_secSize (s : State) (r : HexRecord) :
    (passRecord r s).secSize = s.secSize := rfl
@[simp] theorem passRecord_vwin (s : State) (r : HexRecord) : (passRecord r s).vwin = s.vwin := rfl
@[simp] theorem passRecord_eofSeen (s : State) (r : HexRecord) :
    (passRecord r s).eofSeen = s.eofSeen := rfl
@[simp] theorem passRecord_drop (s : State) (r : HexRecord) : (passRecord r s).drop = s.drop := rfl
@[simp] theorem passRecord_phase (s : State) (r : HexRecord) :
    (passRecord r s).phase = s.phase := rfl
@[simp] theorem passRecord_errCode (s : State) (r : HexRecord) :
    (passRecord r s).errCode = s.errCode := rfl
@[simp] theorem passRecord_errPhase (s : State) (r : HexRecord) :
    (passRecord r s).errPhase = s.errPhase := rfl
@[simp] theorem passRecord_errInfo (s : State) (r : HexRecord) :
    (passRecord r s).errInfo = s.errInfo := rfl
@[simp] theorem passRecord_inAddr (s : State) (r : HexRecord) :
    (passRecord r s).inAddr = s.inAddr := rfl
@[simp] theorem passRecord_inLen (s : State) (r : HexRecord) :
    (passRecord r s).inLen = s.inLen := rfl
@[simp] theorem passRecord_imgAddr (s : State) (r : HexRecord) :
    (passRecord r s).imgAddr = s.imgAddr := rfl
@[simp] theorem passRecord_startAddr (s : State) (r : HexRecord) :
    (passRecord r s).startAddr = s.startAddr := rfl
@[simp] theorem passRecord_endAddr (s : State) (r : HexRecord) :
    (passRecord r s).endAddr = s.endAddr := rfl
@[simp] theorem passRecord_imgCsum (s : State) (r : HexRecord) :
    (passRecord r s).imgCsum = s.imgCsum := rfl
@[simp] theorem passRecord_imgCrc (s : State) (r : HexRecord) :
    (passRecord r s).imgCrc = s.imgCrc := rfl
@[simp] theorem passRecord_secCount (s : State) (r : HexRecord) :
    (passRecord r s).secCount = s.secCount := rfl
@[simp] theorem passRecord_ext (s : State) (r : HexRecord) : (passRecord r s).ext = s.ext := rfl
@[simp] theorem passRecord_recCount (s : State) (r : HexRecord) :
    (passRecord r s).recCount = s.recCount + 1 := rfl
@[simp] theorem passRecord_cur (s : State) (r : HexRecord) :
    (passRecord r s).cur = s.cur + BitVec.ofNat 32 r.size := rfl
@[simp] theorem passRecord_secIdx (s : State) (r : HexRecord) :
    (passRecord r s).secIdx = s.secIdx := rfl
@[simp] theorem passRecord_vgTotal (s : State) (r : HexRecord) :
    (passRecord r s).vgTotal = s.vgTotal := rfl
@[simp] theorem passRecord_vgIdx (s : State) (r : HexRecord) :
    (passRecord r s).vgIdx = s.vgIdx := rfl
@[simp] theorem passRecord_vgFirst (s : State) (r : HexRecord) :
    (passRecord r s).vgFirst = s.vgFirst := rfl
@[simp] theorem passRecord_vgLast (s : State) (r : HexRecord) :
    (passRecord r s).vgLast = s.vgLast := rfl
@[simp] theorem passRecord_vgStart (s : State) (r : HexRecord) :
    (passRecord r s).vgStart = s.vgStart := rfl
@[simp] theorem passRecord_vgLen (s : State) (r : HexRecord) :
    (passRecord r s).vgLen = s.vgLen := rfl
@[simp] theorem passRecord_vgExpect (s : State) (r : HexRecord) :
    (passRecord r s).vgExpect = s.vgExpect := rfl
@[simp] theorem passRecord_vgResp (s : State) (r : HexRecord) :
    (passRecord r s).vgResp = s.vgResp := rfl
@[simp] theorem passRecord_rangeStart (s : State) (r : HexRecord) :
    (passRecord r s).rangeStart = s.rangeStart := rfl
@[simp] theorem passRecord_rangeLen (s : State) (r : HexRecord) :
    (passRecord r s).rangeLen = s.rangeLen := rfl
@[simp] theorem passRecord_rangeCsum (s : State) (r : HexRecord) :
    (passRecord r s).rangeCsum = s.rangeCsum := rfl
@[simp] theorem passRecord_rangeCrc (s : State) (r : HexRecord) :
    (passRecord r s).rangeCrc = s.rangeCrc := rfl
@[simp] theorem passRecord_capBuf (s : State) (r : HexRecord) :
    (passRecord r s).capBuf = s.capBuf := rfl
@[simp] theorem passRecord_capIn (s : State) (r : HexRecord) :
    (passRecord r s).capIn = s.capIn := rfl
@[simp] theorem passRecord_capSec (s : State) (r : HexRecord) :
    (passRecord r s).capSec = s.capSec := rfl
@[simp] theorem passRecord_inBuf (s : State) (r : HexRecord) :
    (passRecord r s).inBuf = s.inBuf := rfl
@[simp] theorem passRecord_imgBuf (s : State) (r : HexRecord) :
    (passRecord r s).imgBuf = s.imgBuf := rfl
@[simp] theorem passRecord_sec (s : State) (r : HexRecord) : (passRecord r s).sec = s.sec := rfl
@[simp] theorem passRecord_pend (s : State) (r : HexRecord) : (passRecord r s).pend = s.pend := rfl
@[simp] theorem passRecord_haveData (s : State) (r : HexRecord) :
    (passRecord r s).haveData = s.haveData := rfl
@[simp] theorem passRecord_rdata (s : State) (r : HexRecord) :
    (passRecord r s).rdata = s.rdata := rfl
@[simp] theorem passRecord_schedule (s : State) (r : HexRecord) :
    (passRecord r s).schedule = s.schedule := rfl
@[simp] theorem passRecord_draws (s : State) (r : HexRecord) :
    (passRecord r s).draws = s.draws := rfl
@[simp] theorem passRecord_resets (s : State) (r : HexRecord) :
    (passRecord r s).resets = s.resets := rfl

/-! ### VERIFY's start -/

@[simp] theorem initGroups_ctrl (s : State) : (initGroups s).ctrl = s.ctrl := rfl
@[simp] theorem initGroups_maxAddr (s : State) : (initGroups s).maxAddr = s.maxAddr := rfl
@[simp] theorem initGroups_secSize (s : State) : (initGroups s).secSize = s.secSize := rfl
@[simp] theorem initGroups_vwin (s : State) : (initGroups s).vwin = s.vwin := rfl
@[simp] theorem initGroups_eofSeen (s : State) : (initGroups s).eofSeen = s.eofSeen := rfl
@[simp] theorem initGroups_drop (s : State) : (initGroups s).drop = s.drop := rfl
@[simp] theorem initGroups_phase (s : State) : (initGroups s).phase = s.phase := rfl
@[simp] theorem initGroups_errCode (s : State) : (initGroups s).errCode = s.errCode := rfl
@[simp] theorem initGroups_errPhase (s : State) : (initGroups s).errPhase = s.errPhase := rfl
@[simp] theorem initGroups_errInfo (s : State) : (initGroups s).errInfo = s.errInfo := rfl
@[simp] theorem initGroups_inAddr (s : State) : (initGroups s).inAddr = s.inAddr := rfl
@[simp] theorem initGroups_inLen (s : State) : (initGroups s).inLen = s.inLen := rfl
@[simp] theorem initGroups_imgAddr (s : State) : (initGroups s).imgAddr = s.imgAddr := rfl
@[simp] theorem initGroups_startAddr (s : State) : (initGroups s).startAddr = s.startAddr := rfl
@[simp] theorem initGroups_endAddr (s : State) : (initGroups s).endAddr = s.endAddr := rfl
@[simp] theorem initGroups_imgCsum (s : State) : (initGroups s).imgCsum = s.imgCsum := rfl
@[simp] theorem initGroups_imgCrc (s : State) : (initGroups s).imgCrc = s.imgCrc := rfl
@[simp] theorem initGroups_secCount (s : State) : (initGroups s).secCount = s.secCount := rfl
@[simp] theorem initGroups_ext (s : State) : (initGroups s).ext = s.ext := rfl
@[simp] theorem initGroups_recCount (s : State) : (initGroups s).recCount = s.recCount := rfl
@[simp] theorem initGroups_cur (s : State) : (initGroups s).cur = s.cur := rfl
@[simp] theorem initGroups_secIdx (s : State) : (initGroups s).secIdx = s.secIdx := rfl
@[simp] theorem initGroups_vgTotal (s : State) :
    (initGroups s).vgTotal = BitVec.ofNat 32 s.groups.length := rfl
@[simp] theorem initGroups_vgIdx (s : State) : (initGroups s).vgIdx = 0 := rfl
@[simp] theorem initGroups_vgFirst (s : State) : (initGroups s).vgFirst = 0 := rfl
@[simp] theorem initGroups_vgLast (s : State) : (initGroups s).vgLast = 0 := rfl
@[simp] theorem initGroups_vgStart (s : State) : (initGroups s).vgStart = 0 := rfl
@[simp] theorem initGroups_vgLen (s : State) : (initGroups s).vgLen = 0 := rfl
@[simp] theorem initGroups_vgExpect (s : State) : (initGroups s).vgExpect = 0 := rfl
@[simp] theorem initGroups_vgResp (s : State) : (initGroups s).vgResp = s.vgResp := rfl
@[simp] theorem initGroups_rangeStart (s : State) : (initGroups s).rangeStart = s.rangeStart := rfl
@[simp] theorem initGroups_rangeLen (s : State) : (initGroups s).rangeLen = s.rangeLen := rfl
@[simp] theorem initGroups_rangeCsum (s : State) : (initGroups s).rangeCsum = s.rangeCsum := rfl
@[simp] theorem initGroups_rangeCrc (s : State) : (initGroups s).rangeCrc = s.rangeCrc := rfl
@[simp] theorem initGroups_capBuf (s : State) : (initGroups s).capBuf = s.capBuf := rfl
@[simp] theorem initGroups_capIn (s : State) : (initGroups s).capIn = s.capIn := rfl
@[simp] theorem initGroups_capSec (s : State) : (initGroups s).capSec = s.capSec := rfl
@[simp] theorem initGroups_inBuf (s : State) : (initGroups s).inBuf = s.inBuf := rfl
@[simp] theorem initGroups_imgBuf (s : State) : (initGroups s).imgBuf = s.imgBuf := rfl
@[simp] theorem initGroups_sec (s : State) : (initGroups s).sec = s.sec := rfl
@[simp] theorem initGroups_pend (s : State) : (initGroups s).pend = s.pend := rfl
@[simp] theorem initGroups_haveData (s : State) : (initGroups s).haveData = s.haveData := rfl
@[simp] theorem initGroups_rdata (s : State) : (initGroups s).rdata = s.rdata := rfl
@[simp] theorem initGroups_schedule (s : State) : (initGroups s).schedule = s.schedule := rfl
@[simp] theorem initGroups_draws (s : State) : (initGroups s).draws = s.draws := rfl
@[simp] theorem initGroups_resets (s : State) : (initGroups s).resets = s.resets := rfl

/-! ### A group presented -/

@[simp] theorem present_ctrl (s : State) (k : Nat) (g : Group) :
    (present k g s).ctrl = s.ctrl := rfl
@[simp] theorem present_maxAddr (s : State) (k : Nat) (g : Group) :
    (present k g s).maxAddr = s.maxAddr := rfl
@[simp] theorem present_secSize (s : State) (k : Nat) (g : Group) :
    (present k g s).secSize = s.secSize := rfl
@[simp] theorem present_vwin (s : State) (k : Nat) (g : Group) :
    (present k g s).vwin = s.vwin := rfl
@[simp] theorem present_eofSeen (s : State) (k : Nat) (g : Group) :
    (present k g s).eofSeen = s.eofSeen := rfl
@[simp] theorem present_drop (s : State) (k : Nat) (g : Group) :
    (present k g s).drop = s.drop := rfl
@[simp] theorem present_phase (s : State) (k : Nat) (g : Group) :
    (present k g s).phase = s.phase := rfl
@[simp] theorem present_errCode (s : State) (k : Nat) (g : Group) :
    (present k g s).errCode = s.errCode := rfl
@[simp] theorem present_errPhase (s : State) (k : Nat) (g : Group) :
    (present k g s).errPhase = s.errPhase := rfl
@[simp] theorem present_errInfo (s : State) (k : Nat) (g : Group) :
    (present k g s).errInfo = s.errInfo := rfl
@[simp] theorem present_inAddr (s : State) (k : Nat) (g : Group) :
    (present k g s).inAddr = s.inAddr := rfl
@[simp] theorem present_inLen (s : State) (k : Nat) (g : Group) :
    (present k g s).inLen = s.inLen := rfl
@[simp] theorem present_imgAddr (s : State) (k : Nat) (g : Group) :
    (present k g s).imgAddr = s.imgAddr := rfl
@[simp] theorem present_startAddr (s : State) (k : Nat) (g : Group) :
    (present k g s).startAddr = s.startAddr := rfl
@[simp] theorem present_endAddr (s : State) (k : Nat) (g : Group) :
    (present k g s).endAddr = s.endAddr := rfl
@[simp] theorem present_imgCsum (s : State) (k : Nat) (g : Group) :
    (present k g s).imgCsum = s.imgCsum := rfl
@[simp] theorem present_imgCrc (s : State) (k : Nat) (g : Group) :
    (present k g s).imgCrc = s.imgCrc := rfl
@[simp] theorem present_secCount (s : State) (k : Nat) (g : Group) :
    (present k g s).secCount = s.secCount := rfl
@[simp] theorem present_ext (s : State) (k : Nat) (g : Group) : (present k g s).ext = s.ext := rfl
@[simp] theorem present_recCount (s : State) (k : Nat) (g : Group) :
    (present k g s).recCount = s.recCount := rfl
@[simp] theorem present_cur (s : State) (k : Nat) (g : Group) : (present k g s).cur = s.cur := rfl
@[simp] theorem present_secIdx (s : State) (k : Nat) (g : Group) :
    (present k g s).secIdx = s.secIdx := rfl
@[simp] theorem present_vgTotal (s : State) (k : Nat) (g : Group) :
    (present k g s).vgTotal = s.vgTotal := rfl
@[simp] theorem present_vgIdx (s : State) (k : Nat) (g : Group) :
    (present k g s).vgIdx = BitVec.ofNat 32 k := rfl
@[simp] theorem present_vgFirst (s : State) (k : Nat) (g : Group) :
    (present k g s).vgFirst = BitVec.ofNat 32 g.first := rfl
@[simp] theorem present_vgLast (s : State) (k : Nat) (g : Group) :
    (present k g s).vgLast = BitVec.ofNat 32 g.last := rfl
@[simp] theorem present_vgStart (s : State) (k : Nat) (g : Group) :
    (present k g s).vgStart = (s.sector g.first).startAddr := rfl
@[simp] theorem present_vgLen (s : State) (k : Nat) (g : Group) :
    (present k g s).vgLen = (s.sector g.last).endAddr - (s.sector g.first).startAddr := rfl
@[simp] theorem present_vgExpect (s : State) (k : Nat) (g : Group) :
    (present k g s).vgExpect = s.expect g := rfl
@[simp] theorem present_vgResp (s : State) (k : Nat) (g : Group) :
    (present k g s).vgResp = s.vgResp := rfl
@[simp] theorem present_rangeStart (s : State) (k : Nat) (g : Group) :
    (present k g s).rangeStart = s.rangeStart := rfl
@[simp] theorem present_rangeLen (s : State) (k : Nat) (g : Group) :
    (present k g s).rangeLen = s.rangeLen := rfl
@[simp] theorem present_rangeCsum (s : State) (k : Nat) (g : Group) :
    (present k g s).rangeCsum = s.rangeCsum := rfl
@[simp] theorem present_rangeCrc (s : State) (k : Nat) (g : Group) :
    (present k g s).rangeCrc = s.rangeCrc := rfl
@[simp] theorem present_capBuf (s : State) (k : Nat) (g : Group) :
    (present k g s).capBuf = s.capBuf := rfl
@[simp] theorem present_capIn (s : State) (k : Nat) (g : Group) :
    (present k g s).capIn = s.capIn := rfl
@[simp] theorem present_capSec (s : State) (k : Nat) (g : Group) :
    (present k g s).capSec = s.capSec := rfl
@[simp] theorem present_inBuf (s : State) (k : Nat) (g : Group) :
    (present k g s).inBuf = s.inBuf := rfl
@[simp] theorem present_imgBuf (s : State) (k : Nat) (g : Group) :
    (present k g s).imgBuf = s.imgBuf := rfl
@[simp] theorem present_sec (s : State) (k : Nat) (g : Group) : (present k g s).sec = s.sec := rfl
@[simp] theorem present_pend (s : State) (k : Nat) (g : Group) :
    (present k g s).pend = s.pend := rfl
@[simp] theorem present_haveData (s : State) (k : Nat) (g : Group) :
    (present k g s).haveData = s.haveData := rfl
@[simp] theorem present_rdata (s : State) (k : Nat) (g : Group) :
    (present k g s).rdata = s.rdata := rfl
@[simp] theorem present_schedule (s : State) (k : Nat) (g : Group) :
    (present k g s).schedule = s.schedule := rfl
@[simp] theorem present_draws (s : State) (k : Nat) (g : Group) :
    (present k g s).draws = s.draws := rfl
@[simp] theorem present_resets (s : State) (k : Nat) (g : Group) :
    (present k g s).resets = s.resets := rfl

/-! ### The reset event -/

@[simp] theorem resetEvent_ctrl (s : State) : (resetEvent s).ctrl = State.reset.ctrl := rfl
@[simp] theorem resetEvent_maxAddr (s : State) : (resetEvent s).maxAddr = State.reset.maxAddr := rfl
@[simp] theorem resetEvent_secSize (s : State) : (resetEvent s).secSize = State.reset.secSize := rfl
@[simp] theorem resetEvent_vwin (s : State) : (resetEvent s).vwin = State.reset.vwin := rfl
@[simp] theorem resetEvent_eofSeen (s : State) : (resetEvent s).eofSeen = State.reset.eofSeen := rfl
@[simp] theorem resetEvent_drop (s : State) : (resetEvent s).drop = State.reset.drop := rfl
@[simp] theorem resetEvent_phase (s : State) : (resetEvent s).phase = State.reset.phase := rfl
@[simp] theorem resetEvent_errCode (s : State) : (resetEvent s).errCode = State.reset.errCode := rfl
@[simp] theorem resetEvent_errPhase (s : State) :
    (resetEvent s).errPhase = State.reset.errPhase := rfl
@[simp] theorem resetEvent_errInfo (s : State) : (resetEvent s).errInfo = State.reset.errInfo := rfl
@[simp] theorem resetEvent_inAddr (s : State) : (resetEvent s).inAddr = State.reset.inAddr := rfl
@[simp] theorem resetEvent_inLen (s : State) : (resetEvent s).inLen = State.reset.inLen := rfl
@[simp] theorem resetEvent_imgAddr (s : State) : (resetEvent s).imgAddr = State.reset.imgAddr := rfl
@[simp] theorem resetEvent_startAddr (s : State) :
    (resetEvent s).startAddr = State.reset.startAddr := rfl
@[simp] theorem resetEvent_endAddr (s : State) : (resetEvent s).endAddr = State.reset.endAddr := rfl
@[simp] theorem resetEvent_imgCsum (s : State) : (resetEvent s).imgCsum = State.reset.imgCsum := rfl
@[simp] theorem resetEvent_imgCrc (s : State) : (resetEvent s).imgCrc = State.reset.imgCrc := rfl
@[simp] theorem resetEvent_secCount (s : State) :
    (resetEvent s).secCount = State.reset.secCount := rfl
@[simp] theorem resetEvent_ext (s : State) : (resetEvent s).ext = State.reset.ext := rfl
@[simp] theorem resetEvent_recCount (s : State) :
    (resetEvent s).recCount = State.reset.recCount := rfl
@[simp] theorem resetEvent_cur (s : State) : (resetEvent s).cur = State.reset.cur := rfl
@[simp] theorem resetEvent_secIdx (s : State) : (resetEvent s).secIdx = State.reset.secIdx := rfl
@[simp] theorem resetEvent_vgTotal (s : State) : (resetEvent s).vgTotal = State.reset.vgTotal := rfl
@[simp] theorem resetEvent_vgIdx (s : State) : (resetEvent s).vgIdx = State.reset.vgIdx := rfl
@[simp] theorem resetEvent_vgFirst (s : State) : (resetEvent s).vgFirst = State.reset.vgFirst := rfl
@[simp] theorem resetEvent_vgLast (s : State) : (resetEvent s).vgLast = State.reset.vgLast := rfl
@[simp] theorem resetEvent_vgStart (s : State) : (resetEvent s).vgStart = State.reset.vgStart := rfl
@[simp] theorem resetEvent_vgLen (s : State) : (resetEvent s).vgLen = State.reset.vgLen := rfl
@[simp] theorem resetEvent_vgExpect (s : State) :
    (resetEvent s).vgExpect = State.reset.vgExpect := rfl
@[simp] theorem resetEvent_vgResp (s : State) : (resetEvent s).vgResp = State.reset.vgResp := rfl
@[simp] theorem resetEvent_rangeStart (s : State) :
    (resetEvent s).rangeStart = State.reset.rangeStart := rfl
@[simp] theorem resetEvent_rangeLen (s : State) :
    (resetEvent s).rangeLen = State.reset.rangeLen := rfl
@[simp] theorem resetEvent_rangeCsum (s : State) :
    (resetEvent s).rangeCsum = State.reset.rangeCsum := rfl
@[simp] theorem resetEvent_rangeCrc (s : State) :
    (resetEvent s).rangeCrc = State.reset.rangeCrc := rfl
@[simp] theorem resetEvent_capBuf (s : State) : (resetEvent s).capBuf = s.capBuf := rfl
@[simp] theorem resetEvent_capIn (s : State) : (resetEvent s).capIn = s.capIn := rfl
@[simp] theorem resetEvent_capSec (s : State) : (resetEvent s).capSec = s.capSec := rfl
@[simp] theorem resetEvent_inBuf (s : State) : (resetEvent s).inBuf = State.reset.inBuf := rfl
@[simp] theorem resetEvent_imgBuf (s : State) : (resetEvent s).imgBuf = State.reset.imgBuf := rfl
@[simp] theorem resetEvent_sec (s : State) : (resetEvent s).sec = State.reset.sec := rfl
@[simp] theorem resetEvent_pend (s : State) : (resetEvent s).pend = State.reset.pend := rfl
@[simp] theorem resetEvent_haveData (s : State) :
    (resetEvent s).haveData = State.reset.haveData := rfl
@[simp] theorem resetEvent_rdata (s : State) : (resetEvent s).rdata = s.rdata := rfl
@[simp] theorem resetEvent_schedule (s : State) : (resetEvent s).schedule = s.schedule := rfl
@[simp] theorem resetEvent_draws (s : State) : (resetEvent s).draws = s.draws := rfl
@[simp] theorem resetEvent_resets (s : State) : (resetEvent s).resets = s.resets + 1 := rfl

end Sys2Proof.Machine
end

