-- ==== Sys2Proof/Laws/Ops.lean ====
section
/-! SUPPORT. For each shared operation, once, everything it can do. -/

namespace Sys2Proof.Machine

/-! ### BUSY and PEND -/

theorem busy_eq_true {s : State} : s.busy = true ↔ s.pend ≠ .none := by simp [State.busy]

theorem busy_eq_false {s : State} : s.busy = false ↔ s.pend = .none := by simp [State.busy]

/-- BUSY depends on PEND alone (10_state.md R68). -/
theorem busy_congr {s t : State} (h : s.pend = t.pend) : s.busy = t.busy := by simp [State.busy, h]

/-! ### Host transactions -/

/-- All that a read transaction can do. -/
theorem hostRead_cases (rule : State → State) (s : State) :
    (s.busy = true ∧ hostRead rule s = s.answerDraw)
      ∨ (s.busy = false ∧ hostRead rule s = rule s) := by
  unfold hostRead
  cases s.busy <;> simp

/-- All that a write transaction can do. -/
theorem hostWrite_cases (rule : State → State) (s : State) :
    (s.busy = true ∧ hostWrite rule s = s.dropWrite)
      ∨ (s.busy = false ∧ hostWrite rule s = rule s) := by
  unfold hostWrite
  cases s.busy <;> simp

/-- All that a write of a read-only register can do. -/
theorem readOnlyWrite_cases (s : State) :
    (s.busy = true ∧ readOnlyWrite s = s.dropWrite) ∨ (s.busy = false ∧ readOnlyWrite s = s) :=
  hostWrite_cases _ s

/-- All that a write of a profile register can do. -/
theorem profileWrite_cases (store : State → State) (s : State) :
    ((s.busy = true ∨ s.phase ≠ .idle) ∧ profileWrite store s = s.dropWrite)
      ∨ (s.busy = false ∧ s.phase = .idle ∧ profileWrite store s = store s) := by
  rcases hostWrite_cases (fun s => if s.phase = .idle then store s else s.dropWrite) s with
    ⟨hb, h⟩ | ⟨hb, h⟩
  · exact .inl ⟨.inl hb, h⟩
  · by_cases hp : s.phase = .idle
    · exact .inr ⟨hb, hp, by rw [profileWrite, h, if_pos hp]⟩
    · exact .inl ⟨.inr hp, by rw [profileWrite, h, if_neg hp]⟩

/-! ### Engine operations -/

/-- All that the dispatch of a legal command word can do: its body in its phases, E_SEQUENCE in the
others. -/
theorem runCommand_cases (op : BitVec 4) (body : State → EngineEnd) (s : State) :
    (opLegalIn op s.phase = true ∧ runCommand op body s = endStep (body s))
      ∨ (opLegalIn op s.phase = false
        ∧ runCommand op body s = endStep (.err s .sequence (op.setWidth 32))) := by
  unfold runCommand
  cases opLegalIn op s.phase <;> simp

/-- Every engine operation ends with BUSY = 0 (00_scope.md R18). -/
@[simp] theorem endStep_pend (e : EngineEnd) : (endStep e).pend = .none := by
  cases e <;> rfl

@[simp] theorem runCommand_pend (op : BitVec 4) (body : State → EngineEnd) (s : State) :
    (runCommand op body s).pend = .none := by unfold runCommand; simp

/-! ### Arithmetic -/

@[simp] theorem minWord_toNat (a b : Word) : (minWord a b).toNat = min a.toNat b.toNat := by
  unfold minWord; split <;> omega

@[simp] theorem maxWord_toNat (a b : Word) : (maxWord a b).toNat = max a.toNat b.toNat := by
  unfold maxWord; split <;> omega

/-- A capacity is at least 1 (00_scope.md R9). -/
theorem capacity_pos (raw : Word) : 1 ≤ (Config.capacity raw).toNat := by
  unfold Config.capacity
  split
  · decide
  · rename_i h
    have : raw.toNat ≠ 0 := fun h0 => h (by apply BitVec.eq_of_toNat_eq; simpa using h0)
    omega

/-- `ceilDiv a b` pieces of `b` cover `a` (00_scope.md R13). -/
theorem le_ceilDiv_mul (a : Nat) {b : Nat} (hb : 0 < b) : a ≤ ceilDiv a b * b := by
  unfold ceilDiv
  have h := Nat.div_add_mod a b
  have hm := Nat.mod_lt a hb
  split
  · rw [Nat.add_mul, Nat.one_mul, Nat.mul_comm (a / b)]; omega
  · rename_i h0
    rw [Nat.add_zero, Nat.mul_comm (a / b)]; omega

/-- One piece of `b` fewer than `ceilDiv a b` does not cover `a` (00_scope.md R13). -/
theorem mul_lt_of_lt_ceilDiv {a b i : Nat} (hi : i < ceilDiv a b) : i * b < a := by
  unfold ceilDiv at hi
  have h := Nat.div_add_mod a b
  rw [Nat.mul_comm] at h
  split at hi
  · have : i * b ≤ a / b * b := Nat.mul_le_mul_right b (by omega)
    omega
  · have hb : 0 < b := by
      rcases Nat.eq_zero_or_pos b with rfl | hb
      · simp at hi
      · exact hb
    have : (i + 1) * b ≤ a / b * b := Nat.mul_le_mul_right b (by omega)
    rw [Nat.add_mul, Nat.one_mul] at this
    omega

/-- `ceilDiv` by a word never exceeds the dividend. -/
theorem ceilDiv_le (a : Nat) {b : Nat} (hb : 0 < b) : ceilDiv a b ≤ a := by
  rcases Nat.eq_zero_or_pos (ceilDiv a b) with h | h
  · omega
  · have := mul_lt_of_lt_ceilDiv (a := a) (b := b) (i := ceilDiv a b - 1) (by omega)
    have h2 : (ceilDiv a b - 1) * 1 ≤ (ceilDiv a b - 1) * b := Nat.mul_le_mul_left _ hb
    omega

/-- The value of a sum of words. -/
theorem sumWords_toNat (ws : List Word) :
    (sumWords ws).toNat = (ws.map BitVec.toNat).sum % 2 ^ 32 := by simp [sumWords]

/-- The value of a sum of bytes. -/
theorem sum32_toNat (bs : List Byte) :
    (sum32 bs).toNat = (bs.map BitVec.toNat).sum % 2 ^ 32 := by simp [sum32]

/-- Summing one more word. -/
theorem sumWords_cons (w : Word) (ws : List Word) : sumWords (w :: ws) = w + sumWords ws := by
  simp [sumWords, BitVec.ofNat_add]

/-- Summing one more byte. -/
theorem sum32_cons (b : Byte) (bs : List Byte) : sum32 (b :: bs) = b.setWidth 32 + sum32 bs := by
  unfold sum32
  simp only [List.map_cons, List.sum_cons, BitVec.ofNat_add]
  rw [BitVec.ofNat_toNat]

end Sys2Proof.Machine
end

