-- ==== Sys2Proof/Laws/Commands.lean ====
section
/-! SUPPORT. What the bodies of the commands and the verify step can do, each said once. -/

namespace Sys2Proof.Machine

/-! ### Ranges, tables and groups -/

@[simp] theorem inText_length (s : State) : s.inText.length = s.inLen.toNat := by
  simp [State.inText, State.inRange]

@[simp] theorem imgRange_length (s : State) (lo len : Nat) : (s.imgRange lo len).length = len := by
  simp [State.imgRange]

@[simp] theorem sectors_length (s : State) : s.sectors.length = s.secCount.toNat := by
  simp [State.sectors]

@[simp] theorem builtTable_length (s : State) : s.builtTable.length = s.sectorTotal := by
  simp [State.builtTable]

/-- A valid entry of the table is the sector of that index. -/
theorem sectors_get (s : State) {i : Nat} (h : i < s.secCount.toNat) :
    s.sectors[i]? = some (s.sector i) := by simp [State.sectors, h]

/-- An entry that BUILD writes is the sector it computes. -/
theorem builtTable_get (s : State) {i : Nat} (h : i < s.sectorTotal) :
    s.builtTable[i]? = some (s.buildSector i) := by simp [State.builtTable, h]

/-- Adjacent ranges of the image join. -/
theorem imgRange_append (s : State) (lo n m : Nat) :
    s.imgRange lo n ++ s.imgRange (lo + n) m = s.imgRange lo (n + m) := by
  simp [State.imgRange, List.range_add, Function.comp_def, Nat.add_assoc]

/-- A group takes at least one sector. -/
theorem groupsOf_length_le (vwin : Word) (tbl : List Sector) :
    (groupsOf vwin tbl).length ≤ tbl.length := by
  have key : ∀ (rest : List Sector) (start : Word) (first i : Nat),
      (extendGroup vwin start first i rest).length ≤ rest.length + 1 := by
    intro rest
    induction rest with
    | nil => intro start first i; simp [extendGroup]
    | cons e rest ih =>
      intro start first i
      unfold extendGroup
      split
      · have := ih start first (i + 1); simp only [List.length_cons]; omega
      · have := ih e.startAddr i (i + 1); simp only [List.length_cons]; omega
  cases tbl with
  | nil => simp [groupsOf]
  | cons e rest => exact key _ _ _ _

/-- The number of groups is a word, so VG_TOTAL holds it (10_state.md R59). -/
theorem groups_length_lt (s : State) : s.groups.length < 2 ^ 32 := by
  have h1 := groupsOf_length_le s.vwin s.sectors
  have h2 := s.secCount.isLt
  rw [sectors_length] at h1
  unfold State.groups
  omega

/-! ### Bodies -/

/-- All that BUILD's body can do (43_commands.md R265). -/
theorem buildBody_cases (s : State) :
    (s.secSize = 0 ∧ buildBody s = .err s .config 0)
      ∨ (s.secSize ≠ 0 ∧ s.capSec.toNat < s.sectorTotal
        ∧ buildBody s = .err s .sectorOvf (BitVec.ofNat 32 s.sectorTotal))
      ∨ (s.secSize ≠ 0 ∧ s.sectorTotal ≤ s.capSec.toNat ∧ buildBody s = .ok { s with
          sec := s.builtTable ++ s.sec.drop s.sectorTotal
          secCount := BitVec.ofNat 32 s.sectorTotal
          imgCsum := sumWords (s.builtTable.map Sector.csum)
          imgCrc := sumWords (s.builtTable.map Sector.crc)
          phase := .built }) := by
  unfold buildBody
  split
  · exact .inl ⟨by assumption, rfl⟩
  · split
    · exact .inr (.inl ⟨by assumption, by assumption, rfl⟩)
    · exact .inr (.inr ⟨by assumption, by omega, rfl⟩)

/-- All that VERIFY's body can do (43_commands.md R268). -/
theorem verifyBody_cases (s : State) :
    (s.vwin.toNat < s.secSize.toNat ∧ verifyBody s = .err s .config 0)
      ∨ (s.secSize.toNat ≤ s.vwin.toNat ∧ s.groups = []
        ∧ verifyBody s = .ok { initGroups s with phase := .passed })
      ∨ ∃ g gs, s.secSize.toNat ≤ s.vwin.toNat ∧ s.groups = g :: gs
        ∧ verifyBody s = .ok { present 0 g (initGroups s) with phase := .verifying } := by
  unfold verifyBody
  split
  · exact .inl ⟨by assumption, rfl⟩
  · split
    · exact .inr (.inl ⟨by omega, by assumption, rfl⟩)
    · rename_i g gs h
      exact .inr (.inr ⟨g, gs, by omega, h, rfl⟩)

/-- All that RANGE's body can do (43_commands.md R270). -/
theorem rangeBody_cases (s : State) :
    (s.capBuf.toNat < s.rangeStart.toNat + s.rangeLen.toNat
        ∧ rangeBody s = .err s .range s.rangeStart)
      ∨ (s.rangeStart.toNat + s.rangeLen.toNat ≤ s.capBuf.toNat ∧ rangeBody s = .ok { s with
          rangeCsum := sum32 (s.imgRange s.rangeStart.toNat s.rangeLen.toNat)
          rangeCrc := crc32 (s.imgRange s.rangeStart.toNat s.rangeLen.toNat) }) := by
  unfold rangeBody
  split
  · exact .inl ⟨by assumption, rfl⟩
  · exact .inr ⟨by omega, rfl⟩

/-- All that the verify step can do (42_verifier.md R230 to R234). -/
theorem execVStep_cases (s : State) :
    (s.phase ≠ .verifying ∧ execVStep s = .next (endStep (.err s .sequence vstepSequenceInfo)))
      ∨ (s.phase = .verifying ∧ s.vgResp ≠ s.vgExpect
        ∧ execVStep s = .next (endStep (.err s .verifyMismatch s.vgIdx)))
      ∨ (s.phase = .verifying ∧ s.vgResp = s.vgExpect ∧ s.vgIdx.toNat + 1 = s.vgTotal.toNat
        ∧ execVStep s = .next (endStep (.ok { s with vgIdx := s.vgTotal, phase := .passed })))
      ∨ (∃ g, s.phase = .verifying ∧ s.vgResp = s.vgExpect ∧ s.vgIdx.toNat + 1 ≠ s.vgTotal.toNat
        ∧ s.groups[s.vgIdx.toNat + 1]? = some g
        ∧ execVStep s = .next (endStep (.ok (present (s.vgIdx.toNat + 1) g s))))
      ∨ (s.phase = .verifying ∧ s.vgResp = s.vgExpect ∧ s.vgIdx.toNat + 1 ≠ s.vgTotal.toNat
        ∧ s.groups[s.vgIdx.toNat + 1]? = none ∧ execVStep s = .fault .noSuchGroup) := by
  unfold execVStep
  split
  · exact .inl ⟨by assumption, rfl⟩
  · rename_i hp
    have hp := Decidable.not_not.1 hp
    split
    · exact .inr (.inl ⟨hp, by assumption, rfl⟩)
    · rename_i hr
      have hr := Decidable.not_not.1 hr
      split
      · exact .inr (.inr (.inl ⟨hp, hr, by assumption, rfl⟩))
      · split
        · rename_i hl _ g hg
          exact .inr (.inr (.inr (.inl ⟨g, hp, hr, hl, hg, rfl⟩)))
        · rename_i hl _ hg
          exact .inr (.inr (.inr (.inr ⟨hp, hr, hl, hg, rfl⟩)))

end Sys2Proof.Machine
end

