-- ==== Sys2Proof/Laws/Decode.lean ====
section
/-! SUPPORT. What the readers of hex digits, bytes and records can answer, each said once. -/

namespace Sys2Proof

/-- The character of a hex digit has that digit's value (30_encoding.md R121). -/
theorem hexVal_hexDigit (n : Nibble) : hexVal (hexDigit n) = some n := by
  revert n; decide

/-- The high and the low digit of a byte make the byte (30_encoding.md R122). -/
theorem high_low (b : Byte) : b.extractLsb' 4 4 ++ b.extractLsb' 0 4 = b := by
  revert b; decide +kernel

/-- The two digits of a byte read as that byte. -/
theorem takeByte_hexByte (k : Nat) (b : Byte) (t : List Byte) :
    takeByte k (hexByte b ++ t) = .ok (b, t) := by
  simp [hexByte, takeByte, hexVal_hexDigit, high_low]

/-- The digits of several bytes read as those bytes. -/
theorem takeBytes_hexBytes (k : Nat) (bs : List Byte) (t : List Byte) :
    takeBytes bs.length k (bs.flatMap hexByte ++ t) = .ok (bs, t) := by
  induction bs generalizing k with
  | nil => rfl
  | cons b bs ih => simp [takeBytes, List.append_assoc, takeByte_hexByte, ih]

@[simp] theorem hexByte_length (b : Byte) : (hexByte b).length = 2 := rfl

theorem hexBytes_length (bs : List Byte) : (bs.flatMap hexByte).length = 2 * bs.length := by
  induction bs with
  | nil => rfl
  | cons b bs ih => simp only [List.flatMap_cons, List.length_append, hexByte_length, ih,
      List.length_cons]; omega

/-- All of `takeByte`'s answers without error. -/
theorem takeByte_ok {k : Nat} {t t' : List Byte} {b : Byte} (h : takeByte k t = .ok (b, t')) :
    ∃ c c' hi lo, t = c :: c' :: t' ∧ hexVal c = some hi ∧ hexVal c' = some lo ∧ b = hi ++ lo := by
  unfold takeByte at h
  split at h
  · cases h
  · rename_i c t0
    split at h
    · cases h
    · cases h
    · rename_i hi c' t'' hc
      split at h
      · cases h
      · rename_i lo hc'
        cases h
        exact ⟨c, c', hi, lo, rfl, hc, hc', rfl⟩

/-- The scan fails at index `j` of the text `t`, which is index `k + j` of the record; every character
before it is a hex digit (40_hex_decoder.md R143). -/
def FailsAt (k j : Nat) (t : List Byte) (e : ScanReject) : Prop :=
  ((e = .truncated (k + j) ∧ t.length = j)
      ∨ (e = .badHexChar (k + j) ∧ ∃ c, t[j]? = some c ∧ hexVal c = none))
    ∧ ∀ i, i < j → ∃ c n, t[i]? = some c ∧ hexVal c = some n

/-- All of `takeByte`'s errors. -/
theorem takeByte_error {k : Nat} {t : List Byte} {e : ScanReject} (h : takeByte k t = .error e) :
    ∃ j, j < 2 ∧ FailsAt k j t e := by
  unfold takeByte at h
  split at h
  · cases h; exact ⟨0, by omega, .inl ⟨rfl, rfl⟩, by simp⟩
  · rename_i c t0
    split at h
    · rename_i hc
      cases h; exact ⟨0, by omega, .inr ⟨rfl, c, rfl, hc⟩, by simp⟩
    · rename_i n hc
      cases h
      refine ⟨1, by omega, .inl ⟨rfl, rfl⟩, fun i hi => ?_⟩
      obtain rfl : i = 0 := by omega
      exact ⟨c, n, rfl, hc⟩
    · rename_i n c' t' hc
      split at h
      · rename_i hc'
        cases h
        refine ⟨1, by omega, .inr ⟨rfl, c', rfl, hc'⟩, fun i hi => ?_⟩
        obtain rfl : i = 0 := by omega
        exact ⟨c, n, rfl, hc⟩
      · cases h

/-- An error after `n` hex digits have been read. -/
theorem FailsAt.after {k j n : Nat} {pre t : List Byte} {e : ScanReject} (hn : pre.length = n)
    (hp : ∀ c ∈ pre, ∃ v, hexVal c = some v) (h : FailsAt (k + n) j t e) :
    FailsAt k (n + j) (pre ++ t) e := by
  subst hn
  refine ⟨?_, fun i hi => ?_⟩
  · rcases h.1 with ⟨he, hl⟩ | ⟨he, c, hc, hv⟩
    · exact .inl ⟨by rw [he, Nat.add_assoc], by simp [hl]⟩
    · refine .inr ⟨by rw [he, Nat.add_assoc], c, ?_, hv⟩
      rw [List.getElem?_append_right (by omega)]
      simpa using hc
  · by_cases hlt : i < pre.length
    · obtain ⟨v, hv⟩ := hp pre[i] (List.getElem_mem hlt)
      exact ⟨pre[i], v, by rw [List.getElem?_append_left hlt, List.getElem?_eq_getElem hlt], hv⟩
    · obtain ⟨c, v, hc, hv⟩ := h.2 (i - pre.length) (by omega)
      exact ⟨c, v, by rw [List.getElem?_append_right (by omega)]; exact hc, hv⟩

/-- What `takeByte` consumes: two hex digits. -/
theorem takeByte_prefix {k : Nat} {t t' : List Byte} {b : Byte} (h : takeByte k t = .ok (b, t')) :
    ∃ pre, t = pre ++ t' ∧ pre.length = 2 ∧ ∀ c ∈ pre, ∃ v, hexVal c = some v := by
  obtain ⟨c, c', hi, lo, rfl, hc, hc', -⟩ := takeByte_ok h
  refine ⟨[c, c'], rfl, rfl, fun x hx => ?_⟩
  rcases List.mem_cons.1 hx with rfl | hx
  · exact ⟨hi, hc⟩
  · rw [List.mem_singleton] at hx; exact ⟨lo, hx ▸ hc'⟩

/-- What `takeBytes` reads and consumes: `n` bytes, of `2 n` hex digits. -/
theorem takeBytes_ok {n k : Nat} {t t' : List Byte} {bs : List Byte}
    (h : takeBytes n k t = .ok (bs, t')) :
    bs.length = n ∧ ∃ pre, t = pre ++ t' ∧ pre.length = 2 * n
      ∧ ∀ c ∈ pre, ∃ v, hexVal c = some v := by
  induction n generalizing k t bs with
  | zero => cases h; exact ⟨rfl, [], rfl, rfl, by simp⟩
  | succ n ih =>
    unfold takeBytes at h
    split at h
    · cases h
    · rename_i b t1 h1
      split at h
      · cases h
      · rename_i bs' t2 h2
        cases h
        obtain ⟨hl, pre', ht', hp', hd'⟩ := ih h2
        obtain ⟨pre, ht, hp, hd⟩ := takeByte_prefix h1
        refine ⟨by simp [hl], pre ++ pre', by rw [ht, ht', List.append_assoc], ?_, fun c hc => ?_⟩
        · rw [List.length_append, hp, hp']; omega
        · exact (List.mem_append.1 hc).elim (hd c) (hd' c)

/-- All of `takeBytes`'s errors. -/
theorem takeBytes_error {n k : Nat} {t : List Byte} {e : ScanReject}
    (h : takeBytes n k t = .error e) : ∃ j, j < 2 * n ∧ FailsAt k j t e := by
  induction n generalizing k t with
  | zero => cases h
  | succ n ih =>
    unfold takeBytes at h
    split at h
    · rename_i e' h1
      cases h
      obtain ⟨j, hj, hf⟩ := takeByte_error h1
      exact ⟨j, by omega, hf⟩
    · rename_i b t1 h1
      split at h
      · rename_i e' h2
        cases h
        obtain ⟨pre, rfl, hp, hd⟩ := takeByte_prefix h1
        obtain ⟨j, hj, hf⟩ := ih h2
        exact ⟨2 + j, by omega, hf.after hp hd⟩
      · cases h

/-- The terminator's characters stand at the start of the text it was read from. -/
theorem terminatorOf_prefix (t : List Byte) : ∃ rest, t = (terminatorOf t).chars ++ rest := by
  unfold terminatorOf
  split
  · exact ⟨[], rfl⟩
  · split
    · rename_i h; exact ⟨[], by simp [Terminator.chars, h]⟩
    · split
      · rename_i h; exact ⟨[], by simp [Terminator.chars, h]⟩
      · exact ⟨_, rfl⟩
  · rename_i c c' t'
    split
    · rename_i h
      split
      · rename_i h'; exact ⟨t', by simp [Terminator.chars, h, h']⟩
      · exact ⟨c' :: t', by simp [Terminator.chars, h]⟩
    · split
      · rename_i h; exact ⟨c' :: t', by simp [Terminator.chars, h]⟩
      · exact ⟨_, rfl⟩

/-- All of `scanRecord`'s answers without error: the payload is as long as the digits LL say, the digits
and the terminator stand at the start of the text, and the terminator is the one found after them
(30_encoding.md R120, R123, R124). -/
theorem scanRecord_ok {t : List Byte} {ty : Byte} {r : HexRecord}
    (h : scanRecord t = .ok (ty, r)) :
    r.payload.length ≤ 255 ∧ ∃ pre rest, t = pre ++ rest ∧ pre.length = 10 + 2 * r.payload.length
      ∧ (∀ c ∈ pre, ∃ v, hexVal c = some v) ∧ r.term = terminatorOf rest := by
  unfold scanRecord at h
  split at h
  · cases h
  rename_i len t1 h1
  split at h
  · cases h
  rename_i a1 t2 h2
  split at h
  · cases h
  rename_i a2 t3 h3
  split at h
  · cases h
  rename_i ty' t4 h4
  split at h
  · cases h
  rename_i pl t5 h5
  split at h
  · cases h
  rename_i ck t6 h6
  cases h
  obtain ⟨p1, rfl, l1, d1⟩ := takeByte_prefix h1
  obtain ⟨p2, rfl, l2, d2⟩ := takeByte_prefix h2
  obtain ⟨p3, rfl, l3, d3⟩ := takeByte_prefix h3
  obtain ⟨p4, rfl, l4, d4⟩ := takeByte_prefix h4
  obtain ⟨hl, p5, rfl, l5, d5⟩ := takeBytes_ok h5
  obtain ⟨p6, rfl, l6, d6⟩ := takeByte_prefix h6
  refine ⟨by have := len.isLt; simp only; omega, p1 ++ p2 ++ p3 ++ p4 ++ p5 ++ p6, t6, by simp, ?_,
    fun c hc => ?_, rfl⟩
  · simp only [List.length_append]; omega
  · simp only [List.mem_append] at hc
    rcases hc with ((((hc | hc) | hc) | hc) | hc) | hc
    exacts [d1 c hc, d2 c hc, d3 c hc, d4 c hc, d5 c hc, d6 c hc]

/-- A scanned record occupies at least ten characters, all of them in the text (30_encoding.md R124). -/
theorem scanRecord_size {t : List Byte} {ty : Byte} {r : HexRecord}
    (h : scanRecord t = .ok (ty, r)) : 10 ≤ r.size ∧ r.size ≤ t.length := by
  obtain ⟨-, pre, rest, rfl, hp, -, ht⟩ := scanRecord_ok h
  obtain ⟨rest', hr⟩ := terminatorOf_prefix rest
  have hl := congrArg List.length hr
  unfold HexRecord.size
  rw [ht]
  simp only [List.length_append] at hl ⊢
  omega

/-- An offset with a register is a listed one (10_state.md R30). -/
theorem regAt_isSome (off : BitVec 8) : (regAt off).isSome = offsetListed off := by
  revert off; decide +kernel

/-- The register at a register's offset is that register (10_state.md R30). -/
theorem regAt_offset (r : Reg) : regAt r.offset = some r := by
  cases r <;> decide

/-- The offset of the register at an offset is that offset (10_state.md R30). -/
theorem offset_regAt {off : BitVec 8} {r : Reg} (h : regAt off = some r) : r.offset = off := by
  have : ∀ off : BitVec 8, ∀ r ∈ regAt off, r.offset = off := by decide +kernel
  exact this off r h

end Sys2Proof
end

