-- ==== Sys2Proof/Laws/Records.lean ====
section
/-! SUPPORT. What the record types and the decoding loop can do, each said once. -/

namespace Sys2Proof.Machine

/-! ### Operands -/

/-- The absolute address is the exact sum: it never wraps (40_hex_decoder.md R166). -/
theorem absoluteAddr_toNat (ext addr : BitVec 16) :
    (absoluteAddr ext addr).toNat = addr.toNat + ext.toNat * 2 ^ 16 := by
  have h1 := ext.isLt
  have h2 := addr.isLt
  unfold absoluteAddr
  rw [BitVec.toNat_add, BitVec.toNat_shiftLeft, BitVec.toNat_setWidth, BitVec.toNat_setWidth,
    Nat.shiftLeft_eq]
  omega

/-- The value of an extended-address record's two bytes (30_encoding.md R126). -/
theorem extValue_toNat (d0 d1 : Byte) : (extValue d0 d1).toNat = d0.toNat * 256 + d1.toNat := by
  have h1 := d0.isLt
  have h2 := d1.isLt
  unfold extValue
  rw [BitVec.toNat_or, BitVec.toNat_shiftLeft, BitVec.toNat_setWidth, BitVec.toNat_setWidth,
    Nat.mod_eq_of_lt (show d0.toNat < 2 ^ 16 by omega),
    Nat.mod_eq_of_lt (show d1.toNat < 2 ^ 16 by omega),
    Nat.mod_eq_of_lt (show d0.toNat <<< 8 < 2 ^ 16 by rw [Nat.shiftLeft_eq]; omega),
    ← Nat.shiftLeft_add_eq_or_of_lt h2, Nat.shiftLeft_eq]

/-! ### One record -/

/-- All that a data record can do (41_image_builder.md R181 to R186). -/
theorem dataRecord_cases (r : HexRecord) (s : State) (a0 : Nat)
    (ha : a0 = r.addr.toNat + s.ext.toNat * 2 ^ 16) :
    (s.maxAddr.toNat ≤ a0 ∧ dataRecord r s = .err s .addrRange s.cur)
      ∨ (a0 < s.maxAddr.toNat ∧ s.maxAddr.toNat < a0 + r.payload.length
        ∧ dataRecord r s = .err s .spanRange s.cur)
      ∨ (a0 < s.maxAddr.toNat ∧ r.payload = [] ∧ dataRecord r s = .ok s)
      ∨ (a0 < s.maxAddr.toNat ∧ a0 + r.payload.length ≤ s.maxAddr.toNat ∧ r.payload ≠ []
        ∧ dataRecord r s = .ok (widenBounds (BitVec.ofNat 32 a0)
            (BitVec.ofNat 32 (a0 + r.payload.length))
            { s with imgBuf := s.imgBuf.writeBytes a0 r.payload })) := by
  have hA := absoluteAddr_toNat s.ext r.addr
  rw [← ha] at hA
  have hw : absoluteAddr s.ext r.addr = BitVec.ofNat 32 a0 := by
    rw [← hA, BitVec.ofNat_toNat, BitVec.setWidth_eq]
  unfold dataRecord imageDataRecord
  rw [hA]
  split
  · exact .inl ⟨by assumption, rfl⟩
  · split
    · exact .inr (.inl ⟨by omega, by assumption, rfl⟩)
    · split
      · exact .inr (.inr (.inl ⟨by omega, by assumption, rfl⟩))
      · refine .inr (.inr (.inr ⟨by omega, by omega, by assumption, ?_⟩))
        rw [hw, BitVec.ofNat_add]

/-- The bounds after a data record with data, before it at most the machine's largest word
(41_image_builder.md R185). -/
theorem widenBounds_toNat (a e : Word) (s : State) :
    (s.haveData = false → (widenBounds a e s).startAddr = a ∧ (widenBounds a e s).endAddr = e)
      ∧ (s.haveData = true →
        (widenBounds a e s).startAddr.toNat = min s.startAddr.toNat a.toNat
          ∧ (widenBounds a e s).endAddr.toNat = max s.endAddr.toNat e.toNat)
      ∧ (widenBounds a e s).haveData = true := by
  unfold widenBounds
  cases s.haveData <;> simp

/-- `WidenBounds` writes the two bounds and HAVE_DATA alone (41_image_builder.md R185). -/
theorem widenBounds_frame (a e : Word) (s : State) :
    widenBounds a e s = { s with
      startAddr := (widenBounds a e s).startAddr
      endAddr := (widenBounds a e s).endAddr
      haveData := (widenBounds a e s).haveData } := by
  unfold widenBounds
  split <;> rfl

/-- A record that raises leaves the state as it is, and its error is one of three with the record's start
(40_hex_decoder.md R163 to R165, R167, 41_image_builder.md R181). -/
theorem interpret_err {ty : Byte} {r : HexRecord} {s s' : State} {code : ErrCode} {info : Word}
    (h : interpret ty r s = .err s' code info) :
    s' = s ∧ info = s.cur ∧ (code = .recType ∨ code = .addrRange ∨ code = .spanRange) := by
  have hr : refuseRecord s = .err s' code info →
      s' = s ∧ info = s.cur ∧ (code = .recType ∨ code = .addrRange ∨ code = .spanRange) := by
    intro h; cases h; exact ⟨rfl, rfl, .inl rfl⟩
  unfold interpret at h
  split at h
  · rcases dataRecord_cases r s _ rfl with ⟨-, hd⟩ | ⟨-, -, hd⟩ | ⟨-, -, hd⟩ | ⟨-, -, -, hd⟩ <;>
      rw [hd] at h <;> cases h <;> simp
  · split at h
    · cases h
    · split at h
      · split at h
        · exact hr h
        · unfold ext04Record at h
          split at h
          · cases h
          · exact hr h
      · split at h
        · split at h
          · unfold ext02Record at h
            split at h
            · cases h
            · exact hr h
          · exact hr h
        · exact hr h

/-- What a record that does not raise can write: the image, its bounds, EXT and EOF_SEEN
(40_hex_decoder.md R155 to R162). -/
theorem interpret_frame {ty : Byte} {r : HexRecord} {s s' : State}
    (h : interpret ty r s = .ok s') :
    s' = { s with imgBuf := s'.imgBuf, startAddr := s'.startAddr, endAddr := s'.endAddr,
                  haveData := s'.haveData, ext := s'.ext, eofSeen := s'.eofSeen } := by
  unfold interpret at h
  split at h
  · rcases dataRecord_cases r s _ rfl with ⟨-, hd⟩ | ⟨-, -, hd⟩ | ⟨-, -, hd⟩ | ⟨-, -, -, hd⟩ <;>
      rw [hd] at h <;> cases h
    · rfl
    · rw [widenBounds_frame]
  · split at h
    · cases h; rfl
    · split at h
      · split at h
        · cases h
        · unfold ext04Record at h
          split at h
          · cases h; rfl
          · cases h
      · split at h
        · split at h
          · unfold ext02Record at h
            split at h
            · cases h; rfl
            · cases h
          · cases h
        · cases h

/-- A record of another type than DATA that does not raise leaves the image and its bounds. -/
theorem interpret_other {ty : Byte} {r : HexRecord} {s s' : State} (hty : ty ≠ 0x00#8)
    (h : interpret ty r s = .ok s') :
    s' = { s with ext := s'.ext, eofSeen := s'.eofSeen } := by
  unfold interpret at h
  rw [if_neg hty] at h
  split at h
  · cases h; rfl
  · split at h
    · split at h
      · cases h
      · unfold ext04Record at h
        split at h
        · cases h; rfl
        · cases h
    · split at h
      · split at h
        · unfold ext02Record at h
          split at h
          · cases h; rfl
          · cases h
        · cases h
      · cases h

/-! ### The loop -/

/-- The rule of the loop: from `inv`, kept by every turn that goes on, the loop ends in `done` without
error and in `bad` with one. It holds for every `fuel` that is at least the text's length. -/
theorem decodeLoop_rule (inv : List Byte → State → Prop) (done : State → Prop)
    (bad : State → ErrCode → Word → Prop)
    (hnil : ∀ s, inv [] s → done s)
    (hscan : ∀ t s e, inv t s → t ≠ [] → scanRecord t = .error e →
      ∃ code info, scanError s e = .err s code info ∧ bad s code info)
    (herr : ∀ t s ty r code info, inv t s → scanRecord t = .ok (ty, r) →
      interpret ty r s = .err s code info → bad s code info)
    (hstop : ∀ t s s' ty r, inv t s → scanRecord t = .ok (ty, r) → interpret ty r s = .ok s' →
      stopsDecoding ty (passRecord r s') = true → done (passRecord r s'))
    (hgo : ∀ t s s' ty r, inv t s → scanRecord t = .ok (ty, r) → interpret ty r s = .ok s' →
      stopsDecoding ty (passRecord r s') = false → inv (t.drop r.size) (passRecord r s'))
    (fuel : Nat) (t : List Byte) (s : State) (hf : t.length ≤ fuel) (hi : inv t s) :
    (∃ s', decodeLoop fuel t s = .ok s' ∧ done s')
      ∨ ∃ s' code info, decodeLoop fuel t s = .err s' code info ∧ bad s' code info := by
  induction fuel generalizing t s with
  | zero =>
    obtain rfl : t = [] := List.length_eq_zero_iff.1 (by omega)
    exact .inl ⟨s, rfl, hnil s hi⟩
  | succ fuel ih =>
    cases t with
    | nil => exact .inl ⟨s, rfl, hnil s hi⟩
    | cons c t =>
      cases hs : scanRecord (c :: t) with
      | error e =>
        obtain ⟨code, info, he, hb⟩ := hscan _ s e hi (by simp) hs
        exact .inr ⟨s, code, info, by simp only [decodeLoop, hs, he], hb⟩
      | ok p =>
        obtain ⟨ty, r⟩ := p
        cases hin : interpret ty r s with
        | err s' code info =>
          obtain ⟨rfl, -, -⟩ := interpret_err hin
          exact .inr ⟨s', code, info, by simp only [decodeLoop, hs, hin, recordTurn],
            herr _ s' ty r code info hi hs hin⟩
        | ok s' =>
          cases hst : stopsDecoding ty (passRecord r s') with
          | true =>
            exact .inl ⟨passRecord r s', by simp only [decodeLoop, hs, hin, recordTurn, hst, if_true],
              hstop _ s s' ty r hi hs hin hst⟩
          | false =>
            have hsz := scanRecord_size hs
            have hl : decodeLoop (fuel + 1) (c :: t) s
                = decodeLoop fuel ((c :: t).drop r.size) (passRecord r s') := by
              simp only [decodeLoop, hs, hin, recordTurn, hst, Bool.false_eq_true, if_false]
            rw [hl]
            refine ih _ _ ?_ (hgo _ s s' ty r hi hs hin hst)
            simp only [List.length_drop] at hsz ⊢
            omega

/-- The loop's answer does not depend on the fuel, once there is as much as the text is long. -/
theorem decodeLoop_fuel {m n : Nat} {t : List Byte} {s : State} (hm : t.length ≤ m)
    (hn : t.length ≤ n) : decodeLoop m t s = decodeLoop n t s := by
  induction m generalizing n t s with
  | zero =>
    obtain rfl : t = [] := List.length_eq_zero_iff.1 (by omega)
    cases n <;> rfl
  | succ m ih =>
    cases t with
    | nil => cases n <;> rfl
    | cons c t =>
      cases n with
      | zero => simp only [List.length_cons] at hn; omega
      | succ n =>
        unfold decodeLoop
        cases hs : scanRecord (c :: t) with
        | error e => rfl
        | ok p =>
          obtain ⟨ty, r⟩ := p
          have hsz := scanRecord_size hs
          have hl : ((c :: t).drop r.size).length = t.length + 1 - r.size := by simp
          simp only [List.length_cons] at hm hn
          dsimp only
          cases recordTurn r (interpret ty r s) with
          | err => rfl
          | ok s' =>
            dsimp only
            split
            · rfl
            · exact ih (by omega) (by omega)

end Sys2Proof.Machine
end

