-- ==== Sys2Proof/Laws/Step.lean ====
section
/-! SUPPORT. Everything one step can do: whose turn it is, what a decoded word can be, and the frame of
each kind of turn. -/

namespace Sys2Proof.Machine

/-- A run of `k + 1` steps is one step and a run of `k`. -/
theorem run_succ (M : Host.Core) (k : Nat) {s u : M.State} (h : M.step s = .next u) :
    M.run (k + 1) s = M.run k u := by rw [Host.Core.run, h]

/-- The state a turn starts from: its event is off the schedule. -/
theorem fetch_state (s : State) : (fetch s).2 = { s with schedule := s.schedule.tail } := by
  unfold fetch
  split <;> rename_i h <;> simp only [h, List.tail_nil, List.tail_cons]
  simp [← h]

/-- Where a turn comes from: the schedule's head, or what is pending. -/
theorem fetch_turn_cases (s : State) :
    ((s.schedule = [] ∨ ∃ rest, s.schedule = .engine :: rest) ∧ (fetch s).1 = engineTurn s)
      ∨ (∃ sel v rest, s.schedule = .bus sel v :: rest ∧ (fetch s).1 = .instr (decodeBus sel v))
      ∨ (∃ rest, s.schedule = .reset :: rest ∧ (fetch s).1 = .reset) := by
  unfold fetch
  split
  · rename_i h; exact .inl ⟨.inl h, rfl⟩
  · rename_i rest h; exact .inl ⟨.inr ⟨rest, h⟩, rfl⟩
  · rename_i sel v rest h; exact .inr (.inl ⟨sel, v, rest, h, rfl⟩)
  · rename_i rest h; exact .inr (.inr ⟨rest, h, rfl⟩)

/-- All that a step that goes on can do: a turn of nobody, a bus transaction, the pending command word,
the verify step, or a reset, each from the state without its event. -/
theorem step_cases {s t : State} (h : step s = .next t) :
    ((fetch s).1 = .idle ∧ s.pend = .none ∧ t = (fetch s).2)
      ∨ (∃ sel v rest, s.schedule = .bus sel v :: rest ∧ (fetch s).1 = .instr (decodeBus sel v)
        ∧ exec (decodeBus sel v) (fetch s).2 = .next t)
      ∨ (∃ w, s.pend = .cmd w ∧ (fetch s).1 = .instr (decodeCmd w)
        ∧ exec (decodeCmd w) (fetch s).2 = .next t)
      ∨ ((fetch s).1 = .verifyStep ∧ s.pend = .vstep ∧ execVStep (fetch s).2 = .next t)
      ∨ ((fetch s).1 = .reset ∧ t = resetEvent (fetch s).2) := by
  have he : ∀ p : Turn × State, p = fetch s → step s = match p with
      | (.idle, s') => .next s'
      | (.instr i, s') => exec i s'
      | (.verifyStep, s') => execVStep s'
      | (.reset, s') => .next (resetEvent s') := by rintro p rfl; rfl
  rw [he ((fetch s).1, (fetch s).2) rfl] at h
  rcases fetch_turn_cases s with ⟨-, ht⟩ | ⟨sel, v, rest, hs, ht⟩ | ⟨rest, hs, ht⟩
  · unfold engineTurn at ht
    cases hp : s.pend with
    | none =>
      rw [hp] at ht
      rw [ht] at h
      cases h
      exact .inl ⟨ht, rfl, rfl⟩
    | cmd w =>
      rw [hp] at ht
      rw [ht] at h
      exact .inr (.inr (.inl ⟨w, rfl, ht, h⟩))
    | vstep =>
      rw [hp] at ht
      rw [ht] at h
      exact .inr (.inr (.inr (.inl ⟨ht, rfl, h⟩)))
  · rw [ht] at h
    exact .inr (.inl ⟨sel, v, rest, hs, ht, h⟩)
  · rw [ht] at h
    cases h
    exact .inr (.inr (.inr (.inr ⟨ht, rfl⟩)))

/-- All that a bus transaction can be. -/
theorem decodeBus_cases (sel : Selector) (v : Word) :
    (∃ r : Reg, decodeBus sel v = r.readInstr) ∨ (∃ r : Reg, decodeBus sel v = r.writeInstr v)
      ∨ decodeBus sel v = .reservedAccess sel v := by
  unfold decodeBus
  split
  · exact .inr (.inr rfl)
  · rename_i r _
    split
    · exact .inr (.inl ⟨r, rfl⟩)
    · exact .inl ⟨r, rfl⟩

/-- All that a command word can be (43_commands.md R250). -/
theorem decodeCmd_cases (w : Word) :
    (w = 0#32 ∧ decodeCmd w = .nop) ∨ (w = 1#32 ∧ decodeCmd w = .clear)
      ∨ (w = 2#32 ∧ decodeCmd w = .decode) ∨ (w = 3#32 ∧ decodeCmd w = .build)
      ∨ (w = 4#32 ∧ decodeCmd w = .verify) ∨ (w = 5#32 ∧ decodeCmd w = .range)
      ∨ (∃ lo, decodeCmd w = .illegalOp67 lo) ∨ (∃ lo, decodeCmd w = .illegalOp8F lo)
      ∨ decodeCmd w = .illegalRsv w := by
  unfold decodeCmd
  split
  · simp
  · split
    · simp [*]
    · split
      · simp [*]
      · split
        · simp [*]
        · split
          · simp [*]
          · split
            · simp [*]
            · split
              · simp [*]
              · split <;> simp

/-- The frame of a read: the word answered, the draws, and the two ports' pointers. -/
theorem exec_read_frame {r : Reg} {s t : State} (h : exec r.readInstr s = .next t) :
    t = { s with rdata := t.rdata, draws := t.draws, inAddr := t.inAddr, imgAddr := t.imgAddr } := by
  have key : ∀ rule : State → State, Host.Outcome.next (φ := Fault) (ρ := Refusal) (hostRead rule s)
      = .next t → (∀ u, u = rule s → u = { s with
        rdata := u.rdata, draws := u.draws, inAddr := u.inAddr, imgAddr := u.imgAddr }) →
      t = { s with rdata := t.rdata, draws := t.draws, inAddr := t.inAddr, imgAddr := t.imgAddr } := by
    intro rule h hr
    cases h
    rcases hostRead_cases rule s with ⟨-, hh⟩ | ⟨-, hh⟩ <;> rw [hh]
    · rfl
    · exact hr _ rfl
  cases r
  case id | cmd | status | capBuf | capIn | capSec => cases h; rfl
  all_goals exact key _ h (by rintro u rfl; rfl)

/-- The frame of a write: the profile, DROP, the plain read-write registers, IN, VG_RESP and PEND. -/
theorem exec_write_frame {r : Reg} {v : Word} {s t : State}
    (h : exec (r.writeInstr v) s = .next t) :
    t = { s with
      ctrl := t.ctrl, maxAddr := t.maxAddr, secSize := t.secSize, vwin := t.vwin, drop := t.drop,
      inAddr := t.inAddr, inLen := t.inLen, imgAddr := t.imgAddr, secIdx := t.secIdx,
      rangeStart := t.rangeStart, rangeLen := t.rangeLen, inBuf := t.inBuf, vgResp := t.vgResp,
      pend := t.pend } := by
  have key : ∀ rule : State → State, Host.Outcome.next (φ := Fault) (ρ := Refusal) (hostWrite rule s)
      = .next t → (∀ u, u = rule s → u = { s with
        ctrl := u.ctrl, maxAddr := u.maxAddr, secSize := u.secSize, vwin := u.vwin, drop := u.drop,
        inAddr := u.inAddr, inLen := u.inLen, imgAddr := u.imgAddr, secIdx := u.secIdx,
        rangeStart := u.rangeStart, rangeLen := u.rangeLen, inBuf := u.inBuf, vgResp := u.vgResp,
        pend := u.pend }) →
      t = { s with
        ctrl := t.ctrl, maxAddr := t.maxAddr, secSize := t.secSize, vwin := t.vwin, drop := t.drop,
        inAddr := t.inAddr, inLen := t.inLen, imgAddr := t.imgAddr, secIdx := t.secIdx,
        rangeStart := t.rangeStart, rangeLen := t.rangeLen, inBuf := t.inBuf, vgResp := t.vgResp,
        pend := t.pend } := by
    intro rule h hr
    cases h
    rcases hostWrite_cases rule s with ⟨-, hh⟩ | ⟨-, hh⟩ <;> rw [hh]
    · rfl
    · exact hr _ rfl
  cases r
  case ctrl | maxAddr | secSize | vwin | cmd | status | vgResp =>
    exact key _ h (by rintro u rfl; beta_reduce; split <;> rfl)
  all_goals exact key _ h (by rintro u rfl; rfl)

/-- The frame of a reserved access: at most the word answered (44_bus_access.md R304). -/
theorem exec_reserved_frame {sel : Selector} {v : Word} {s t : State}
    (h : exec (.reservedAccess sel v) s = .next t) : t = { s with rdata := t.rdata } := by
  cases h
  split <;> rfl

end Sys2Proof.Machine
end

