-- ==== Sys2Proof/Laws/PerInstr.lean ====
section
/-! SUPPORT. The opcode spaces are apart (00_scope.md R3): what decodes to an instruction is of the space
that instruction is encoded in. One lemma per constructor. -/

namespace Sys2Proof.Laws.OpcodeSpaceKept

/-- Every packet that decodes to `i` is of the opcode space of `i`'s own encoding (00_scope.md R3). -/
def Statement (i : Instr) : Prop :=
  ∀ (usesCrc : Bool) (p : Packet), decode usesCrc p = .ok i → p.space = (encode i).space

/-- A command word decodes to a command. -/
theorem command_space (w : Word) : (encode (decodeCmd w)).space = .command := by
  rcases Machine.decodeCmd_cases w with ⟨-, h⟩ | ⟨-, h⟩ | ⟨-, h⟩ | ⟨-, h⟩ | ⟨-, h⟩ | ⟨-, h⟩ | ⟨lo, h⟩ |
    ⟨lo, h⟩ | h <;> rw [h] <;> rfl

/-- A transaction decodes to a transaction. -/
theorem bus_space (sel : Selector) (v : Word) : (encode (decodeBus sel v)).space = .bus := by
  rcases Machine.decodeBus_cases sel v with ⟨r, h⟩ | ⟨r, h⟩ | h <;> rw [h]
  · cases r <;> rfl
  · cases r <;> rfl
  · rfl

/-- A record type decodes to a record instruction. -/
theorem record_space (usesCrc : Bool) (ty : Byte) (r : HexRecord) :
    (encode (recordInstr usesCrc ty r)).space = .record := by
  unfold recordInstr
  repeat' split
  all_goals rfl

/-- The statement holds of every instruction. -/
theorem all (i : Instr) : Statement i := by
  intro usesCrc p h
  cases p with
  | command w => cases h; exact (command_space w).symm
  | bus sel v => cases h; exact (bus_space sel v).symm
  | record chars =>
    unfold decode decodeRecord at h
    cases hs : scanRecord chars with
    | error e => simp only [hs] at h; cases h
    | ok q =>
      simp only [hs] at h
      split at h
      · cases h
      · cases h; exact (record_space usesCrc q.1 q.2).symm

theorem nop : Statement .nop := all _
theorem clear : Statement .clear := all _
theorem decode : Statement .decode := all _
theorem build : Statement .build := all _
theorem verify : Statement .verify := all _
theorem range : Statement .range := all _
theorem illegalOp67 (lo : BitVec 1) : Statement (.illegalOp67 lo) := all _
theorem illegalOp8F (lo : BitVec 3) : Statement (.illegalOp8F lo) := all _
theorem illegalRsv (w : Word) : Statement (.illegalRsv w) := all _
theorem data (r : HexRecord) : Statement (.data r) := all _
theorem eof (r : HexRecord) : Statement (.eof r) := all _
theorem ext04 (r : HexRecord) : Statement (.ext04 r) := all _
theorem ext02 (r : HexRecord) : Statement (.ext02 r) := all _
theorem extNotSelected (ty : Byte) (r : HexRecord) : Statement (.extNotSelected ty r) := all _
theorem reservedType (ty : Byte) (r : HexRecord) : Statement (.reservedType ty r) := all _
theorem rdId : Statement .rdId := all _
theorem wrId (v : Word) : Statement (.wrId v) := all _
theorem rdCtrl : Statement .rdCtrl := all _
theorem wrCtrl (v : Word) : Statement (.wrCtrl v) := all _
theorem rdMaxAddr : Statement .rdMaxAddr := all _
theorem wrMaxAddr (v : Word) : Statement (.wrMaxAddr v) := all _
theorem rdSecSize : Statement .rdSecSize := all _
theorem wrSecSize (v : Word) : Statement (.wrSecSize v) := all _
theorem rdVwin : Statement .rdVwin := all _
theorem wrVwin (v : Word) : Statement (.wrVwin v) := all _
theorem rdCmd : Statement .rdCmd := all _
theorem wrCmd (v : Word) : Statement (.wrCmd v) := all _
theorem rdStatus : Statement .rdStatus := all _
theorem wrStatus (v : Word) : Statement (.wrStatus v) := all _
theorem rdErrInfo : Statement .rdErrInfo := all _
theorem wrErrInfo (v : Word) : Statement (.wrErrInfo v) := all _
theorem rdInAddr : Statement .rdInAddr := all _
theorem wrInAddr (v : Word) : Statement (.wrInAddr v) := all _
theorem rdInData : Statement .rdInData := all _
theorem wrInData (v : Word) : Statement (.wrInData v) := all _
theorem rdInLen : Statement .rdInLen := all _
theorem wrInLen (v : Word) : Statement (.wrInLen v) := all _
theorem rdImgAddr : Statement .rdImgAddr := all _
theorem wrImgAddr (v : Word) : Statement (.wrImgAddr v) := all _
theorem rdImgData : Statement .rdImgData := all _
theorem wrImgData (v : Word) : Statement (.wrImgData v) := all _
theorem rdStartAddr : Statement .rdStartAddr := all _
theorem wrStartAddr (v : Word) : Statement (.wrStartAddr v) := all _
theorem rdEndAddr : Statement .rdEndAddr := all _
theorem wrEndAddr (v : Word) : Statement (.wrEndAddr v) := all _
theorem rdImgCsum : Statement .rdImgCsum := all _
theorem wrImgCsum (v : Word) : Statement (.wrImgCsum v) := all _
theorem rdImgCrc : Statement .rdImgCrc := all _
theorem wrImgCrc (v : Word) : Statement (.wrImgCrc v) := all _
theorem rdSecCount : Statement .rdSecCount := all _
theorem wrSecCount (v : Word) : Statement (.wrSecCount v) := all _
theorem rdExt : Statement .rdExt := all _
theorem wrExt (v : Word) : Statement (.wrExt v) := all _
theorem rdRecCount : Statement .rdRecCount := all _
theorem wrRecCount (v : Word) : Statement (.wrRecCount v) := all _
theorem rdCur : Statement .rdCur := all _
theorem wrCur (v : Word) : Statement (.wrCur v) := all _
theorem rdSecIdx : Statement .rdSecIdx := all _
theorem wrSecIdx (v : Word) : Statement (.wrSecIdx v) := all _
theorem rdSecStart : Statement .rdSecStart := all _
theorem wrSecStart (v : Word) : Statement (.wrSecStart v) := all _
theorem rdSecEnd : Statement .rdSecEnd := all _
theorem wrSecEnd (v : Word) : Statement (.wrSecEnd v) := all _
theorem rdSecLen : Statement .rdSecLen := all _
theorem wrSecLen (v : Word) : Statement (.wrSecLen v) := all _
theorem rdSecCsum : Statement .rdSecCsum := all _
theorem wrSecCsum (v : Word) : Statement (.wrSecCsum v) := all _
theorem rdSecCrc : Statement .rdSecCrc := all _
theorem wrSecCrc (v : Word) : Statement (.wrSecCrc v) := all _
theorem rdVgTotal : Statement .rdVgTotal := all _
theorem wrVgTotal (v : Word) : Statement (.wrVgTotal v) := all _
theorem rdVgIdx : Statement .rdVgIdx := all _
theorem wrVgIdx (v : Word) : Statement (.wrVgIdx v) := all _
theorem rdVgFirst : Statement .rdVgFirst := all _
theorem wrVgFirst (v : Word) : Statement (.wrVgFirst v) := all _
theorem rdVgLast : Statement .rdVgLast := all _
theorem wrVgLast (v : Word) : Statement (.wrVgLast v) := all _
theorem rdVgStart : Statement .rdVgStart := all _
theorem wrVgStart (v : Word) : Statement (.wrVgStart v) := all _
theorem rdVgLen : Statement .rdVgLen := all _
theorem wrVgLen (v : Word) : Statement (.wrVgLen v) := all _
theorem rdVgExpect : Statement .rdVgExpect := all _
theorem wrVgExpect (v : Word) : Statement (.wrVgExpect v) := all _
theorem rdVgResp : Statement .rdVgResp := all _
theorem wrVgResp (v : Word) : Statement (.wrVgResp v) := all _
theorem rdRangeStart : Statement .rdRangeStart := all _
theorem wrRangeStart (v : Word) : Statement (.wrRangeStart v) := all _
theorem rdRangeLen : Statement .rdRangeLen := all _
theorem wrRangeLen (v : Word) : Statement (.wrRangeLen v) := all _
theorem rdRangeCsum : Statement .rdRangeCsum := all _
theorem wrRangeCsum (v : Word) : Statement (.wrRangeCsum v) := all _
theorem rdRangeCrc : Statement .rdRangeCrc := all _
theorem wrRangeCrc (v : Word) : Statement (.wrRangeCrc v) := all _
theorem rdCapBuf : Statement .rdCapBuf := all _
theorem wrCapBuf (v : Word) : Statement (.wrCapBuf v) := all _
theorem rdCapIn : Statement .rdCapIn := all _
theorem wrCapIn (v : Word) : Statement (.wrCapIn v) := all _
theorem rdCapSec : Statement .rdCapSec := all _
theorem wrCapSec (v : Word) : Statement (.wrCapSec v) := all _
theorem reservedAccess (sel : Selector) (wdata : Word) : Statement (.reservedAccess sel wdata) := all _

end Sys2Proof.Laws.OpcodeSpaceKept
end

