-- ==== Sys2Proof/Tests/Slice0.lean ====
section
/-! SUPPORT. Tests on words, records and states written out from spec/ (95_test_vectors.md where a comment
names it), and for every obligation with hypotheses a concrete input that meets them. -/

namespace Sys2Proof.Tests

open Sys2Proof Sys2Proof.Machine

/-! ### Helpers -/

/-- A record without terminator. -/
def bare (addr : BitVec 16) (payload : List Byte) (ck : Byte) : HexRecord :=
  { addr, payload, ck, term := .none }

/-- A payload one byte longer than LL can say. -/
def tooLong : List Byte := List.replicate 256 0

/-- The state a result goes on to. -/
def after : Result → Option State
  | .next s => some s
  | _ => none

/-- A field of the state a result goes on to. -/
def fieldAfter {α : Type} (r : Result) (f : State → α) : Option α := (after r).map f

/-! ### Ill-formed terms are refused -/

theorem test_illformed_illegalRsv_plain :
    Instr.wellFormed (.illegalRsv 0x5 : Instr) = false := by decide

/-- A length field of two digits cannot say 256. -/
theorem test_illformed_length :
    Instr.wellFormed (.data (bare 0 tooLong 0)) = false
      ∧ Instr.wellFormed (.eof (bare 0 tooLong 0)) = false
      ∧ Instr.wellFormed (.ext04 (bare 0 tooLong 0)) = false
      ∧ Instr.wellFormed (.ext02 (bare 0 tooLong 0)) = false
      ∧ Instr.wellFormed (.extNotSelected 0x04 (bare 0 tooLong 0)) = false
      ∧ Instr.wellFormed (.reservedType 0x03 (bare 0 tooLong 0)) = false
      ∧ Instr.wellFormed (.data (bare 0 (List.replicate 255 0) 0)) = true := by decide +kernel

theorem test_illformed_extNotSelected_type :
    Instr.wellFormed (.extNotSelected 0x03 (bare 0 [] 0) : Instr) = false := by decide

theorem test_illformed_reservedType_type :
    Instr.wellFormed (.reservedType 0x04 (bare 0 [] 0) : Instr) = false := by decide

theorem test_illformed_reservedAccess_listed_read :
    Instr.wellFormed (.reservedAccess 0x0A4 0 : Instr) = false := by decide

theorem test_illformed_reservedAccess_listed_write :
    Instr.wellFormed (.reservedAccess 0x114 0 : Instr) = false := by decide

/-! ### Decoding of words written out from 30_encoding.md -/

/-- Command words (30_encoding.md R111, R112). -/
theorem test_decode_commands :
    decodeCmd 0x00000000 = .nop ∧ decodeCmd 0x00000001 = .clear ∧ decodeCmd 0x00000002 = .decode
      ∧ decodeCmd 0x00000003 = .build ∧ decodeCmd 0x00000004 = .verify
      ∧ decodeCmd 0x00000005 = .range ∧ decodeCmd 0x00000006 = .illegalOp67 0
      ∧ decodeCmd 0x00000007 = .illegalOp67 1 ∧ decodeCmd 0x00000008 = .illegalOp8F 0
      ∧ decodeCmd 0x0000000F = .illegalOp8F 7 ∧ decodeCmd 0x00000011 = .illegalRsv 0x11
      ∧ decodeCmd 0x80000002 = .illegalRsv 0x80000002 := by decide

/-- Records: the text, digit by digit (30_encoding.md R120, R125, R133). -/
theorem test_decode_data :
    decode false (.record [0x30, 0x33, 0x30, 0x30, 0x31, 0x30, 0x30, 0x30, 0x31, 0x31, 0x32, 0x32, 0x33,
      0x33, 0x38, 0x37, 0x0A])
      = .ok (.data { addr := 0x0010, payload := [0x11, 0x22, 0x33], ck := 0x87, term := .lf }) := by
  decide

theorem test_decode_eof :
    decode true (.record [0x30, 0x30, 0x30, 0x30, 0x30, 0x30, 0x30, 0x31, 0x46, 0x66])
      = .ok (.eof (bare 0 [] 0xFF)) := by decide

theorem test_decode_ext04 :
    decode false (.record [0x30, 0x32, 0x30, 0x30, 0x30, 0x30, 0x30, 0x34, 0x30, 0x30, 0x30, 0x31, 0x46,
      0x39]) = .ok (.ext04 (bare 0 [0x00, 0x01] 0xF9)) := by decide

theorem test_decode_ext02 :
    decode true (.record [0x30, 0x32, 0x30, 0x30, 0x30, 0x30, 0x30, 0x32, 0x31, 0x30, 0x30, 0x30, 0x45,
      0x43]) = .ok (.ext02 (bare 0 [0x10, 0x00] 0xEC)) := by decide

/-- The same two texts under the other CTRL.USES_CRC. -/
theorem test_decode_extNotSelected :
    decode true (.record [0x30, 0x32, 0x30, 0x30, 0x30, 0x30, 0x30, 0x34, 0x30, 0x30, 0x30, 0x31, 0x46,
      0x39]) = .ok (.extNotSelected 0x04 (bare 0 [0x00, 0x01] 0xF9))
    ∧ decode false (.record [0x30, 0x32, 0x30, 0x30, 0x30, 0x30, 0x30, 0x32, 0x31, 0x30, 0x30, 0x30, 0x45,
      0x43]) = .ok (.extNotSelected 0x02 (bare 0 [0x10, 0x00] 0xEC)) := by decide

theorem test_decode_reservedType :
    decode false (.record [0x30, 0x30, 0x30, 0x30, 0x30, 0x30, 0x30, 0x33, 0x46, 0x44])
      = .ok (.reservedType 0x03 (bare 0 [] 0xFD))
    ∧ decode false (.record [0x30, 0x30, 0x30, 0x30, 0x30, 0x30, 0x46, 0x46, 0x30, 0x31])
      = .ok (.reservedType 0xFF (bare 0 [] 0x01)) := by decide

/-- A packet that holds more than its record is rejected. -/
theorem test_decode_trailing :
    decode true (.record [0x30, 0x30, 0x30, 0x30, 0x30, 0x30, 0x30, 0x31, 0x46, 0x46, 0x0A, 0x0D])
      = .error (.trailing 11) := by decide

/-- Read transactions: selector 0 || offset (30_encoding.md R101). -/
theorem test_decode_reads_0 :
    decodeBus 0x000 0 = .rdId
      ∧ decodeBus 0x004 0 = .rdCtrl
      ∧ decodeBus 0x008 0 = .rdMaxAddr
      ∧ decodeBus 0x00C 0 = .rdSecSize
      ∧ decodeBus 0x010 0 = .rdVwin
      ∧ decodeBus 0x014 0 = .rdCmd
      ∧ decodeBus 0x018 0 = .rdStatus
      ∧ decodeBus 0x01C 0 = .rdErrInfo
      ∧ decodeBus 0x020 0 = .rdInAddr
      ∧ decodeBus 0x024 0 = .rdInData
      ∧ decodeBus 0x028 0 = .rdInLen
      ∧ decodeBus 0x02C 0 = .rdImgAddr
      ∧ decodeBus 0x030 0 = .rdImgData
      ∧ decodeBus 0x034 0 = .rdStartAddr := by decide

theorem test_decode_reads_1 :
    decodeBus 0x038 0 = .rdEndAddr
      ∧ decodeBus 0x03C 0 = .rdImgCsum
      ∧ decodeBus 0x040 0 = .rdImgCrc
      ∧ decodeBus 0x044 0 = .rdSecCount
      ∧ decodeBus 0x048 0 = .rdExt
      ∧ decodeBus 0x04C 0 = .rdRecCount
      ∧ decodeBus 0x050 0 = .rdCur
      ∧ decodeBus 0x054 0 = .rdSecIdx
      ∧ decodeBus 0x058 0 = .rdSecStart
      ∧ decodeBus 0x05C 0 = .rdSecEnd
      ∧ decodeBus 0x060 0 = .rdSecLen
      ∧ decodeBus 0x064 0 = .rdSecCsum
      ∧ decodeBus 0x068 0 = .rdSecCrc
      ∧ decodeBus 0x06C 0 = .rdVgTotal := by decide

theorem test_decode_reads_2 :
    decodeBus 0x070 0 = .rdVgIdx
      ∧ decodeBus 0x074 0 = .rdVgFirst
      ∧ decodeBus 0x078 0 = .rdVgLast
      ∧ decodeBus 0x07C 0 = .rdVgStart
      ∧ decodeBus 0x080 0 = .rdVgLen
      ∧ decodeBus 0x084 0 = .rdVgExpect
      ∧ decodeBus 0x088 0 = .rdVgResp
      ∧ decodeBus 0x08C 0 = .rdRangeStart
      ∧ decodeBus 0x090 0 = .rdRangeLen
      ∧ decodeBus 0x094 0 = .rdRangeCsum
      ∧ decodeBus 0x098 0 = .rdRangeCrc
      ∧ decodeBus 0x09C 0 = .rdCapBuf
      ∧ decodeBus 0x0A0 0 = .rdCapIn
      ∧ decodeBus 0x0A4 0 = .rdCapSec := by decide

/-- Write transactions: selector 1 || offset (30_encoding.md R101). -/
theorem test_decode_writes_0 :
    decodeBus 0x100 9 = .wrId 9
      ∧ decodeBus 0x104 9 = .wrCtrl 9
      ∧ decodeBus 0x108 9 = .wrMaxAddr 9
      ∧ decodeBus 0x10C 9 = .wrSecSize 9
      ∧ decodeBus 0x110 9 = .wrVwin 9
      ∧ decodeBus 0x114 9 = .wrCmd 9
      ∧ decodeBus 0x118 9 = .wrStatus 9
      ∧ decodeBus 0x11C 9 = .wrErrInfo 9
      ∧ decodeBus 0x120 9 = .wrInAddr 9
      ∧ decodeBus 0x124 9 = .wrInData 9
      ∧ decodeBus 0x128 9 = .wrInLen 9
      ∧ decodeBus 0x12C 9 = .wrImgAddr 9
      ∧ decodeBus 0x130 9 = .wrImgData 9
      ∧ decodeBus 0x134 9 = .wrStartAddr 9 := by decide

theorem test_decode_writes_1 :
    decodeBus 0x138 9 = .wrEndAddr 9
      ∧ decodeBus 0x13C 9 = .wrImgCsum 9
      ∧ decodeBus 0x140 9 = .wrImgCrc 9
      ∧ decodeBus 0x144 9 = .wrSecCount 9
      ∧ decodeBus 0x148 9 = .wrExt 9
      ∧ decodeBus 0x14C 9 = .wrRecCount 9
      ∧ decodeBus 0x150 9 = .wrCur 9
      ∧ decodeBus 0x154 9 = .wrSecIdx 9
      ∧ decodeBus 0x158 9 = .wrSecStart 9
      ∧ decodeBus 0x15C 9 = .wrSecEnd 9
      ∧ decodeBus 0x160 9 = .wrSecLen 9
      ∧ decodeBus 0x164 9 = .wrSecCsum 9
      ∧ decodeBus 0x168 9 = .wrSecCrc 9
      ∧ decodeBus 0x16C 9 = .wrVgTotal 9 := by decide

theorem test_decode_writes_2 :
    decodeBus 0x170 9 = .wrVgIdx 9
      ∧ decodeBus 0x174 9 = .wrVgFirst 9
      ∧ decodeBus 0x178 9 = .wrVgLast 9
      ∧ decodeBus 0x17C 9 = .wrVgStart 9
      ∧ decodeBus 0x180 9 = .wrVgLen 9
      ∧ decodeBus 0x184 9 = .wrVgExpect 9
      ∧ decodeBus 0x188 9 = .wrVgResp 9
      ∧ decodeBus 0x18C 9 = .wrRangeStart 9
      ∧ decodeBus 0x190 9 = .wrRangeLen 9
      ∧ decodeBus 0x194 9 = .wrRangeCsum 9
      ∧ decodeBus 0x198 9 = .wrRangeCrc 9
      ∧ decodeBus 0x19C 9 = .wrCapBuf 9
      ∧ decodeBus 0x1A0 9 = .wrCapIn 9
      ∧ decodeBus 0x1A4 9 = .wrCapSec 9 := by decide

/-- Offsets that are not listed, and a misaligned one (44_bus_access.md R304). -/
theorem test_decode_reserved :
    decodeBus 0x0A8 0 = .reservedAccess 0x0A8 0 ∧ decodeBus 0x0FC 0 = .reservedAccess 0x0FC 0
      ∧ decodeBus 0x019 0 = .reservedAccess 0x019 0 ∧ decodeBus 0x1A8 7 = .reservedAccess 0x1A8 7
      ∧ decodeBus 0x117 7 = .reservedAccess 0x117 7 := by decide

/-- The opcode table's words: a command, two record types, a read, and no word of any row. -/
theorem test_decodeTableWord :
    decodeTableWord 32 0x5 = some .range ∧ decodeTableWord 8 0x02 = some (.ext02 (bare 0 [] 0))
      ∧ decodeTableWord 8 0x04 = some (.ext04 (bare 0 [] 0)) ∧ decodeTableWord 16 0x084 = some .rdVgExpect
      ∧ decodeTableWord 16 0x200 = none := by decide

/-! ### Sums (95_test_vectors.md 2.1) -/

theorem test_crc32 :
    crc32 [0x01] = 0x4AC9A203 ∧ crc32 [0xDE, 0xAD, 0xBE, 0xEF] = 0x81DA1A18
      ∧ crc32 [0xFF, 0xFF, 0xFF, 0xFF] = 0 := by decide +kernel

theorem test_crc32_check :
    crc32 [0x31, 0x32, 0x33, 0x34, 0x35, 0x36, 0x37, 0x38, 0x39] = 0x0376E6E7 := by decide +kernel

theorem test_sum32 : sum32 [0xDE, 0xAD, 0xBE, 0xEF] = 0x338 := by decide

theorem test_sumWords_wraps : sumWords [0xFFFFFFFF, 0x00000003] = 2 := by decide

/-! ### States of the program P1 (95_test_vectors.md section 3) -/

/-- The text of P1. -/
def p1Text : List Byte :=
  [0x30, 0x34, 0x30, 0x30, 0x30, 0x30, 0x30, 0x30, 0x30, 0x31, 0x30, 0x32, 0x30, 0x33, 0x30, 0x34]
    ++ [0x46, 0x32, 0x0D, 0x0A, 0x30, 0x33, 0x30, 0x30, 0x31, 0x32, 0x30, 0x30, 0x41, 0x41, 0x42, 0x42]
    ++ [0x43, 0x43, 0x42, 0x41, 0x0D, 0x0A, 0x30, 0x30, 0x30, 0x30, 0x30, 0x30, 0x30, 0x31, 0x46, 0x46]
    ++ [0x0D, 0x0A]

/-- After reset, with capacities 0x100, 0x100 and 0x40. -/
def idle : State := { State.reset with capBuf := 0x100, capIn := 0x100, capSec := 0x40 }

/-- A profile and an input text. -/
def ready (text : List Byte) : State :=
  { idle with
    maxAddr := 0x100, secSize := 0x10, vwin := 0x20
    inBuf := Memory.unspecified.writeBytes 0 text
    inLen := BitVec.ofNat 32 text.length }

/-- P1 before its DECODE. -/
def p1 : State := ready p1Text

/-- P1 after its DECODE. -/
def p1Decoded : State :=
  { p1 with
    imgBuf := { fill := some 0xFF, cells := [(0, 1), (1, 2), (2, 3), (3, 4), (0x12, 0xAA), (0x13, 0xBB), (0x14, 0xCC)] }
    startAddr := 0, endAddr := 0x15, haveData := true, recCount := 3, cur := 0x32, eofSeen := true
    phase := .decoded }

/-- P1 after its BUILD. -/
def p1Built : State :=
  { p1Decoded with
    sec := [{ startAddr := 0, endAddr := 0x10, len := 0x10, csum := 0xBFE, crc := 0 },
      { startAddr := 0x10, endAddr := 0x15, len := 5, csum := 0x42F, crc := 0 }]
    secCount := 2, imgCsum := 0x102D, phase := .built }

/-- P1 after its VERIFY. -/
def p1Verifying : State :=
  { p1Built with
    vgTotal := 1, vgLast := 1, vgLen := 0x15, vgExpect := 0x102D, phase := .verifying }

/-- P1 with VWIN 0x10, two groups, after VERIFY (95_test_vectors.md 2.6). -/
def p1TwoGroups : State :=
  { p1Built with vwin := 0x10, vgTotal := 2, vgLen := 0x10, vgExpect := 0xBFE, phase := .verifying }

/-- P1 at its end. -/
def p1Passed : State := { p1Verifying with vgResp := 0x102D, vgIdx := 1, phase := .passed }

/-- A device that answered wrong: E_VERIFY_MISMATCH. -/
def p1Failed : State :=
  { p1Verifying with
    vgResp := 0x102E, errPhase := .verifying, errCode := .verifyMismatch, phase := .failed }

theorem test_p1_decode : after (exec .decode p1) = some p1Decoded := by decide

theorem test_p1_build : after (exec .build p1Decoded) = some p1Built := by decide

theorem test_p1_verify : after (exec .verify p1Built) = some p1Verifying := by decide

theorem test_p1_respond :
    after (execVStep { p1Verifying with vgResp := 0x102D, pend := .vstep }) = some p1Passed := by
  decide

theorem test_p1_mismatch : after (execVStep { p1Verifying with vgResp := 0x102E }) = some p1Failed := by
  decide

/-- STATUS words (95_test_vectors.md P1 and 2.6). -/
theorem test_status :
    p1Decoded.status = 0x14 ∧ p1Built.status = 0x24 ∧ p1Verifying.status = 0x36
      ∧ p1Passed.status = 0x44 ∧ p1Failed.status = 0x000306F4 := by decide

/-- BUILD in the CRC variant (95_test_vectors.md 2.5). -/
theorem test_build_crc :
    fieldAfter (exec .build { p1Decoded with ctrl := 3 }) (fun s => (s.imgCsum, s.imgCrc))
      = some (0x102D, 0x06120E5F) := by decide +kernel

/-- Two groups: the second is presented when the first matches (95_test_vectors.md 2.6). -/
theorem test_vstep_next :
    fieldAfter (execVStep { p1TwoGroups with vgResp := 0xBFE }) (fun s => (s.vgIdx, s.vgStart, s.vgLen, s.vgExpect))
      = some (1, 0x10, 5, 0x42F) := by decide

/-- A verify step outside VERIFYING (95_test_vectors.md 2.6). -/
theorem test_vstep_built :
    fieldAfter (execVStep { p1Built with vgResp := 5 }) (fun s => (s.errInfo, s.status))
      = some (0x100, 0x000209F4) := by decide

/-! ### Records (95_test_vectors.md 2.2 to 2.4) -/

theorem test_data_span :
    fieldAfter (exec (.data (bare 0x00FF [0x55, 0x66] 0)) (ready [])) State.errCode = some .spanRange := by decide

theorem test_data_addr :
    fieldAfter (exec (.data (bare 0x0100 [] 0)) (ready [])) State.errCode = some .addrRange := by decide

theorem test_data_last_byte :
    fieldAfter (exec (.data (bare 0x00FF [0x55] 0)) (ready [])) (fun s => (s.imgByte 0xFF, s.endAddr))
      = some (0x55, 0x100) := by decide

theorem test_eof_counts :
    fieldAfter (exec (.eof (bare 0 [0xAA] 0xFF)) idle) (fun s => (s.eofSeen, s.recCount, s.cur))
      = some (true, 1, 12) := by decide

theorem test_ext04 :
    fieldAfter (exec (.ext04 (bare 0 [0x12, 0x34] 0)) idle) State.ext = some 0x1234 := by decide

theorem test_ext04_length :
    fieldAfter (exec (.ext04 (bare 0 [0x12, 0x34, 0x56] 0)) idle) State.errCode = some .recType := by decide

theorem test_ext02 :
    fieldAfter (exec (.ext02 (bare 0 [0x1F, 0xFF] 0)) { idle with ctrl := 3 }) State.ext = some 1 := by decide

theorem test_ext02_length :
    fieldAfter (exec (.ext02 (bare 0 [] 0)) { idle with ctrl := 3 }) State.errCode = some .recType := by decide

theorem test_extNotSelected :
    fieldAfter (exec (.extNotSelected 0x02 (bare 0 [0x10, 0x00] 0xEC)) idle) State.status = some 0x3F0 := by decide

theorem test_reservedType :
    fieldAfter (exec (.reservedType 0xFF (bare 0 [] 1)) { idle with cur := 0xF }) (fun s => (s.status, s.errInfo))
      = some (0x3F0, 0xF) := by decide

/-- CR CR LF: the second CR is a bad character (95_test_vectors.md 2.2). -/
theorem test_decode_cr_cr_lf :
    fieldAfter (exec .decode (ready [0x30, 0x31, 0x30, 0x30, 0x30, 0x30, 0x30, 0x30, 0x35, 0x35, 0x41, 0x41, 0x0D,
      0x0D, 0x0A])) (fun s => (s.status, s.errInfo, s.cur)) = some (0x1F0, 0xD, 0xD) := by decide

/-! ### Commands (95_test_vectors.md 2.7, 2.8) -/

theorem test_nop : after (exec .nop { p1Verifying with pend := .cmd 0 }) = some p1Verifying := by decide

theorem test_clear :
    fieldAfter (exec .clear p1Failed) (fun s => (s.status, s.maxAddr, s.imgBuf == p1Failed.imgBuf))
      = some (0, 0x100, true) := by decide

theorem test_range :
    fieldAfter (exec .range { p1Decoded with rangeStart := 0x15, rangeLen := 4 })
      (fun s => (s.rangeCsum, s.rangeCrc)) = some (0x3FC, 0) := by decide +kernel

theorem test_range_unbounded :
    fieldAfter (exec .range { p1Decoded with rangeStart := 0xFFFFFFFF, rangeLen := 2 })
      (fun s => (s.errCode, s.errInfo)) = some (.range, 0xFFFFFFFF) := by decide

theorem test_illegal_words :
    fieldAfter (exec (.illegalOp67 0) idle) (fun s => (s.status, s.errInfo)) = some (0xAF0, 6)
      ∧ fieldAfter (exec (.illegalOp8F 7) idle) (fun s => (s.status, s.errInfo)) = some (0xAF0, 0xF)
      ∧ fieldAfter (exec (.illegalRsv 0x11) idle) (fun s => (s.status, s.errInfo)) = some (0xAF0, 0x11) := by
  decide

theorem test_build_in_idle : fieldAfter (exec .build idle) (fun s => (s.status, s.errInfo)) = some (0x9F0, 3) := by
  decide

/-! ### Transactions (95_test_vectors.md 2.9, 2.10) -/

theorem test_in_data_port :
    fieldAfter (exec (.wrInData 0x141) idle) (fun s => (s.inByte 0, s.inAddr)) = some (0x41, 1)
      ∧ fieldAfter (exec .rdInData p1) (fun s => (s.rdata, s.inAddr)) = some (0x30, 1) := by decide

theorem test_in_data_past_capacity :
    fieldAfter (exec (.wrInData 0x30) { idle with inAddr := 0x100 }) (fun s => (s.inBuf, s.inAddr, s.drop))
      = some (Memory.unspecified, 0x101, false) := by decide

theorem test_img_data_wraps :
    fieldAfter (exec .rdImgData { idle with imgAddr := 0xFFFFFFFF }) (fun s => (s.rdata, s.imgAddr))
      = some (0, 0) := by decide

theorem test_capped_writes :
    fieldAfter (exec (.wrInLen 0xFFFFFFFF) idle) State.inLen = some 0x100
      ∧ fieldAfter (exec (.wrMaxAddr 0x1000) idle) State.maxAddr = some 0x100 := by decide

theorem test_ctrl_reserved_bits : fieldAfter (exec (.wrCtrl 0xFFFFFFFD) idle) State.ctrl = some 1 := by decide

theorem test_profile_lock :
    fieldAfter (exec (.wrSecSize 5) p1Verifying) (fun s => (s.secSize, s.status)) = some (0x10, 0x3E)
      ∧ fieldAfter (exec (.wrVwin 5) p1Verifying) (fun s => (s.vwin, s.status)) = some (0x20, 0x3E) := by decide

theorem test_status_w1c :
    fieldAfter (exec (.wrStatus 0x8) { idle with drop := true }) State.drop = some false
      ∧ fieldAfter (exec (.wrStatus 0xFFFFFFF7) { idle with drop := true }) State.drop = some true := by decide

theorem test_pointers :
    fieldAfter (exec (.wrInAddr 7) idle) State.inAddr = some 7
      ∧ fieldAfter (exec (.wrImgAddr 7) idle) State.imgAddr = some 7
      ∧ fieldAfter (exec (.wrSecIdx 7) idle) State.secIdx = some 7
      ∧ fieldAfter (exec (.wrRangeStart 7) idle) State.rangeStart = some 7
      ∧ fieldAfter (exec (.wrRangeLen 7) idle) State.rangeLen = some 7 := by decide

theorem test_cmd_and_resp :
    fieldAfter (exec (.wrCmd 2) idle) (fun s => (s.pend, s.busy)) = some (.cmd 2, true)
      ∧ fieldAfter (exec (.wrCmd 3) p1Failed) (fun s => (s.pend, s.drop)) = some (.none, true)
      ∧ fieldAfter (exec (.wrVgResp 5) p1Verifying) (fun s => (s.pend, s.vgResp)) = some (.vstep, 5)
      ∧ fieldAfter (exec (.wrVgResp 5) p1Failed) (fun s => (s.pend, s.vgResp, s.drop))
        = some (.none, 0x102E, true) := by decide

/-- Reads in BUILT: each register's own value. -/
theorem test_reads_profile :
    fieldAfter (exec .rdId p1Built) State.rdata = some 0x43535601 ∧ fieldAfter (exec .rdCtrl p1Built) State.rdata = some 2
      ∧ fieldAfter (exec .rdMaxAddr p1Built) State.rdata = some 0x100
      ∧ fieldAfter (exec .rdSecSize p1Built) State.rdata = some 0x10
      ∧ fieldAfter (exec .rdVwin p1Built) State.rdata = some 0x20 ∧ fieldAfter (exec .rdCmd p1Built) State.rdata = some 0
      ∧ fieldAfter (exec .rdStatus p1Built) State.rdata = some 0x24
      ∧ fieldAfter (exec .rdErrInfo { p1Failed with errInfo := 9 }) State.rdata = some 9
      ∧ fieldAfter (exec .rdInAddr { idle with inAddr := 9 }) State.rdata = some 9
      ∧ fieldAfter (exec .rdInLen p1Built) State.rdata = some 0x32
      ∧ fieldAfter (exec .rdImgAddr { idle with imgAddr := 9 }) State.rdata = some 9
      ∧ fieldAfter (exec .rdCapBuf idle) State.rdata = some 0x100
      ∧ fieldAfter (exec .rdCapIn { idle with capIn := 9 }) State.rdata = some 9
      ∧ fieldAfter (exec .rdCapSec idle) State.rdata = some 0x40 := by decide

theorem test_reads_results :
    fieldAfter (exec .rdStartAddr { idle with startAddr := 9 }) State.rdata = some 9
      ∧ fieldAfter (exec .rdEndAddr p1Built) State.rdata = some 0x15
      ∧ fieldAfter (exec .rdImgCsum p1Built) State.rdata = some 0x102D
      ∧ fieldAfter (exec .rdImgCrc { idle with imgCrc := 9 }) State.rdata = some 9
      ∧ fieldAfter (exec .rdSecCount p1Built) State.rdata = some 2
      ∧ fieldAfter (exec .rdExt { idle with ext := 0xFFFF }) State.rdata = some 0xFFFF
      ∧ fieldAfter (exec .rdRecCount p1Built) State.rdata = some 3 ∧ fieldAfter (exec .rdCur p1Built) State.rdata = some 0x32
      ∧ fieldAfter (exec .rdImgData { p1Built with imgAddr := 0x12 }) State.rdata = some 0xAA
      ∧ fieldAfter (exec .rdRangeStart { idle with rangeStart := 9 }) State.rdata = some 9
      ∧ fieldAfter (exec .rdRangeLen { idle with rangeLen := 9 }) State.rdata = some 9
      ∧ fieldAfter (exec .rdRangeCsum { idle with rangeCsum := 9 }) State.rdata = some 9
      ∧ fieldAfter (exec .rdRangeCrc { idle with rangeCrc := 9 }) State.rdata = some 9 := by decide

/-- The view of SEC[SEC_IDX], and 0 past SEC_COUNT (95_test_vectors.md P1 rows 10, 11). -/
theorem test_reads_sector :
    fieldAfter (exec .rdSecIdx { p1Built with secIdx := 1 }) State.rdata = some 1
      ∧ fieldAfter (exec .rdSecStart { p1Built with secIdx := 1 }) State.rdata = some 0x10
      ∧ fieldAfter (exec .rdSecEnd { p1Built with secIdx := 1 }) State.rdata = some 0x15
      ∧ fieldAfter (exec .rdSecLen { p1Built with secIdx := 1 }) State.rdata = some 5
      ∧ fieldAfter (exec .rdSecCsum { p1Built with secIdx := 1 }) State.rdata = some 0x42F
      ∧ fieldAfter (exec .rdSecCrc { p1Built with secIdx := 1 }) State.rdata = some 0
      ∧ fieldAfter (exec .rdSecEnd { p1Built with secIdx := 2 }) State.rdata = some 0 := by decide

theorem test_reads_group :
    fieldAfter (exec .rdVgTotal p1TwoGroups) State.rdata = some 2
      ∧ fieldAfter (exec .rdVgIdx p1Passed) State.rdata = some 1
      ∧ fieldAfter (exec .rdVgFirst { idle with vgFirst := 9 }) State.rdata = some 9
      ∧ fieldAfter (exec .rdVgLast p1Verifying) State.rdata = some 1
      ∧ fieldAfter (exec .rdVgStart { idle with vgStart := 9 }) State.rdata = some 9
      ∧ fieldAfter (exec .rdVgLen p1Verifying) State.rdata = some 0x15
      ∧ fieldAfter (exec .rdVgExpect p1Verifying) State.rdata = some 0x102D
      ∧ fieldAfter (exec .rdVgResp p1Passed) State.rdata = some 0x102D := by decide

theorem test_reserved_access :
    fieldAfter (exec (.reservedAccess 0x0A8 0) { idle with pend := .cmd 2, rdata := 7 })
        (fun s => (s.rdata, s.drop)) = some (0, false)
      ∧ after (exec (.reservedAccess 0x1A8 7) { idle with pend := .cmd 2 })
        = some { idle with pend := .cmd 2 } := by decide

/-- A write of a read-only register changes nothing (44_bus_access.md R291). -/
theorem test_read_only_writes :
    after (exec (.wrId 5) idle) = some idle
      ∧ after (exec (.wrErrInfo 5) idle) = some idle
      ∧ after (exec (.wrImgData 5) idle) = some idle
      ∧ after (exec (.wrStartAddr 5) idle) = some idle
      ∧ after (exec (.wrEndAddr 5) idle) = some idle
      ∧ after (exec (.wrImgCsum 5) idle) = some idle
      ∧ after (exec (.wrImgCrc 5) idle) = some idle
      ∧ after (exec (.wrSecCount 5) idle) = some idle
      ∧ after (exec (.wrExt 5) idle) = some idle
      ∧ after (exec (.wrRecCount 5) idle) = some idle
      ∧ after (exec (.wrCur 5) idle) = some idle
      ∧ after (exec (.wrSecStart 5) idle) = some idle
      ∧ after (exec (.wrSecEnd 5) idle) = some idle
      ∧ after (exec (.wrSecLen 5) idle) = some idle
      ∧ after (exec (.wrSecCsum 5) idle) = some idle
      ∧ after (exec (.wrSecCrc 5) idle) = some idle
      ∧ after (exec (.wrVgTotal 5) idle) = some idle
      ∧ after (exec (.wrVgIdx 5) idle) = some idle
      ∧ after (exec (.wrVgFirst 5) idle) = some idle
      ∧ after (exec (.wrVgLast 5) idle) = some idle
      ∧ after (exec (.wrVgStart 5) idle) = some idle
      ∧ after (exec (.wrVgLen 5) idle) = some idle
      ∧ after (exec (.wrVgExpect 5) idle) = some idle
      ∧ after (exec (.wrRangeCsum 5) idle) = some idle
      ∧ after (exec (.wrRangeCrc 5) idle) = some idle
      ∧ after (exec (.wrCapBuf 5) idle) = some idle
      ∧ after (exec (.wrCapIn 5) idle) = some idle
      ∧ after (exec (.wrCapSec 5) idle) = some idle := by decide

/-! ### Steps -/

/-- A write that arrives before the engine's turn is dropped, then the command runs (95_test_vectors.md
2.9). -/
theorem test_step_write_while_busy :
    fieldAfter (step { idle with pend := .cmd 3, schedule := [.bus 0x128 5, .engine] })
      (fun s => (s.drop, s.inLen, s.schedule)) = some (true, 0, [.engine]) := by decide

/-- Reset discards the pending operation (95_test_vectors.md 2.10). -/
theorem test_step_reset :
    fieldAfter (step { p1Decoded with pend := .cmd 3, schedule := [.reset] })
      (fun s => (s.pend, s.status, s.imgBuf)) = some (.none, 0, Memory.unspecified) := by decide

/-- Words placed where the next step fetches them. -/
theorem test_withFetchWord :
    fieldAfter (step (State.reset.withFetchWord 32 0x6)) (fun s => (s.status, s.errInfo)) = some (0xAF0, 6)
      ∧ fieldAfter (step (State.reset.withFetchWord 16 0x000)) State.rdata = some 0x43535601
      ∧ fieldAfter (step (State.reset.withFetchWord 8 0x01)) State.status = some 0x14
      ∧ fieldAfter (step (State.reset.withFetchWord 8 0x03)) State.errCode = some .recType := by decide

/-! ### Witnesses: inputs that meet the hypotheses of each obligation -/

/-- A data record's text, `0100000055AA`. -/
def oneByte : List Byte := [0x30, 0x31, 0x30, 0x30, 0x30, 0x30, 0x30, 0x30, 0x35, 0x35, 0x41, 0x41]

/-- The record of `oneByte`. -/
def oneByteRecord : HexRecord := bare 0 [0x55] 0xAA

/-- A command word is pending. -/
def pending (w : Word) (s : State) : State := { s with pend := .cmd w }

theorem witness_DecodeOfEncodeReturnsInstr :
    (Instr.wellFormed (.data (bare 0xFFFF (List.replicate 255 0xFF) 0)) = true
        ∧ Instr.selectedBy false (.data (bare 0xFFFF (List.replicate 255 0xFF) 0)) = true)
      ∧ (Instr.wellFormed (.extNotSelected 0x04 oneByteRecord) = true
        ∧ Instr.selectedBy true (.extNotSelected 0x04 oneByteRecord) = true)
      ∧ (Instr.wellFormed (.ext02 oneByteRecord) = true
        ∧ Instr.selectedBy true (.ext02 oneByteRecord) = true)
      ∧ Instr.wellFormed (.illegalRsv 0x10) = true
      ∧ Instr.wellFormed (.reservedAccess 0x0A5 1) = true := by decide +kernel

theorem witness_ScanOfEncodedRecordInText :
    (oneByteRecord.wellFormed = true ∧ oneByteRecord.term = .none
        ∧ (oneByte.head? ≠ some 0x0D#8 ∧ oneByte.head? ≠ some 0x0A#8))
      ∧ ({ oneByteRecord with term := .cr }.wellFormed = true
        ∧ ([0x0D#8] : List Byte).head? ≠ some 0x0A#8)
      ∧ { oneByteRecord with term := .crlf }.wellFormed = true := by decide

theorem witness_EncodeOfDecodedCommandOrTransaction :
    (offsetListed ((0x0A4#9).extractLsb' 0 8) = true ∧ (0x0A4#9).getLsbD 8 = false)
      ∧ offsetListed ((0x0A5#9).extractLsb' 0 8) = false ∧ (0x1A4#9).getLsbD 8 = true := by decide

theorem witness_DecodedInstructionsAreWellFormed :
    decodeRecord false oneByte = .ok (.data oneByteRecord, oneByteRecord) := by decide

theorem witness_HexDigitValues :
    (9#4).toNat ≤ 9 ∧ 10 ≤ (10#4).toNat ∧ hexVal 0x66 = some 15#4 ∧ hexVal 0x30 = some 0#4
      ∧ hexVal 0x3A = none ∧ hexVal 0x40 = none ∧ hexVal 0x60 = none := by decide

theorem witness_ScanRejectsAtFirstFailingCharacter :
    scanRecord [] = .error (.truncated 0) ∧ scanRecord (oneByte.take 11) = .error (.truncated 11)
      ∧ scanRecord [0x3A] = .error (.badHexChar 0)
      ∧ scanRecord (oneByte.take 11 ++ [0x47]) = .error (.badHexChar 11) := by decide

theorem witness_StepRunsTheDecodedInstruction :
    { idle with schedule := [.bus 0x000 0] }.schedule = [.bus 0x000 0]
      ∧ (pending 3 { idle with schedule := [.engine] }).pend = .cmd 3 ∧ (pending 3 idle).schedule = []
      ∧ { p1Verifying with pend := .vstep, schedule := [.engine] }.pend = .vstep
      ∧ { p1Verifying with pend := .vstep }.schedule = []
      ∧ { idle with schedule := [.engine] }.pend = .none ∧ idle.pend = .none := by decide

/-- The three clauses: an error, an EOF record that stops, a record that does not. -/
theorem witness_DecoderLoopRunsRecordInstructions :
    (scanRecord oneByte = .ok (0x00, oneByteRecord) ∧ idle.phase ≠ .failed
        ∧ fieldAfter (exec (recordInstr idle.usesCrc 0x00 oneByteRecord) idle) State.phase = some .failed)
      ∧ (scanRecord (hexByte 0 ++ oneByte.take 4 ++ hexByte 1 ++ hexByte 0xFF) ≠ .ok (0x01, bare 1 [] 0xFF)
        ∧ scanRecord (tableRecordText 0x01) = .ok (0x01, bare 0 [] 0) ∧ idle.eofStop = true
        ∧ fieldAfter (exec (recordInstr idle.usesCrc 0x01 (bare 0 [] 0)) idle) State.phase = some .idle)
      ∧ fieldAfter (exec (recordInstr p1.usesCrc 0x00 oneByteRecord) p1) State.phase = some .idle := by
  decide

/-- The premise of the statements about transactions with BUSY = 0 and with BUSY = 1. -/
theorem witness_transactions :
    idle.busy = false ∧ p1Built.busy = false ∧ p1Failed.busy = false ∧ (pending 2 idle).busy = true
      ∧ Reg.errInfo ≠ .id ∧ (Reg.inData ≠ .id ∧ Reg.inData ≠ .cmd ∧ Reg.inData ≠ .status
        ∧ Reg.inData ≠ .capBuf ∧ Reg.inData ≠ .capIn ∧ Reg.inData ≠ .capSec) := by decide

theorem witness_ReservedAccessesDoNothing :
    (offsetListed ((0x0A8#9).extractLsb' 0 8) = false ∧ (0x0A8#9).getLsbD 8 = false)
      ∧ (offsetListed ((0x101#9).extractLsb' 0 8) = false ∧ (0x101#9).getLsbD 8 = true)
      ∧ offsetListed ((0x0FF#9).extractLsb' 0 8) = false := by decide

theorem witness_ReadsOtherThanPortsAreIdempotent :
    p1Built.busy = false ∧ Reg.endAddr ≠ .inData ∧ Reg.endAddr ≠ .imgData
      ∧ after (exec Reg.endAddr.readInstr p1Built) = some { p1Built with rdata := 0x15 }
      ∧ after (exec Reg.endAddr.readInstr { p1Built with rdata := 0x15 })
        = some { p1Built with rdata := 0x15 } := by decide

theorem witness_PlainAndStatusWrites :
    (0x00000008#32).getLsbD 3 = true ∧ (0xFFFFFFF7#32).getLsbD 3 = false := by decide

theorem witness_ProfileWritesStoreOnlyInIdle :
    (idle.busy = false ∧ idle.phase = .idle) ∧ p1Decoded.busy = false ∧ p1Decoded.phase ≠ .idle
      ∧ p1Failed.phase ≠ .idle := by decide

theorem witness_InDataWriteStoresOneByte :
    p1.busy = false ∧ p1.inBuf.wf = true ∧ p1.inAddr.toNat < p1.capIn.toNat
      ∧ ¬ ({ p1 with inAddr := 0x100 }.inAddr.toNat < p1.capIn.toNat) := by decide

theorem witness_CmdAndVgRespWritesStartOperations :
    (idle.busy = false ∧ idle.phase ≠ .failed) ∧ p1Failed.busy = false ∧ p1Failed.phase = .failed
      ∧ (0x00000002#32 ≠ 0x00000000#32 ∧ 0x00000002#32 ≠ 0x00000001#32) := by decide

/-- The last address that fits, the empty record there, and both values of HAVE_DATA. -/
theorem witness_DataRecordWritesImageAndBounds :
    (p1.imgBuf.wf = true ∧ 0xFF = (bare 0xFF [0x55] 0).addr.toNat + p1.ext.toNat * 2 ^ 16
        ∧ 0xFF < p1.maxAddr.toNat ∧ 0xFF + (bare 0xFF [0x55] 0).payload.length ≤ p1.maxAddr.toNat
        ∧ (bare 0xFF [0x55] 0).payload ≠ [] ∧ p1.haveData = false)
      ∧ (bare 0xFF [] 0).payload = []
      ∧ (p1Decoded.imgBuf.wf = true ∧ p1Decoded.haveData = true
        ∧ 0xFF = (bare 0xFF [0x55] 0).addr.toNat + p1Decoded.ext.toNat * 2 ^ 16) := by decide

theorem witness_DataRecordOutOfRangeIsRefused :
    (0x100 = (bare 0x100 [] 0).addr.toNat + p1.ext.toNat * 2 ^ 16 ∧ p1.maxAddr.toNat ≤ 0x100)
      ∧ (0xFF = (bare 0xFF [1, 2] 0).addr.toNat + p1.ext.toNat * 2 ^ 16 ∧ 0xFF < p1.maxAddr.toNat
        ∧ p1.maxAddr.toNat < 0xFF + (bare 0xFF [1, 2] 0).payload.length) := by decide

theorem witness_EofAndExtendedAddressRecords :
    (bare 0 [0x10, 0x00] 0).payload = [0x10, 0x00] ∧ idle.usesCrc = false
      ∧ { idle with ctrl := 3 }.usesCrc = true := by decide

theorem witness_RefusedRecordsRecordRecType :
    { idle with ctrl := 3 }.usesCrc = true ∧ idle.usesCrc = false
      ∧ (bare 0 [0x10] 0).payload.length ≠ 2 ∧ (bare 0 [1, 2, 3] 0).payload.length ≠ 2 := by decide

/-- Two adjacent records, both orders completing with the same state. -/
theorem witness_DisjointDataRecordsCommute :
    p1.imgBuf.wf = true ∧ p1.phase ≠ .failed
      ∧ 4 = (bare 4 [1, 2] 0).addr.toNat + p1.ext.toNat * 2 ^ 16
      ∧ 6 = (bare 6 [3] 0).addr.toNat + p1.ext.toNat * 2 ^ 16
      ∧ 4 < p1.maxAddr.toNat ∧ 4 + (bare 4 [1, 2] 0).payload.length ≤ p1.maxAddr.toNat
      ∧ 6 < p1.maxAddr.toNat ∧ 6 + (bare 6 [3] 0).payload.length ≤ p1.maxAddr.toNat
      ∧ 4 + (bare 4 [1, 2] 0).payload.length ≤ 6
      ∧ ((after (exec (.data (bare 4 [1, 2] 0)) p1)).bind fun s =>
          fieldAfter (exec (.data (bare 6 [3] 0)) s) State.endAddr) = some 7
      ∧ ((after (exec (.data (bare 6 [3] 0)) p1)).bind fun s =>
          fieldAfter (exec (.data (bare 4 [1, 2] 0)) s) State.endAddr) = some 7 := by decide

/-- A record without payload inside the span of the other. -/
theorem witness_DisjointDataRecordsCommute_empty :
    (bare 5 [] 0).payload = [] ∧ 5 = (bare 5 [] 0).addr.toNat + p1.ext.toNat * 2 ^ 16
      ∧ 5 < p1.maxAddr.toNat
      ∧ ((after (exec (.data (bare 4 [1, 2] 0)) p1)).bind fun s =>
          fieldAfter (exec (.data (bare 5 [] 0)) s) State.endAddr) = some 6
      ∧ ((after (exec (.data (bare 5 [] 0)) p1)).bind fun s =>
          fieldAfter (exec (.data (bare 4 [1, 2] 0)) s) State.endAddr) = some 6 := by decide

theorem witness_DecodeOfEmptyInput : idle.phase = .idle ∧ idle.inLen = 0 := by decide

/-- Two records at the ends of the capacity; the second one has no payload. -/
theorem witness_DecodeOfDataRecordsBuildsTheImage :
    (ready (encodeRecord 0x00 (bare 0 [0x55] 0) ++ encodeRecord 0x00 (bare 0xFF [] 0))).inText
        = [bare 0 [0x55] 0, bare 0xFF [] 0].flatMap (encodeRecord 0x00)
      ∧ ∀ r ∈ [bare 0 [0x55] 0, bare 0xFF [] 0], r.wellFormed = true ∧ r.addr.toNat < idle.capBuf.toNat
        ∧ r.addr.toNat + r.payload.length ≤ idle.capBuf.toNat := by decide

theorem witness_EofRecordStopsDecoding :
    (ready (encodeRecord 0x01 { bare 0 [] 0xFF with term := .lf } ++ [0x47])).inText
        = encodeRecord 0x01 { bare 0 [] 0xFF with term := .lf } ++ [0x47]
      ∧ idle.eofStop = true ∧ { bare 0 [] 0xFF with term := .lf }.wellFormed = true := by decide

/-- The five errors of DECODE, each on one record. -/
theorem witness_FailingDecodeLocatesItsError :
    fieldAfter (exec .decode (ready (oneByte.take 11))) (fun s => (s.phase, s.errCode))
        = some (.failed, .hexTrunc)
      ∧ fieldAfter (exec .decode (ready (oneByte.take 11 ++ [0x47]))) (fun s => (s.phase, s.errCode))
        = some (.failed, .hexChar)
      ∧ fieldAfter (exec .decode (ready (tableRecordText 0x05))) (fun s => (s.phase, s.errCode))
        = some (.failed, .recType)
      ∧ fieldAfter (exec .decode { ready oneByte with maxAddr := 0 }) (fun s => (s.phase, s.errCode))
        = some (.failed, .addrRange)
      ∧ fieldAfter (exec .decode { ready (encodeRecord 0 (bare 0 [1, 2] 0)) with maxAddr := 1 })
        (fun s => (s.phase, s.errCode)) = some (.failed, .spanRange) := by decide

/-- For DecodedImageIsFillOutsideItsBounds and DecodeFrame; the failing case is the theorem above. -/
theorem witness_DecodeFrame :
    p1.phase = .idle ∧ fieldAfter (exec .decode p1) State.phase = some .decoded := by decide

theorem witness_DecodeDependsOnInputAndProfileOnly :
    p1.phase = .idle ∧ { p1 with secIdx := 9, imgBuf := p1Built.imgBuf }.phase = .idle
      ∧ p1.inText = { p1 with secIdx := 9, imgBuf := p1Built.imgBuf }.inText
      ∧ p1.ctrl = { p1 with secIdx := 9 }.ctrl
      ∧ fieldAfter (exec .decode { p1 with secIdx := 9, imgBuf := p1Built.imgBuf }) State.phase
        = some .decoded := by decide

/-- As many sectors as the table holds. -/
theorem witness_BuildWritesTheSectorTable :
    p1Decoded.phase = .decoded ∧ p1Decoded.secSize ≠ 0
      ∧ 2 = ceilDiv p1Decoded.endAddr.toNat p1Decoded.secSize.toNat
      ∧ 2 ≤ { p1Decoded with capSec := 2 }.capSec.toNat := by decide

theorem witness_BuildErrors :
    { p1Decoded with secSize := 0 }.secSize = 0
      ∧ (p1Decoded.secSize ≠ 0 ∧ { p1Decoded with capSec := 1 }.capSec.toNat
        < ceilDiv p1Decoded.endAddr.toNat p1Decoded.secSize.toNat) := by decide

theorem witness_ImageChecksumIsSumOfImage :
    p1Decoded.phase = .decoded ∧ fieldAfter (exec .build p1Decoded) State.phase = some .built
      ∧ p1Decoded.usesCrc = false := by decide

/-- For SectorsAreContiguous and GroupSumsAddUpToTheImageSum. -/
theorem witness_sectors : SectorTableSound p1Built ∧ p1Built.phase.hasSectors
    ∧ 0 + 1 < p1Built.secCount.toNat := by decide

theorem witness_GroupsPartitionTheSectors :
    (∀ i < 2, ∀ e ∈ p1Built.sec[i]?, e.endAddr.toNat ≤ (0x10#32).toNat + e.startAddr.toNat)
      ∧ groupsOf 0x10 p1Built.sec = [{ first := 0, last := 0 }, { first := 1, last := 1 }] := by decide

/-- No sector; a window below the sector size; one group and two. -/
theorem witness_VerifyFormsGroupsAndPresentsTheFirst :
    ({ p1Built with vwin := 0x0F }.vwin.toNat < p1Built.secSize.toNat)
      ∧ ({ p1Built with endAddr := 0, secCount := 0 }.groups = []
        ∧ p1Built.secSize.toNat ≤ p1Built.vwin.toNat)
      ∧ p1Built.groups = [{ first := 0, last := 1 }] ∧ p1Built.phase = .built ∧ p1Passed.phase = .passed := by
  decide

theorem witness_VerifyStepComparesAndAdvances :
    p1Built.phase = .built ∧ p1Verifying.phase = .verifying ∧ p1Verifying.vgResp ≠ p1Verifying.vgExpect
      ∧ ({ p1Verifying with vgResp := 0x102D }.vgResp = p1Verifying.vgExpect
        ∧ p1Verifying.vgIdx.toNat + 1 = p1Verifying.vgTotal.toNat)
      ∧ ({ p1TwoGroups with vgResp := 0xBFE }.vgResp = p1TwoGroups.vgExpect
        ∧ p1TwoGroups.vgIdx.toNat + 1 ≠ p1TwoGroups.vgTotal.toNat
        ∧ p1TwoGroups.groups[p1TwoGroups.vgIdx.toNat + 1]? = some { first := 1, last := 1 }) := by
  decide

/-- The whole of IMG, and one byte more. -/
theorem witness_RangeComputesChecksumAndCrc :
    p1Decoded.phase.hasImage
      ∧ { p1Decoded with rangeStart := 0, rangeLen := 0x100 }.rangeStart.toNat
        + { p1Decoded with rangeStart := 0, rangeLen := 0x100 }.rangeLen.toNat ≤ p1Decoded.capBuf.toNat
      ∧ p1Decoded.capBuf.toNat < { p1Decoded with rangeStart := 0xFF, rangeLen := 2 }.rangeStart.toNat
        + { p1Decoded with rangeStart := 0xFF, rangeLen := 2 }.rangeLen.toNat := by decide

theorem witness_IllegalWordsRecordIllegalCmd :
    5 < (0x6#32).toNat ∧ 5 < (0xF#32).toNat ∧ 5 < (0x11#32).toNat := by decide

theorem witness_CommandsOutOfPhaseRecordSequence :
    p1Decoded.phase ≠ .idle ∧ idle.phase ≠ .decoded
      ∧ (p1Decoded.phase ≠ .built ∧ p1Decoded.phase ≠ .passed) ∧ ¬ idle.phase.hasImage := by decide

theorem witness_ResetPutsEveryRegisterInItsResetValue :
    { p1Verifying with schedule := [.reset] }.schedule = [.reset] := by decide

theorem witness_legal_idle : Legal idle :=
  ⟨by decide, by decide, by decide, by decide, by decide, by decide,
    ⟨by decide, by decide, fun h => absurd h (by decide), by decide⟩⟩

theorem witness_legal_decoded : Legal p1Decoded :=
  ⟨by decide, by decide, by decide, by decide, by decide, by decide,
    ⟨by decide, by decide, fun h => absurd h (by decide), by decide⟩⟩

theorem witness_legal_built : Legal p1Built :=
  ⟨by decide, by decide, by decide, by decide, by decide, by decide,
    ⟨by decide, by decide, fun h => absurd h (by decide), by decide⟩⟩

theorem witness_legal_verifying : Legal p1Verifying :=
  ⟨by decide, by decide, by decide, by decide, by decide, by decide,
    ⟨by decide, by decide, fun _ => ⟨⟨0, 1⟩, by decide, by decide⟩, by decide⟩⟩

theorem witness_legal_twoGroups : Legal p1TwoGroups :=
  ⟨by decide, by decide, by decide, by decide, by decide, by decide,
    ⟨by decide, by decide, fun _ => ⟨⟨0, 0⟩, by decide, by decide⟩, by decide⟩⟩

theorem witness_legal_passed : Legal p1Passed :=
  ⟨by decide, by decide, by decide, by decide, by decide, by decide,
    ⟨by decide, by decide, fun h => absurd h (by decide), by decide⟩⟩

theorem witness_legal_failed : Legal p1Failed :=
  ⟨by decide, by decide, by decide, by decide, by decide, by decide,
    ⟨by decide, by decide, fun h => absurd h (by decide), by decide⟩⟩

/-- Steps from legal states: the premise of the invariants, and a phase change of each kind. -/
theorem witness_PhaseChangesOnlyAsListed :
    fieldAfter (step (pending 2 p1)) State.phase = some .decoded
      ∧ fieldAfter (step (pending 3 p1Decoded)) State.phase = some .built
      ∧ fieldAfter (step (pending 4 p1Built)) (fun s => (s.phase, s.vgTotal)) = some (.verifying, 1)
      ∧ fieldAfter (step (pending 4 { p1Built with endAddr := 0, secCount := 0 })) State.phase = some .passed
      ∧ fieldAfter (step { p1Verifying with vgResp := 0x102D, pend := .vstep }) State.phase = some .passed
      ∧ fieldAfter (step (pending 5 idle)) State.phase = some .failed
      ∧ fieldAfter (step (pending 1 p1Failed)) State.phase = some .idle
      ∧ fieldAfter (step { p1Failed with schedule := [.reset] }) State.phase = some .idle := by
  decide

/-- A dropped CMD write, an accepted CLEAR word, and the two turns that leave FAILED. -/
theorem witness_FailedIsLeftOnlyByClearOrReset :
    p1Failed.phase = .failed
      ∧ (fetch (pending 1 p1Failed)).1 = .instr .clear
      ∧ (fetch { p1Failed with schedule := [.reset] }).1 = .reset
      ∧ (fetch { p1Failed with schedule := [.bus 0x114 2] }).1 = .instr (.wrCmd 2)
      ∧ fieldAfter (step { p1Failed with schedule := [.bus 0x114 2] }) State.phase = some .failed
      ∧ fieldAfter (step { p1Failed with schedule := [.bus 0x114 1] }) State.pend = some (.cmd 1) := by
  decide

theorem witness_ProfileIsLockedOutsideIdle :
    fieldAfter (step { idle with schedule := [.bus 0x104 1] }) State.ctrl = some 1
      ∧ fieldAfter (step { p1Built with schedule := [.bus 0x104 1] }) State.ctrl = some 2 := by decide

theorem witness_BuffersChangeOnlyByTheirWriters :
    fieldAfter (step { idle with schedule := [.bus 0x124 9] }) (fun s => s.inBuf != idle.inBuf) = some true
      ∧ fieldAfter (step (pending 2 idle)) (fun s => s.imgBuf != idle.imgBuf) = some true := by decide

/-- DROP cleared by a STATUS write, BUSY raised by a CMD write, BUSY cleared by the engine. -/
theorem witness_DropAndBusyChangeOnlyAsListed :
    ({ idle with drop := true, schedule := [.bus 0x118 8] }.drop = true
        ∧ fieldAfter (step { idle with drop := true, schedule := [.bus 0x118 8] }) State.drop = some false)
      ∧ (idle.busy = false
        ∧ fieldAfter (step { idle with schedule := [.bus 0x114 0] }) State.busy = some true)
      ∧ (pending 0 idle).schedule = []
      ∧ fieldAfter (step (pending 0 idle)) State.busy = some false := by decide

end Sys2Proof.Tests
end

section
/-! PROOFS. BUILD: the two errors and the sector table (41_image_builder.md R193 to R199). -/

namespace Sys2Proof.Machine

/-! ### BUILD accepted in DECODED -/

/-- In DECODED the dispatch of BUILD performs its body (43_commands.md R250). -/
theorem exec_build_of_decoded {s : State} (hp : s.phase = .decoded) :
    exec .build s = .next (endStep (buildBody s)) := by
  have hx : exec .build s = .next (runCommand 0x3 buildBody s) := rfl
  rcases runCommand_cases 0x3 buildBody s with ⟨-, hr⟩ | ⟨hl, -⟩
  · rw [hx, hr]
  · rw [hp] at hl
    exact absurd hl (by decide)

/-- An error raised in DECODED is recorded with that phase, and BUSY is cleared (60_exceptions.md
R350). -/
theorem endStep_err_of_decoded {s : State} (hp : s.phase = .decoded) (code : ErrCode) (info : Word) :
    endStep (.err s code info) = { s with
      errPhase := .decoded, errCode := code, errInfo := info, phase := .failed, pend := .none } := by
  simp [endStep, enterError, hp]

/-- The state in which BUILD leaves the block when the table fits (43_commands.md R265). -/
def State.afterBuild (s : State) : State := { s with
  sec := s.builtTable ++ s.sec.drop s.sectorTotal
  secCount := BitVec.ofNat 32 s.sectorTotal
  imgCsum := sumWords (s.builtTable.map Sector.csum)
  imgCrc := sumWords (s.builtTable.map Sector.crc)
  phase := .built
  pend := .none }

theorem exec_build_eq_afterBuild {s : State} (hp : s.phase = .decoded) (hz : s.secSize ≠ 0)
    (hfit : s.sectorTotal ≤ s.capSec.toNat) : exec .build s = .next s.afterBuild := by
  rw [exec_build_of_decoded hp]
  rcases buildBody_cases s with ⟨h0, -⟩ | ⟨-, hov, -⟩ | ⟨-, -, hb⟩
  · exact absurd h0 hz
  · omega
  · rw [hb]; rfl

/-! ### The entries of the table -/

/-- BUILD's table holds the computed sectors from index 0 on. -/
theorem afterBuild_sector {s : State} {i : Nat} (hi : i < s.sectorTotal) :
    s.afterBuild.sector i = s.buildSector i := by
  have hget : s.afterBuild.sec[i]? = some (s.buildSector i) := by
    rw [State.afterBuild, List.getElem?_append_left (by simpa using hi), builtTable_get s hi]
  simp [State.sector, hget]

/-- BUILD leaves the entries from its sector count on as they were (41_image_builder.md R199). -/
theorem afterBuild_sec_of_le {s : State} {i : Nat} (hi : s.sectorTotal ≤ i) :
    s.afterBuild.sec[i]? = s.sec[i]? := by
  rw [State.afterBuild, List.getElem?_append_right (by simpa using hi), List.getElem?_drop,
    builtTable_length, Nat.add_sub_cancel' hi]

/-- With a sector size the number of sectors is a word, so SEC_COUNT holds it (10_state.md R54). -/
theorem afterBuild_secCount_toNat {s : State} (hz : s.secSize ≠ 0) :
    s.afterBuild.secCount.toNat = s.sectorTotal := by
  have hpos : 0 < s.secSize.toNat :=
    Nat.pos_of_ne_zero fun h => hz (BitVec.eq_of_toNat_eq h)
  have hle : s.sectorTotal ≤ s.endAddr.toNat := ceilDiv_le _ hpos
  have hlt := s.endAddr.isLt
  exact Nat.mod_eq_of_lt (by omega)

/-! ### The bounds of a sector lie inside the image, so that a word holds each of them -/

/-- A sector that BUILD writes starts inside the image (41_image_builder.md R195). -/
theorem sectorLo_lt_endAddr {s : State} {i : Nat} (hi : i < s.sectorTotal) :
    s.sectorLo i < s.endAddr.toNat := mul_lt_of_lt_ceilDiv hi

theorem sectorHi_le_endAddr (s : State) (i : Nat) : s.sectorHi i ≤ s.endAddr.toNat :=
  Nat.min_le_right _ _

theorem buildSector_startAddr_toNat {s : State} {i : Nat} (hi : i < s.sectorTotal) :
    (s.buildSector i).startAddr.toNat = s.sectorLo i :=
  Nat.mod_eq_of_lt (Nat.lt_trans (sectorLo_lt_endAddr hi) s.endAddr.isLt)

theorem buildSector_endAddr_toNat (s : State) (i : Nat) :
    (s.buildSector i).endAddr.toNat = s.sectorHi i :=
  Nat.mod_eq_of_lt (Nat.lt_of_le_of_lt (sectorHi_le_endAddr s i) s.endAddr.isLt)

theorem buildSector_len_toNat (s : State) (i : Nat) :
    (s.buildSector i).len.toNat = s.sectorHi i - s.sectorLo i :=
  Nat.mod_eq_of_lt
    (Nat.lt_of_le_of_lt ((Nat.sub_le _ _).trans (sectorHi_le_endAddr s i)) s.endAddr.isLt)

/-! ### The obligations -/

/-- Settles O37, by the two raising cases of BUILD's body. -/
theorem buildErrors : Obligations.BuildErrors := by
  intro s hp
  rw [exec_build_of_decoded hp]
  rcases buildBody_cases s with ⟨h0, hb⟩ | ⟨h0, -, hb⟩ | ⟨h0, hfit, -⟩
  · rw [hb, endStep_err_of_decoded hp]
    exact ⟨fun _ => rfl, fun hz => absurd h0 hz⟩
  · rw [hb, endStep_err_of_decoded hp]
    exact ⟨fun hz => absurd hz h0, fun _ _ => rfl⟩
  · exact ⟨fun hz => absurd hz h0, fun _ hov => absurd hfit (Nat.not_le.2 hov)⟩

/-- Settles O35: the state is `afterBuild`, whose entries below the sector count are `buildSector`, with
every bound at most END_ADDR and so held by a word. -/
theorem buildWritesTheSectorTable : Obligations.BuildWritesTheSectorTable := by
  intro s n hp hz hn hfit
  obtain rfl : n = s.sectorTotal := hn
  refine ⟨s.afterBuild, exec_build_eq_afterBuild hp hz hfit, rfl, afterBuild_secCount_toNat hz, ?_,
    fun i hi => afterBuild_sec_of_le hi, rfl⟩
  rintro i hi _ _ rfl rfl
  rw [afterBuild_sector hi]
  exact ⟨buildSector_startAddr_toNat hi, buildSector_endAddr_toNat s i, buildSector_len_toNat s i,
    rfl, rfl⟩

end Sys2Proof.Machine
end

section
/-! PROOFS. The verify groups and the verify step (42_verifier.md R222 to R225, R230 to R234). -/

namespace Sys2Proof.Machine

/-! ### Sums of words -/

/-- The empty sum (42_verifier.md R225). -/
@[simp] theorem sumWords_nil : sumWords [] = 0 := rfl

theorem sumWords_append (ws vs : List Word) : sumWords (ws ++ vs) = sumWords ws + sumWords vs := by
  induction ws with
  | nil => simp
  | cons w ws ih => rw [List.cons_append, sumWords_cons, sumWords_cons, ih, BitVec.add_assoc]

/-- The sum mod 2^32 does not depend on how the words are split into lists. -/
theorem sumWords_flatMap {α : Type} (f : α → List Word) (l : List α) :
    sumWords (l.map (fun a => sumWords (f a))) = sumWords (l.flatMap f) := by
  induction l with
  | nil => rfl
  | cons a l ih => rw [List.map_cons, sumWords_cons, List.flatMap_cons, sumWords_append, ih]

/-! ### The groups cover every sector once, in order (42_verifier.md R222) -/

/-- The indexes of the sectors of a group, in order (42_verifier.md R220). -/
def Group.indexes (g : Group) : List Nat := List.range' g.first (g.last + 1 - g.first)

/-- A group open from `first` on, and the groups after it, cover the indexes from `first` to the end of
the table, whatever the spans are. -/
theorem extendGroup_flatMap_indexes (vwin start : Word) (first i : Nat) (rest : List Sector)
    (hi : first < i) :
    (extendGroup vwin start first i rest).flatMap Group.indexes
      = List.range' first (i - first + rest.length) := by
  induction rest generalizing start first i with
  | nil =>
    have hlast : i - 1 + 1 = i := by omega
    simp [extendGroup, Group.indexes, hlast]
  | cons e rest ih =>
    unfold extendGroup
    split
    case isTrue =>
      rw [ih start first (i + 1) (by omega)]
      congr 1
      simp only [List.length_cons]
      omega
    case isFalse =>
      have hclosed : Group.indexes { first := first, last := i - 1 }
          = List.range' first (i - first) := by
        simp only [Group.indexes]
        congr 1
        omega
      have hjoin : i = first + (i - first) := by omega
      have hlen : i + 1 - i + rest.length = (e :: rest).length := by
        simp only [List.length_cons]
        omega
      rw [List.flatMap_cons, ih e.startAddr i (i + 1) (by omega), hclosed, hlen,
        ← List.range'_append_1, ← hjoin]

theorem groupsOf_flatMap_indexes (vwin : Word) (tbl : List Sector) :
    (groupsOf vwin tbl).flatMap Group.indexes = List.range tbl.length := by
  cases tbl with
  | nil => rfl
  | cons e rest =>
    rw [groupsOf, extendGroup_flatMap_indexes vwin e.startAddr 0 1 rest Nat.one_pos,
      List.range_eq_range', List.length_cons, Nat.sub_zero, Nat.add_comm]

theorem groupSectors_eq_map_indexes (s : State) (g : Group) :
    s.groupSectors g = g.indexes.map s.sector := by
  rw [Group.indexes, List.range'_eq_map_range, List.map_map]
  rfl

/-- The sectors of all groups, one group after the other, are the valid sectors. -/
theorem groups_flatMap_groupSectors (s : State) : s.groups.flatMap s.groupSectors = s.sectors :=
  calc s.groups.flatMap s.groupSectors
      = s.groups.flatMap (fun g => g.indexes.map s.sector) := by
        rw [funext (groupSectors_eq_map_indexes s)]
    _ = (s.groups.flatMap Group.indexes).map s.sector := List.map_flatMap.symm
    _ = s.sectors := by
        rw [State.groups, groupsOf_flatMap_indexes, sectors_length, State.sectors]

/-! ### The expected values -/

/-- The field of a sector that the expected values add up, by USES_CRC (42_verifier.md R225). -/
def State.verifyField (s : State) (e : Sector) : Word := if s.usesCrc then e.crc else e.csum

/-- The expected values of all groups add up to the field summed over all valid sectors. -/
theorem sumWords_groups_expect (s : State) :
    sumWords (s.groups.map s.expect) = sumWords (s.sectors.map s.verifyField) := by
  have hexpect : s.expect = fun g => sumWords ((s.groupSectors g).map s.verifyField) := rfl
  rw [hexpect, sumWords_flatMap, ← List.map_flatMap, groups_flatMap_groupSectors]

/-- Settles O41: the groups cover the valid sectors, and IMG_CSUM and IMG_CRC are the sums of the same
field over those sectors. -/
theorem groupSumsAddUpToTheImageSum : Obligations.GroupSumsAddUpToTheImageSum := by
  rintro s ⟨-, hsound⟩ hsec
  obtain ⟨-, -, -, hcsum, hcrc⟩ := hsound hsec
  rw [sumWords_groups_expect]
  split
  case isTrue hu =>
    have hfield : s.verifyField = Sector.crc := funext fun e => if_pos hu
    rw [hfield, hcrc]
  case isFalse hu =>
    have hfield : s.verifyField = Sector.csum := funext fun e => if_neg hu
    rw [hfield, hcsum]

/-! ### The verify step -/

/-- Outside VERIFYING the verify step is refused, with no compare (42_verifier.md R234). -/
theorem execVStep_of_not_verifying {s : State} (hp : s.phase ≠ .verifying) :
    execVStep s = .next (endStep (.err s .sequence vstepSequenceInfo)) := if_pos hp

/-- Settles O43: outside VERIFYING by the refusal; in VERIFYING each clause's hypotheses select one case
of `execVStep_cases`. -/
theorem verifyStepComparesAndAdvances : Obligations.VerifyStepComparesAndAdvances := by
  refine ⟨fun s hs => ?_, fun s hp => ?_⟩
  · have hp : s.phase ≠ .verifying := by rcases hs with h | h | h | h <;> simp [h]
    rw [execVStep_of_not_verifying hp]
    rfl
  · rcases execVStep_cases s with ⟨hn, -⟩ | ⟨-, hne, hx⟩ | ⟨-, heq, hlast, hx⟩
        | ⟨g, -, heq, hmore, hg, hx⟩ | ⟨-, heq, hmore, hnone, -⟩
    · exact absurd hp hn
    · refine ⟨fun _ => ?_, fun h => absurd h hne, fun _ h => absurd h hne⟩
      rw [hx, ← hp]
      rfl
    · exact ⟨fun h => absurd heq h, fun _ _ => hx, fun _ _ h => absurd hlast h⟩
    · refine ⟨fun h => absurd heq h, fun _ h => absurd h hmore, fun g' _ _ hg' => ?_⟩
      obtain rfl : g = g' := Option.some.inj (hg.symm.trans hg')
      exact ⟨_, hx, ⟨rfl, rfl, rfl, rfl, rfl, rfl⟩, rfl⟩
    · refine ⟨fun h => absurd heq h, fun _ h => absurd h hmore, fun g' _ _ hg' => ?_⟩
      exact absurd (hnone.symm.trans hg') (Option.some_ne_none g').symm

end Sys2Proof.Machine
end

section
/-! PROOFS. Bus access: plain reads, reserved accesses, plain and read-only writes (44_bus_access.md R291,
R292, R296, R300, R304). -/

namespace Sys2Proof.Machine

/-! ### Transactions with BUSY = 0 (44_bus_access.md R290) -/

theorem hostRead_of_not_busy {s : State} (hb : s.busy = false) (rule : State → State) :
    hostRead rule s = rule s :=
  ((hostRead_cases rule s).resolve_left (by simp [hb])).2

theorem hostWrite_of_not_busy {s : State} (hb : s.busy = false) (rule : State → State) :
    hostWrite rule s = rule s :=
  ((hostWrite_cases rule s).resolve_left (by simp [hb])).2

/-- The outcome of a plain read: its value is answered and nothing else changes (44_bus_access.md
R292). -/
theorem next_plainRead_of_not_busy {s : State} (hb : s.busy = false) (value : State → Word) :
    (.next (plainRead value s) : Result) = .next { s with rdata := value s } :=
  congrArg _ (hostRead_of_not_busy hb _)

/-- The outcome of a write with the rule `rule` (44_bus_access.md R290). -/
theorem next_hostWrite_of_not_busy {s : State} (hb : s.busy = false) (rule : State → State) :
    (.next (hostWrite rule s) : Result) = .next (rule s) :=
  congrArg _ (hostWrite_of_not_busy hb rule)

/-- The outcome of a write of a read-only register: nothing changes (44_bus_access.md R291). -/
theorem next_readOnlyWrite_of_not_busy {s : State} (hb : s.busy = false) :
    (.next (readOnlyWrite s) : Result) = .next s :=
  next_hostWrite_of_not_busy hb _

theorem minWord_eq_ofNat_min (a b : Word) : minWord a b = BitVec.ofNat 32 (min a.toNat b.toNat) := by
  rw [← minWord_toNat, BitVec.ofNat_toNat, BitVec.setWidth_eq]

/-! ### Reserved accesses (44_bus_access.md R304) -/

/-- No register stands at an offset that is not listed, so the decoder answers the reserved access
(10_state.md R64). -/
theorem decodeBus_of_not_listed {sel : Selector} (v : Word)
    (hoff : offsetListed (sel.extractLsb' 0 8) = false) :
    decodeBus sel v = .reservedAccess sel v := by
  have hnone : regAt (sel.extractLsb' 0 8) = none := by
    rw [← Option.not_isSome_iff_eq_none, regAt_isSome, hoff]
    exact Bool.false_ne_true
  rw [decodeBus, hnone]

theorem exec_reservedAccess (sel : Selector) (v : Word) (s : State) :
    exec (.reservedAccess sel v) s = .next (if sel.getLsbD 8 then s else s.answer 0) := rfl

/-! ### The obligations -/

/-- Settles O15: the offset decides what is decoded, and bit 8 of the selector, not BUSY, what is
done. -/
theorem reservedAccessesDoNothing : Obligations.ReservedAccessesDoNothing := by
  intro sel v s hoff
  refine ⟨decodeBus_of_not_listed v hoff, fun hread => ?_, fun hwrite => ?_⟩
  · rw [exec_reservedAccess, hread]
    rfl
  · rw [exec_reservedAccess, if_pos hwrite]

/-- Settles O19: the meaning of each of these writes is `readOnlyWrite`. -/
theorem readOnlyWritesHaveNoEffect : Obligations.ReadOnlyWritesHaveNoEffect := by
  intro v s hb
  and_intros <;> exact next_readOnlyWrite_of_not_busy hb

/-- Settles O17: each write performs its own rule; for STATUS bit 3 selects the branch, and the word
IN_LEN keeps is the minimum of the two values. -/
theorem plainAndStatusWrites : Obligations.PlainAndStatusWrites := by
  intro v s hb
  have hstatus : exec (.wrStatus v) s
      = .next (if v.getLsbD 3 then { s with drop := false } else s) :=
    next_hostWrite_of_not_busy hb _
  have hinLen : exec (.wrInLen v) s = .next { s with inLen := minWord v s.capIn } :=
    next_hostWrite_of_not_busy hb _
  refine ⟨fun hset => ?set, fun hclear => ?clear, ?inAddr, ?imgAddr, ?secIdx, ?rangeStart,
    ?rangeLen, ?inLen⟩
  case set => rw [hstatus, if_pos hset]
  case clear => rw [hstatus, if_neg (Bool.eq_false_iff.1 hclear)]
  case inAddr | imgAddr | secIdx | rangeStart | rangeLen => exact next_hostWrite_of_not_busy hb _
  case inLen => rw [hinLen, minWord_eq_ofNat_min]

/-- Settles O11: ID and the capacities answer in every state; every other register is a plain read of
the value named here, a sector register of its field of the view. -/
theorem plainReadsReturnStoredValues : Obligations.PlainReadsReturnStoredValues := by
  intro s hb
  have plain : ∀ value : State → Word,
      (.next (plainRead value s) : Result) = .next { s with rdata := value s } :=
    next_plainRead_of_not_busy hb
  have view : ∀ field : Sector → Word,
      (.next (plainRead (fun s => s.sectorView field) s) : Result)
        = .next { s with rdata := s.sectorView field } := fun field => plain _
  exact ⟨rfl, plain fun s => s.ctrl.setWidth 32, plain State.maxAddr, plain State.secSize,
    plain State.vwin, plain State.errInfo, plain State.inAddr, plain State.inLen,
    plain State.imgAddr, plain State.startAddr, plain State.endAddr, plain State.imgCsum,
    plain State.imgCrc, plain State.secCount, plain fun s => s.ext.setWidth 32,
    plain State.recCount, plain State.cur, plain State.secIdx, plain State.vgTotal,
    plain State.vgIdx, plain State.vgFirst, plain State.vgLast, plain State.vgStart,
    plain State.vgLen, plain State.vgExpect, plain State.vgResp, plain State.rangeStart,
    plain State.rangeLen, plain State.rangeCsum, plain State.rangeCrc, rfl, rfl, rfl,
    view Sector.startAddr, view Sector.endAddr, view Sector.len, view Sector.csum,
    view Sector.crc⟩

end Sys2Proof.Machine
end

section
/-! PROOFS. Leaving FAILED: the error record under every turn (60_exceptions.md R346, R352, 44_bus_access.md
R294). -/

namespace Sys2Proof.Machine

/-! ### The turn decides what a step runs (00_scope.md R18) -/

theorem step_of_instr {s : State} {i : Instr} (ht : (fetch s).1 = .instr i) :
    step s = exec i (fetch s).2 := by
  cases hf : fetch s with
  | mk turn s' =>
    obtain rfl : turn = .instr i := by rw [← ht, hf]
    simp only [step, hf]

theorem step_of_reset {s : State} (ht : (fetch s).1 = .reset) :
    step s = .next (resetEvent (fetch s).2) := by
  cases hf : fetch s with
  | mk turn s' =>
    obtain rfl : turn = .reset := by rw [← ht, hf]
    simp only [step, hf]

/-- CLEAR is a command: no bus transaction decodes to it (00_scope.md R3). -/
theorem decodeBus_ne_clear (sel : Selector) (v : Word) : decodeBus sel v ≠ .clear := by
  intro h
  have hspace := Laws.OpcodeSpaceKept.bus_space sel v
  rw [h] at hspace
  exact absurd hspace (by decide)

/-! ### NOP and CLEAR are performed in every phase (43_commands.md R250) -/

theorem exec_nop (s : State) : exec .nop s = .next { s with pend := .none } := rfl

theorem exec_clear (s : State) : exec .clear s = .next { clearBody s with pend := .none } := rfl

/-! ### PHASE and the error record -/

/-- `t` has the phase and the error record of `s` (60_exceptions.md R346). -/
def ErrorRecordKept (s t : State) : Prop :=
  t.phase = s.phase ∧ t.errCode = s.errCode ∧ t.errInfo = s.errInfo ∧ t.errPhase = s.errPhase

/-- Taking an event off the schedule touches no register of the block. -/
theorem fetch_keeps_error (s : State) : ErrorRecordKept s (fetch s).2 := by
  rw [fetch_state]
  exact ⟨rfl, rfl, rfl, rfl⟩

theorem ErrorRecordKept.trans {s t u : State} (hst : ErrorRecordKept s t)
    (htu : ErrorRecordKept t u) : ErrorRecordKept s u := by
  obtain ⟨hphase, hcode, hinfo, herrPhase⟩ := hst
  obtain ⟨hphase', hcode', hinfo', herrPhase'⟩ := htu
  exact ⟨hphase'.trans hphase, hcode'.trans hcode, hinfo'.trans hinfo, herrPhase'.trans herrPhase⟩

/-- No bus transaction writes PHASE or the error record (44_bus_access.md R291, R304). -/
theorem exec_decodeBus_keeps_error {sel : Selector} {v : Word} {s t : State}
    (h : exec (decodeBus sel v) s = .next t) : ErrorRecordKept s t := by
  rcases decodeBus_cases sel v with ⟨r, hr⟩ | ⟨r, hr⟩ | hr <;> rw [hr] at h
  · rw [exec_read_frame h]
    exact ⟨rfl, rfl, rfl, rfl⟩
  · rw [exec_write_frame h]
    exact ⟨rfl, rfl, rfl, rfl⟩
  · rw [exec_reserved_frame h]
    exact ⟨rfl, rfl, rfl, rfl⟩

/-! ### The obligation -/

/-- CLEAR and reset go to IDLE and empty the error record, from any state (60_exceptions.md R352). -/
theorem step_clear_or_reset_leaves_error {s t : State} (h : step s = .next t)
    (ht : (fetch s).1 = .instr .clear ∨ (fetch s).1 = .reset) :
    t.phase = .idle ∧ t.errCode = .none ∧ t.errInfo = 0 ∧ t.errPhase = .idle := by
  rcases ht with ht | ht
  · rw [step_of_instr ht, exec_clear] at h
    cases h
    exact ⟨rfl, rfl, rfl, rfl⟩
  · rw [step_of_reset ht] at h
    cases h
    exact ⟨rfl, rfl, rfl, rfl⟩

/-- Every other step from FAILED keeps the error: of the engine's operations only NOP and CLEAR can be
pending there (44_bus_access.md R294). -/
theorem step_keeps_error_of_failed {s t : State} (hl : Legal s) (hp : s.phase = .failed)
    (h : step s = .next t) (ht : ¬ ((fetch s).1 = .instr .clear ∨ (fetch s).1 = .reset)) :
    ErrorRecordKept s t := by
  obtain ⟨-, -, hpend⟩ := hl.error.2 hp
  rcases step_cases h with ⟨-, -, rfl⟩ | ⟨sel, v, rest, -, -, hx⟩ | ⟨w, hw, hturn, hx⟩
      | ⟨-, hv, -⟩ | ⟨hturn, -⟩
  · exact fetch_keeps_error s
  · exact (fetch_keeps_error s).trans (exec_decodeBus_keeps_error hx)
  · rcases hpend with hnone | hnop | hclear
    · exact absurd (hw.symm.trans hnone) Pend.noConfusion
    · obtain rfl : w = 0 := Pend.cmd.inj (hw.symm.trans hnop)
      have hcmd : decodeCmd 0 = .nop := rfl
      rw [hcmd, exec_nop] at hx
      cases hx
      exact fetch_keeps_error s
    · obtain rfl : w = 1 := Pend.cmd.inj (hw.symm.trans hclear)
      exact absurd (.inl hturn) ht
  · simp [hv] at hpend
  · exact absurd (.inr hturn) ht

/-- Settles O56: the turn decides; CLEAR and reset empty the record, and no other turn of a legal FAILED
state touches it. -/
theorem failedIsLeftOnlyByClearOrReset : Obligations.FailedIsLeftOnlyByClearOrReset := by
  intro s t hl hp h
  refine ⟨step_clear_or_reset_leaves_error h, fun ht => ?_⟩
  obtain ⟨hphase, hrecord⟩ := step_keeps_error_of_failed hl hp h ht
  exact ⟨hphase.trans hp, hrecord⟩

end Sys2Proof.Machine
end

section
/-! PROOFS. Decoding and encoding (30_encoding.md, 40_hex_decoder.md R143, R144, R150). -/

namespace Sys2Proof.Machine

/-! ### Records (30_encoding.md R120 to R124) -/

/-- The two bytes of an address, the high one first, make the address (30_encoding.md R122). -/
theorem high_low_addr (a : BitVec 16) : a.extractLsb' 8 8 ++ a.extractLsb' 0 8 = a := by
  rw [BitVec.extractLsb'_append_extractLsb'_eq_extractLsb' (by rfl), BitVec.extractLsb'_eq_self]

/-- A terminator is read back when the text after it does not make it a longer one
(40_hex_decoder.md R150). -/
theorem terminatorOf_chars_append (m : Terminator) (rest : List Byte)
    (hnone : m = .none → rest.head? ≠ some 0x0D#8 ∧ rest.head? ≠ some 0x0A#8)
    (hcr : m = .cr → rest.head? ≠ some 0x0A#8) : terminatorOf (m.chars ++ rest) = m := by
  cases m with
  | none =>
    obtain ⟨hd, ha⟩ := hnone rfl
    match rest with
    | [] => rfl
    | [c] => simp_all [Terminator.chars, terminatorOf]
    | c :: c' :: t => simp_all [Terminator.chars, terminatorOf]
  | cr =>
    have ha := hcr rfl
    cases rest with
    | nil => rfl
    | cons c t => simp_all [Terminator.chars, terminatorOf]
  | lf => cases rest <;> rfl
  | crlf => rfl

/-- The characters of a record, terminator included, are as many as the scan consumes
(30_encoding.md R124). -/
theorem encodeRecord_length (ty : Byte) (r : HexRecord) : (encodeRecord ty r).length = r.size := by
  simp only [encodeRecord, HexRecord.size, List.length_append, hexByte_length, hexBytes_length]
  omega

/-- The scan reads back the record that a longer text begins with. -/
theorem scanRecord_encodeRecord_append {ty : Byte} {r : HexRecord} {rest : List Byte}
    (hw : r.wellFormed = true)
    (hnone : r.term = .none → rest.head? ≠ some 0x0D#8 ∧ rest.head? ≠ some 0x0A#8)
    (hcr : r.term = .cr → rest.head? ≠ some 0x0A#8) :
    scanRecord (encodeRecord ty r ++ rest) = .ok (ty, r) := by
  have hlen : (BitVec.ofNat 8 r.payload.length).toNat = r.payload.length := by
    have hle : r.payload.length ≤ 255 := by simpa [HexRecord.wellFormed] using hw
    exact Nat.mod_eq_of_lt (by omega)
  simp only [scanRecord, encodeRecord, List.append_assoc, takeByte_hexByte, hlen,
    takeBytes_hexBytes, high_low_addr, terminatorOf_chars_append r.term rest hnone hcr]

/-- Settles O2. -/
theorem scanOfEncodedRecordInText : Obligations.ScanOfEncodedRecordInText :=
  fun ty r _ hw hnone hcr =>
  ⟨scanRecord_encodeRecord_append hw hnone hcr, encodeRecord_length ty r⟩

/-- A record alone is a text in which no terminator can be lengthened, and nothing follows it. -/
theorem decode_encodeRecord (usesCrc : Bool) (ty : Byte) {r : HexRecord}
    (hw : r.wellFormed = true) :
    decode usesCrc (.record (encodeRecord ty r)) = .ok (recordInstr usesCrc ty r) := by
  have hscan : scanRecord (encodeRecord ty r) = .ok (ty, r) := by
    simpa using scanRecord_encodeRecord_append (ty := ty) (rest := []) hw (by simp) (by simp)
  simp only [decode, decodeRecord, hscan, encodeRecord_length, Nat.lt_irrefl, if_false]

/-! ### Bus transactions (30_encoding.md R100, R101) -/

theorem decode_readPacket (usesCrc : Bool) (r : Reg) :
    decode usesCrc (readPacket r) = .ok r.readInstr := by
  cases r <;> rfl

theorem decode_writePacket (usesCrc : Bool) (r : Reg) (v : Word) :
    decode usesCrc (writePacket r v) = .ok (r.writeInstr v) := by
  cases r <;> rfl

/-! ### Command words (30_encoding.md R110 to R112) -/

/-- A word whose bits 31:4 are 0 is its OP. -/
theorem toNat_lt_of_rsv_zero {w : Word} (h : w.extractLsb' 4 28 = 0#28) : w.toNat < 16 := by
  have hn := congrArg BitVec.toNat h
  simp only [BitVec.extractLsb'_toNat, Nat.shiftRight_eq_div_pow, BitVec.toNat_ofNat] at hn
  omega

theorem decodeCmd_of_rsv_ne_zero {w : Word} (h : w.extractLsb' 4 28 ≠ 0#28) :
    decodeCmd w = .illegalRsv w := if_pos h

theorem encode_decodeCmd (w : Word) : encode (decodeCmd w) = .command w := by
  by_cases h : w.extractLsb' 4 28 = 0#28
  · have hops : ∀ op < 16,
        encode (decodeCmd (BitVec.ofNat 32 op)) = .command (BitVec.ofNat 32 op) := by
      decide
    simpa using hops w.toNat (toNat_lt_of_rsv_zero h)
  · rw [decodeCmd_of_rsv_ne_zero h]; rfl

theorem decodeCmd_wellFormed (w : Word) : (decodeCmd w).wellFormed = true := by
  by_cases h : w.extractLsb' 4 28 = 0#28
  · have hops : ∀ op < 16, (decodeCmd (BitVec.ofNat 32 op)).wellFormed = true := by decide
    simpa using hops w.toNat (toNat_lt_of_rsv_zero h)
  · rw [decodeCmd_of_rsv_ne_zero h]
    simpa [Instr.wellFormed] using h

/-! ### What a selector decodes to -/

/-- A selector is its `we` bit before its offset (30_encoding.md R100). -/
theorem selector_eq (sel : Selector) :
    BitVec.ofBool (sel.getLsbD 8) ++ sel.extractLsb' 0 8 = sel := by
  revert sel; decide +kernel

/-- A transaction is a reserved access at an offset that is not listed, and otherwise a read or a
write, as bit 8 says, of the register at the offset (30_encoding.md R101). -/
theorem decodeBus_eq (sel : Selector) (v : Word) :
    (offsetListed (sel.extractLsb' 0 8) = false ∧ decodeBus sel v = .reservedAccess sel v)
      ∨ ∃ r : Reg, offsetListed (sel.extractLsb' 0 8) = true ∧ r.offset = sel.extractLsb' 0 8
        ∧ decodeBus sel v = if sel.getLsbD 8 then r.writeInstr v else r.readInstr := by
  cases hr : regAt (sel.extractLsb' 0 8) with
  | none =>
    have hoff := regAt_isSome (sel.extractLsb' 0 8)
    rw [hr] at hoff
    exact .inl ⟨hoff.symm, by rw [decodeBus, hr]⟩
  | some r =>
    have hoff := regAt_isSome (sel.extractLsb' 0 8)
    rw [hr] at hoff
    exact .inr ⟨r, hoff.symm, offset_regAt hr, by rw [decodeBus, hr]⟩

theorem readInstr_wellFormed (r : Reg) : r.readInstr.wellFormed = true := by cases r <;> rfl

theorem writeInstr_wellFormed (r : Reg) (v : Word) : (r.writeInstr v).wellFormed = true := by
  cases r <;> rfl

theorem encode_readInstr (r : Reg) : encode r.readInstr = .bus (0#1 ++ r.offset) 0 := by
  cases r <;> rfl

theorem encode_writeInstr (r : Reg) (v : Word) :
    encode (r.writeInstr v) = .bus (1#1 ++ r.offset) v := by
  cases r <;> rfl

/-! ### Record types (40_hex_decoder.md R160, R165) -/

/-- The reserved TYPEs are the ones that stand for no other instruction. -/
theorem typeReserved_iff (ty : Byte) : typeReserved ty = true ↔
    ty ≠ 0x00#8 ∧ ty ≠ 0x01#8 ∧ ty ≠ 0x04#8 ∧ ty ≠ 0x02#8 := by
  revert ty; decide +kernel

/-! ### The obligations -/

/-- Settles O1: the commands are finitely many words and the illegal words, a record is read back by
the scan, and a register's selector is decoded to that register. -/
theorem decodeOfEncodeReturnsInstr : Obligations.DecodeOfEncodeReturnsInstr := by
  intro usesCrc i hw hsel
  cases i
  case nop | clear | decode | build | verify | range => rfl
  case illegalOp67 lo | illegalOp8F lo => clear hw hsel; revert usesCrc lo; decide
  case illegalRsv w =>
    have hrsv : w.extractLsb' 4 28 ≠ 0#28 := by simpa [Instr.wellFormed] using hw
    exact congrArg _ (decodeCmd_of_rsv_ne_zero hrsv)
  case data r | eof r => exact decode_encodeRecord usesCrc _ hw
  case ext04 r =>
    obtain rfl : usesCrc = false := by simpa [Instr.selectedBy] using hsel
    exact decode_encodeRecord false 0x04 hw
  case ext02 r =>
    obtain rfl : usesCrc = true := hsel
    exact decode_encodeRecord true 0x02 hw
  case extNotSelected ty r =>
    simp only [Instr.wellFormed, Bool.and_eq_true, Bool.or_eq_true, beq_iff_eq] at hw
    obtain ⟨rfl | rfl, hr⟩ := hw
    · obtain rfl : false = usesCrc := by simpa [Instr.selectedBy] using hsel
      exact decode_encodeRecord false 0x02 hr
    · obtain rfl : true = usesCrc := by simpa [Instr.selectedBy] using hsel
      exact decode_encodeRecord true 0x04 hr
  case reservedType ty r =>
    simp only [Instr.wellFormed, Bool.and_eq_true] at hw
    obtain ⟨hty, hr⟩ := hw
    obtain ⟨h0, h1, h4, h2⟩ := (typeReserved_iff ty).1 hty
    refine (decode_encodeRecord usesCrc ty hr).trans ?_
    rw [recordInstr, if_neg h0, if_neg h1, if_neg h4, if_neg h2]
  case reservedAccess sel v =>
    have hoff : offsetListed (sel.extractLsb' 0 8) = false := by simpa [Instr.wellFormed] using hw
    exact congrArg _ (decodeBus_of_not_listed v hoff)
  case rdId | rdCtrl | rdMaxAddr | rdSecSize | rdVwin | rdCmd | rdStatus | rdErrInfo | rdInAddr
      | rdInData | rdInLen | rdImgAddr | rdImgData | rdStartAddr | rdEndAddr | rdImgCsum | rdImgCrc
      | rdSecCount | rdExt | rdRecCount | rdCur | rdSecIdx | rdSecStart | rdSecEnd | rdSecLen
      | rdSecCsum | rdSecCrc | rdVgTotal | rdVgIdx | rdVgFirst | rdVgLast | rdVgStart | rdVgLen
      | rdVgExpect | rdVgResp | rdRangeStart | rdRangeLen | rdRangeCsum | rdRangeCrc | rdCapBuf
      | rdCapIn | rdCapSec => exact decode_readPacket usesCrc _
  all_goals exact decode_writePacket usesCrc _ _

/-- Settles O3: a command word by its OP when its other bits are 0, a transaction by the register at
its offset. -/
theorem encodeOfDecodedCommandOrTransaction : Obligations.EncodeOfDecodedCommandOrTransaction := by
  refine ⟨encode_decodeCmd, fun sel v => ?_⟩
  rcases decodeBus_eq sel v with ⟨hoff, h⟩ | ⟨r, hoff, hr, h⟩
  · simp [h, hoff, encode]
  · have hsel := selector_eq sel
    cases hwe : sel.getLsbD 8 <;> rw [hwe] at hsel <;> simp only [hoff, h, hwe] at hsel ⊢
    · simpa [encode_readInstr, hr] using hsel
    · simpa [encode_writeInstr, hr] using hsel

/-- A record's instruction is well-formed and the one that CTRL.USES_CRC selects, when LL can say
its length (40_hex_decoder.md R160). -/
theorem recordInstr_wellFormed (usesCrc : Bool) (ty : Byte) {r : HexRecord}
    (hr : r.wellFormed = true) : (recordInstr usesCrc ty r).wellFormed = true
      ∧ (recordInstr usesCrc ty r).selectedBy usesCrc = true := by
  unfold recordInstr
  split
  · exact ⟨hr, rfl⟩
  · split
    · exact ⟨hr, rfl⟩
    · split
      · cases usesCrc <;> simp_all [Instr.wellFormed, Instr.selectedBy]
      · split
        · cases usesCrc <;> simp_all [Instr.wellFormed, Instr.selectedBy]
        · rename_i h0 h1 h4 h2
          have hty : typeReserved ty = true := (typeReserved_iff ty).2 ⟨h0, h1, h4, h2⟩
          exact ⟨by simp [Instr.wellFormed, hty, hr], rfl⟩

/-- Settles O4. -/
theorem decodedInstructionsAreWellFormed : Obligations.DecodedInstructionsAreWellFormed := by
  refine ⟨fun sel v => ?_, decodeCmd_wellFormed, fun usesCrc t i r h => ?_⟩
  · rcases decodeBus_eq sel v with ⟨hoff, h⟩ | ⟨r, -, -, h⟩ <;> rw [h]
    · simpa [Instr.wellFormed] using hoff
    · split
      · exact writeInstr_wellFormed r v
      · exact readInstr_wellFormed r
  · unfold decodeRecord at h
    cases hs : scanRecord t with
    | error e => rw [hs] at h; cases h
    | ok q =>
      rw [hs] at h
      cases h
      obtain ⟨hlen, -⟩ := scanRecord_ok hs
      exact recordInstr_wellFormed usesCrc q.1 (decide_eq_true hlen)

/-- Settles O5, by evaluation of the decoders. -/
theorem wordsOfEachFamilyDecode : Obligations.WordsOfEachFamilyDecode := by
  unfold Obligations.WordsOfEachFamilyDecode
  decide

/-- Settles O6: each clause is about the 16 digits or the 256 characters. -/
theorem hexDigitValues : Obligations.HexDigitValues := by
  refine ⟨by decide, by decide, fun c => ?_⟩
  have hall : ∀ c : Byte, ∀ n ∈ hexVal c, (n.toNat ≤ 9 ∧ c = 0x30#8 + n.setWidth 8)
      ∨ (10 ≤ n.toNat ∧ (c = 0x37#8 + n.setWidth 8 ∨ c = 0x57#8 + n.setWidth 8)) := by
    decide +kernel
  exact hall c

/-! ### Rejected records (40_hex_decoder.md R143, R144) -/

/-- A text fails where its first two digits fail, or where the text after them does. -/
theorem exists_failsAt_of_takeByte {k : Nat} {t : List Byte} {e : ScanReject}
    (herr : ∀ e', takeByte k t = .error e' → e' = e)
    (hok : ∀ b t', takeByte k t = .ok (b, t') → ∃ j, FailsAt (k + 2) j t' e) :
    ∃ j, FailsAt k j t e := by
  cases h : takeByte k t with
  | error e' =>
    obtain ⟨j, -, hf⟩ := takeByte_error h
    exact ⟨j, herr e' h ▸ hf⟩
  | ok p =>
    obtain ⟨pre, ht, hl, hd⟩ := takeByte_prefix h
    obtain ⟨j, hf⟩ := hok p.1 p.2 h
    exact ⟨2 + j, ht ▸ hf.after hl hd⟩

/-- All of `scanRecord`'s errors: the fields are read one after the other, so that the one that
fails comes after digits alone. -/
theorem scanRecord_error {t : List Byte} {e : ScanReject} (h : scanRecord t = .error e) :
    ∃ j, FailsAt 0 j t e := by
  refine exists_failsAt_of_takeByte (k := 0) (fun _ h1 => by simpa [scanRecord, h1] using h)
    fun len t1 h1 => ?_
  refine exists_failsAt_of_takeByte (k := 2) (fun _ h2 => by simpa [scanRecord, h1, h2] using h)
    fun addrHi t2 h2 => ?_
  refine exists_failsAt_of_takeByte (k := 4) (fun _ h3 => by simpa [scanRecord, h1, h2, h3] using h)
    fun addrLo t3 h3 => ?_
  refine exists_failsAt_of_takeByte (k := 6)
    (fun _ h4 => by simpa [scanRecord, h1, h2, h3, h4] using h) fun ty t4 h4 => ?_
  cases h5 : takeBytes len.toNat 8 t4 with
  | error e' =>
    obtain rfl : e' = e := by simpa [scanRecord, h1, h2, h3, h4, h5] using h
    obtain ⟨j, -, hf⟩ := takeBytes_error h5
    exact ⟨j, hf⟩
  | ok p =>
    obtain ⟨-, pre, ht, hl, hd⟩ := takeBytes_ok (bs := p.1) (t' := p.2) h5
    cases h6 : takeByte (8 + 2 * len.toNat) p.2 with
    | error e' =>
      obtain rfl : e' = e := by simpa [scanRecord, h1, h2, h3, h4, h5, h6] using h
      obtain ⟨j, -, hf⟩ := takeByte_error h6
      exact ⟨2 * len.toNat + j, ht ▸ hf.after hl hd⟩
    | ok q => simp [scanRecord, h1, h2, h3, h4, h5, h6] at h

/-- Settles O7: `FailsAt` names the one index and the kind of the rejection. -/
theorem scanRejectsAtFirstFailingCharacter : Obligations.ScanRejectsAtFirstFailingCharacter := by
  intro t e h
  obtain ⟨j, hkind, hdigits⟩ := scanRecord_error h
  simp only [Nat.zero_add] at hkind
  rcases hkind with ⟨rfl, hlen⟩ | ⟨rfl, hbad⟩
  · exact ⟨by rintro k ⟨⟩; exact ⟨hlen.symm, hdigits⟩, by rintro k ⟨⟩⟩
  · exact ⟨by rintro k ⟨⟩, by rintro k ⟨⟩; exact ⟨hbad, hdigits⟩⟩

end Sys2Proof.Machine
end

section
/-! PROOFS. What a step runs, and the bus transactions (00_scope.md R18, 44_bus_access.md,
70_reset_and_hazards.md R390, R391). -/

namespace Sys2Proof.Machine

/-! ### A step (00_scope.md R18) -/

theorem fetch_nil {s : State} (hs : s.schedule = []) : fetch s = (engineTurn s, s) := by
  simp only [fetch, hs]

theorem fetch_engine {s : State} {rest : List Event} (hs : s.schedule = .engine :: rest) :
    fetch s = (engineTurn s, { s with schedule := rest }) := by
  simp only [fetch, hs]

theorem fetch_bus {s : State} {sel : Selector} {v : Word} {rest : List Event}
    (hs : s.schedule = .bus sel v :: rest) :
    fetch s = (.instr (decodeBus sel v), { s with schedule := rest }) := by
  simp only [fetch, hs]

theorem engineTurn_none {s : State} (hp : s.pend = .none) : engineTurn s = .idle := by
  simp only [engineTurn, hp]

theorem engineTurn_cmd {s : State} {w : Word} (hp : s.pend = .cmd w) :
    engineTurn s = .instr (decodeCmd w) := by
  simp only [engineTurn, hp]

theorem engineTurn_vstep {s : State} (hp : s.pend = .vstep) : engineTurn s = .verifyStep := by
  simp only [engineTurn, hp]

/-- Settles O8: the head of the schedule gives the turn, and PEND what the engine's turn runs. -/
theorem stepRunsTheDecodedInstruction : Obligations.StepRunsTheDecodedInstruction := by
  refine ⟨fun s sel v rest hs => ?bus, fun s w rest hs hp => ?cmd, fun s w hs hp => ?cmdLast,
    fun s rest hs hp => ?vstep, fun s hs hp => ?vstepLast, fun s rest hs hp => ?idle,
    fun s hs hp => ?idleLast⟩
  case bus => rw [step, fetch_bus hs]
  case cmd => rw [step, fetch_engine hs, engineTurn_cmd hp]
  case cmdLast => rw [step, fetch_nil hs, engineTurn_cmd hp]
  case vstep => rw [step, fetch_engine hs, engineTurn_vstep hp]
  case vstepLast => rw [step, fetch_nil hs, engineTurn_vstep hp]
  case idle => rw [step, fetch_engine hs, engineTurn_none hp]
  case idleLast => rw [step, fetch_nil hs, engineTurn_none hp]

/-- Settles O10: every arm of `exec` answers a next state; only VSTEP, which is no instruction, can
stop. -/
theorem everyInstructionCompletes : Obligations.EveryInstructionCompletes := by
  intro i s
  cases i <;> exact ⟨_, rfl⟩

/-! ### Transactions with BUSY = 1 (70_reset_and_hazards.md R390, R391) -/

theorem next_hostRead_of_busy {s : State} (hb : s.busy = true) (rule : State → State) :
    (.next (hostRead rule s) : Result) = .next s.answerDraw :=
  congrArg _ (if_pos hb)

theorem next_hostWrite_of_busy {s : State} (hb : s.busy = true) (rule : State → State) :
    (.next (hostWrite rule s) : Result) = .next s.dropWrite :=
  congrArg _ (if_pos hb)

/-- Settles O22: every write has a rule of its own with BUSY = 0 alone. -/
theorem writesWhileBusyOnlySetDrop : Obligations.WritesWhileBusyOnlySetDrop := by
  intro r v s hb
  cases r <;> exact next_hostWrite_of_busy hb _

/-! ### Reads -/

/-- A pointer that advances mod 2^32 (44_bus_access.md R297 to R299). -/
theorem word_add_one (a : Word) : a + 1 = BitVec.ofNat 32 ((a.toNat + 1) % 2 ^ 32) := by
  apply BitVec.eq_of_toNat_eq
  simp [BitVec.toNat_add]

/-- Settles O12. -/
theorem portReadsAdvanceThePointer : Obligations.PortReadsAdvanceThePointer := by
  intro s hb
  rw [← word_add_one, ← word_add_one]
  exact ⟨congrArg _ (hostRead_of_not_busy hb _), congrArg _ (hostRead_of_not_busy hb _)⟩

/-- STATUS, field by field (10_state.md R37). -/
theorem status_fields (s : State) :
    s.status.getLsbD 0 = s.busy ∧ s.status.getLsbD 1 = s.vreq
      ∧ s.status.getLsbD 2 = s.eofSeen ∧ s.status.getLsbD 3 = s.drop
      ∧ s.status.extractLsb' 4 4 = s.phase.code ∧ s.status.extractLsb' 8 8 = s.errCode.code
      ∧ s.status.extractLsb' 16 4 = s.errPhase.code ∧ s.status.extractLsb' 20 12 = 0#12 := by
  unfold State.status
  refine ⟨?busy, ?vreq, ?eofSeen, ?drop, ?phase, ?errCode, ?errPhase, ?reserved⟩
  case busy | vreq | eofSeen | drop => simp only [BitVec.getLsbD_append]; simp
  · iterate 4 rw [BitVec.extractLsb'_append_eq_of_le (by decide)]
    exact BitVec.extractLsb'_append_eq_right
  · iterate 5 rw [BitVec.extractLsb'_append_eq_of_le (by decide)]
    exact BitVec.extractLsb'_append_eq_right
  · iterate 6 rw [BitVec.extractLsb'_append_eq_of_le (by decide)]
    exact BitVec.extractLsb'_append_eq_right
  · iterate 6 rw [BitVec.extractLsb'_append_eq_of_le (by decide)]
    exact BitVec.extractLsb'_append_eq_left

/-- Settles O13: STATUS and CMD answer the same whether BUSY or not, and the codes are evaluated. -/
theorem statusAndCmdReads : Obligations.StatusAndCmdReads := by
  refine ⟨fun s => ?_, by decide, by decide⟩
  obtain ⟨hbusy, hvreq, hrest⟩ := status_fields s
  exact ⟨rfl, rfl, hbusy, hvreq, hrest⟩

/-- Settles O14: the six exceptions have no BUSY test, every other read draws. -/
theorem readsWhileBusy : Obligations.ReadsWhileBusy := by
  intro s hb
  obtain ⟨hbusy, hvreq, -⟩ := status_fields s
  refine ⟨rfl, rfl, rfl, rfl, rfl, rfl, hbusy.trans hb, ?_, ?_⟩
  · rw [hvreq, State.vreq, hb]
    exact Bool.and_false _
  · rintro r ⟨hid, hcmd, hstatus, hbuf, hin, hsec⟩
    cases r
    case id | cmd | status | capBuf | capIn | capSec => contradiction
    all_goals exact next_hostRead_of_busy hb _

/-- A read of a register other than the two ports answers a value that does not depend on the word
of the read before it (20_memory.md R88). -/
theorem exec_readInstr_eq_answer {r : Reg} (hin : r ≠ .inData) (himg : r ≠ .imgData) :
    ∃ value : State → Word, (∀ s w, value (s.answer w) = value s)
      ∧ ∀ s, s.busy = false → exec r.readInstr s = .next (s.answer (value s)) := by
  cases r
  case inData | imgData => contradiction
  case id => exact ⟨fun _ => Config.idWord, fun _ _ => rfl, fun _ _ => rfl⟩
  case cmd => exact ⟨fun _ => 0, fun _ _ => rfl, fun _ _ => rfl⟩
  case status => exact ⟨State.status, fun _ _ => rfl, fun _ _ => rfl⟩
  case capBuf => exact ⟨State.capBuf, fun _ _ => rfl, fun _ _ => rfl⟩
  case capIn => exact ⟨State.capIn, fun _ _ => rfl, fun _ _ => rfl⟩
  case capSec => exact ⟨State.capSec, fun _ _ => rfl, fun _ _ => rfl⟩
  all_goals exact ⟨_, fun _ _ => rfl, fun _ hb => next_plainRead_of_not_busy hb _⟩

/-- Settles O16: the second read answers the word of the first. -/
theorem readsOtherThanPortsAreIdempotent : Obligations.ReadsOtherThanPortsAreIdempotent := by
  intro r s t u hb hin himg ht hu
  obtain ⟨value, hvalue, hread⟩ := exec_readInstr_eq_answer hin himg
  rw [hread s hb] at ht
  cases ht
  rw [hread (s.answer (value s)) hb, hvalue] at hu
  cases hu
  exact ⟨rfl, rfl⟩

/-! ### Writes -/

/-- The outcome of an accepted write of a profile register (44_bus_access.md R295). -/
theorem next_profileWrite_of_idle {s : State} (hb : s.busy = false) (hp : s.phase = .idle)
    (store : State → State) : (.next (profileWrite store s) : Result) = .next (store s) :=
  (next_hostWrite_of_not_busy hb _).trans (congrArg _ (if_pos hp))

/-- The outcome of a write of a profile register outside IDLE (70_reset_and_hazards.md R392). -/
theorem next_profileWrite_of_not_idle {s : State} (hb : s.busy = false) (hp : s.phase ≠ .idle)
    (store : State → State) : (.next (profileWrite store s) : Result) = .next s.dropWrite :=
  (next_hostWrite_of_not_busy hb _).trans (congrArg _ (if_neg hp))

/-- Settles O18. -/
theorem profileWritesStoreOnlyInIdle : Obligations.ProfileWritesStoreOnlyInIdle := by
  intro v s hb
  rw [← minWord_eq_ofNat_min]
  refine ⟨fun hp => ?_, fun hp => ?_⟩
  · and_intros <;> exact next_profileWrite_of_idle hb hp _
  · and_intros <;> exact next_profileWrite_of_not_idle hb hp _

/-- Settles O20: the byte is read back from the canonical buffer. -/
theorem inDataWriteStoresOneByte : Obligations.InDataWriteStoresOneByte := by
  intro v s hb hw
  refine ⟨_, next_hostWrite_of_not_busy hb _, by rw [← word_add_one], fun a => ?_⟩
  by_cases hcap : s.inAddr.toNat < s.capIn.toNat
  · simp only [State.inByte, if_pos hcap, Memory.read?_write hw]
    by_cases ha : a = s.inAddr.toNat <;> simp [ha, hcap]
  · simp [State.inByte, hcap]

/-- The word of a CMD write is accepted in FAILED when it is NOP or CLEAR (44_bus_access.md R294).
-/
theorem acceptedInFailed_iff (w : Word) : acceptedInFailed w = true ↔ w = 0#32 ∨ w = 1#32 := by
  simp [acceptedInFailed]

/-- The outcome of a CMD write with BUSY = 0 (44_bus_access.md R293, R294). -/
theorem exec_wrCmd_of_not_busy {s : State} (hb : s.busy = false) (v : Word) :
    exec (.wrCmd v) s = .next (if s.phase = .failed ∧ acceptedInFailed v = false then s.dropWrite
      else s.start (.cmd v)) :=
  next_hostWrite_of_not_busy hb _

/-- The outcome of a VG_RESP write with BUSY = 0 (44_bus_access.md R302). -/
theorem exec_wrVgResp_of_not_busy {s : State} (hb : s.busy = false) (v : Word) :
    exec (.wrVgResp v) s = .next (if s.phase = .failed then s.dropWrite
      else { s with vgResp := v }.start .vstep) :=
  next_hostWrite_of_not_busy hb _

/-- Settles O21. -/
theorem cmdAndVgRespWritesStartOperations : Obligations.CmdAndVgRespWritesStartOperations := by
  intro v s hb
  have haccept := acceptedInFailed_iff v
  rw [exec_wrCmd_of_not_busy hb, exec_wrVgResp_of_not_busy hb]
  refine ⟨fun hp => ?_, fun hp => ?_, fun h => ?_, fun h => ?_⟩
  · rw [if_neg hp]; rfl
  · rw [if_pos hp]; rfl
  · rw [if_neg]
    · rfl
    · rintro ⟨hp, hv⟩
      rcases h with h | h
      · exact h hp
      · exact Bool.false_ne_true (hv.symm.trans (haccept.2 h))
  · obtain ⟨hp, h0, h1⟩ := h
    rw [if_pos]
    · rfl
    · exact ⟨hp, Bool.eq_false_iff.2 fun hv => (haccept.1 hv).elim h0 h1⟩

/-! ### The dispatch of a legal command word (43_commands.md R250, R252) -/

theorem runCommand_of_legal {op : BitVec 4} {s : State} (h : opLegalIn op s.phase = true)
    (body : State → EngineEnd) : runCommand op body s = endStep (body s) := by
  rw [runCommand, if_pos h]

theorem runCommand_of_illegal {op : BitVec 4} {s : State} (h : opLegalIn op s.phase = false)
    (body : State → EngineEnd) :
    runCommand op body s = endStep (.err s .sequence (op.setWidth 32)) := by
  rw [runCommand, if_neg (by simp [h])]

/-- The phases of the four commands that have phases of their own. -/
theorem opLegalIn_iff (p : Phase) : (opLegalIn 0x2 p = true ↔ p = .idle)
    ∧ (opLegalIn 0x3 p = true ↔ p = .decoded)
    ∧ (opLegalIn 0x4 p = true ↔ p = .built ∨ p = .passed)
    ∧ (opLegalIn 0x5 p = true ↔ p.hasImage) := by
  cases p <;> decide

end Sys2Proof.Machine
end

section
/-! PROOFS. One record run alone, and in the decoder's loop (40_hex_decoder.md R155 to R167,
41_image_builder.md R181 to R189). -/

namespace Sys2Proof.Machine

/-! ### The record instructions (log 9) -/

/-- A record instruction is one turn of the loop for the TYPE it was decoded from (40_hex_decoder.md
R155). -/
theorem exec_recordInstr (ty : Byte) (r : HexRecord) (s : State) :
    exec (recordInstr s.usesCrc ty r) s = .next (runRecord r (interpret ty r s)) := by
  unfold recordInstr interpret
  split
  · rfl
  · split
    · rfl
    · split
      · cases hu : s.usesCrc <;> simp [exec, execExt04, execExtNotSelected, hu]
      · split
        · cases hu : s.usesCrc <;> simp [exec, execExt02, execExtNotSelected, hu]
        · rfl

/-- The state a record leaves when it is refused, run alone (60_exceptions.md R350, log 9). -/
theorem runRecord_refuseRecord (r : HexRecord) (s : State) : runRecord r (refuseRecord s) = { s with
    errPhase := s.phase, errCode := .recType, errInfo := s.cur, phase := .failed, pend := .none } :=
  rfl

/-- Settles O9: the turn's outcome is `runRecord` of what `interpret` answers; an answer without
error keeps PHASE and CTRL. -/
theorem decoderLoopRunsRecordInstructions : Obligations.DecoderLoopRunsRecordInstructions := by
  intro fuel c t s s' ty r hscan hp h
  rw [exec_recordInstr] at h
  cases h
  cases hi : interpret ty r s with
  | err s1 code info =>
    have hphase : (runRecord r (.err s1 code info)).phase = .failed := rfl
    refine ⟨fun _ => ?_, fun hne => absurd hphase hne, fun hne => absurd hphase hne⟩
    simp only [decodeLoop, hscan, hi, recordTurn, runRecord]
  | ok s1 =>
    have hphase : s1.phase = s.phase := by rw [interpret_frame hi]
    have hctrl : s1.ctrl = s.ctrl := by rw [interpret_frame hi]
    have hstop : stopsDecoding ty (passRecord r s1) = (ty == 0x01#8 && s.eofStop) := by
      simp only [stopsDecoding, State.eofStop, passRecord_ctrl, hctrl]
    refine ⟨fun hf => absurd (hphase.symm.trans hf) hp, fun _ hty hs => ?_, fun _ hgo => ?_⟩
    · have hends : stopsDecoding ty (passRecord r s1) = true := by rw [hstop, hty, hs]; rfl
      simp only [decodeLoop, hscan, hi, recordTurn, runRecord, hends, if_true]
    · have hgo : stopsDecoding ty (passRecord r s1) = false := by
        rw [hstop]
        rcases hgo with hty | hs
        · simp [hty]
        · simp [hs]
      simp only [decodeLoop, hscan, hi, recordTurn, runRecord, hgo, Bool.false_eq_true, if_false]

/-! ### Extended-address and EOF records -/

theorem ext04Record_of_payload {r : HexRecord} {d0 d1 : Byte} (h : r.payload = [d0, d1])
    (s : State) :
    ext04Record r s = .ok { s with ext := extValue d0 d1 } := by
  simp only [ext04Record, h]

theorem ext02Record_of_payload {r : HexRecord} {d0 d1 : Byte} (h : r.payload = [d0, d1])
    (s : State) :
    ext02Record r s = .ok { s with ext := extValue d0 d1 >>> Config.ext02Shift } := by
  simp only [ext02Record, h]

theorem ext04Record_of_length_ne {r : HexRecord} (h : r.payload.length ≠ 2) (s : State) :
    ext04Record r s = refuseRecord s := by
  unfold ext04Record
  split
  · rename_i hpl; simp [hpl] at h
  · rfl

theorem ext02Record_of_length_ne {r : HexRecord} (h : r.payload.length ≠ 2) (s : State) :
    ext02Record r s = refuseRecord s := by
  unfold ext02Record
  split
  · rename_i hpl; simp [hpl] at h
  · rfl

theorem extValue_eq_ofNat (d0 d1 : Byte) :
    extValue d0 d1 = BitVec.ofNat 16 (d0.toNat * 256 + d1.toNat) := by
  rw [← extValue_toNat, BitVec.ofNat_toNat, BitVec.setWidth_eq]

theorem extValue_shift_eq_ofNat (d0 d1 : Byte) : extValue d0 d1 >>> Config.ext02Shift
    = BitVec.ofNat 16 ((d0.toNat * 256 + d1.toNat) / 2 ^ 12) := by
  have hshift : (extValue d0 d1 >>> Config.ext02Shift).toNat
      = (d0.toNat * 256 + d1.toNat) / 2 ^ 12 := by
    rw [BitVec.toNat_ushiftRight, extValue_toNat, Nat.shiftRight_eq_div_pow]
    rfl
  rw [← hshift, BitVec.ofNat_toNat, BitVec.setWidth_eq]

theorem exec_ext04 (r : HexRecord) (s : State) : exec (.ext04 r) s
    = .next (runRecord r (if s.usesCrc then refuseRecord s else ext04Record r s)) := rfl

theorem exec_ext02 (r : HexRecord) (s : State) : exec (.ext02 r) s
    = .next (runRecord r (if s.usesCrc then ext02Record r s else refuseRecord s)) := rfl

/-- Settles O25. -/
theorem eofAndExtendedAddressRecords : Obligations.EofAndExtendedAddressRecords := by
  refine ⟨fun r s => rfl, fun r s d0 d1 hpl => ⟨fun hu => ?_, fun hu => ?_⟩⟩
  · rw [exec_ext04, hu, ext04Record_of_payload hpl, extValue_eq_ofNat]
    rfl
  · rw [exec_ext02, hu, ext02Record_of_payload hpl, extValue_shift_eq_ofNat]
    rfl

/-- Settles O26: each of these records comes down to `refuseRecord`. -/
theorem refusedRecordsRecordRecType : Obligations.RefusedRecordsRecordRecType := by
  rintro r ty s _ rfl
  rw [← runRecord_refuseRecord r s]
  refine ⟨rfl, rfl, fun h => ?_, fun h => ?_⟩
  · rw [exec_ext04]
    rcases h with hu | hlen
    · rw [if_pos hu]
    · rw [ext04Record_of_length_ne hlen, ite_self]
  · rw [exec_ext02]
    rcases h with hu | hlen
    · rw [if_neg (by simp [hu])]
    · rw [ext02Record_of_length_ne hlen, ite_self]

/-! ### Data records -/

theorem exec_data (r : HexRecord) (s : State) :
    exec (.data r) s = .next (runRecord r (dataRecord r s)) := rfl

/-- Settles O24: the two raising cases of a data record. -/
theorem dataRecordOutOfRangeIsRefused : Obligations.DataRecordOutOfRangeIsRefused := by
  intro r s a0 ha
  rw [exec_data]
  rcases dataRecord_cases r s a0 ha with ⟨hle, hd⟩ | ⟨hlt, hspan, hd⟩ | ⟨hlt, hnil, -⟩
      | ⟨hlt, hfit, -, -⟩
  · rw [hd]
    exact ⟨fun _ => rfl, fun hlt => absurd hlt (by omega)⟩
  · rw [hd]
    exact ⟨fun hle => absurd hle (by omega), fun _ _ => rfl⟩
  · refine ⟨fun hle => absurd hle (by omega), fun _ hspan => absurd hspan ?_⟩
    simp only [hnil, List.length_nil]
    omega
  · exact ⟨fun hle => absurd hle (by omega), fun _ hspan => absurd hspan (by omega)⟩

/-- The state after the payload `d` has gone to the absolute address `a0` (41_image_builder.md R184
to R186). -/
def State.withData (s : State) (a0 : Nat) (d : List Byte) : State :=
  if d = [] then s
  else widenBounds (BitVec.ofNat 32 a0) (BitVec.ofNat 32 (a0 + d.length))
    { s with imgBuf := s.imgBuf.writeBytes a0 d }

/-- A data record inside the profile's capacity does not raise. -/
theorem dataRecord_of_fits {r : HexRecord} {s : State} {a0 : Nat}
    (ha : a0 = r.addr.toNat + s.ext.toNat * 2 ^ 16) (hlt : a0 < s.maxAddr.toNat)
    (hfit : a0 + r.payload.length ≤ s.maxAddr.toNat) :
    dataRecord r s = .ok (s.withData a0 r.payload) := by
  rcases dataRecord_cases r s a0 ha with ⟨hle, -⟩ | ⟨-, hspan, -⟩ | ⟨-, hnil, hd⟩ | ⟨-, -, hne, hd⟩
  · omega
  · omega
  · rw [hd, State.withData, if_pos hnil]
  · rw [hd, State.withData, if_neg hne]

@[simp] theorem withData_nil (s : State) (a0 : Nat) : s.withData a0 [] = s := rfl

theorem withData_of_ne_nil {d : List Byte} (hd : d ≠ []) (s : State) (a0 : Nat) :
    s.withData a0 d = widenBounds (BitVec.ofNat 32 a0) (BitVec.ofNat 32 (a0 + d.length))
      { s with imgBuf := s.imgBuf.writeBytes a0 d } := if_neg hd

/-- A payload writes the image, its bounds and HAVE_DATA alone (41_image_builder.md R186). -/
theorem withData_frame (s : State) (a0 : Nat) (d : List Byte) : s.withData a0 d = { s with
    imgBuf := s.imgBuf.writeBytes a0 d
    startAddr := (s.withData a0 d).startAddr
    endAddr := (s.withData a0 d).endAddr
    haveData := (s.withData a0 d).haveData } := by
  by_cases hd : d = []
  · subst hd; rfl
  · rw [withData_of_ne_nil hd, widenBounds_frame]

@[simp] theorem withData_maxAddr (s : State) (a0 : Nat) (d : List Byte) :
    (s.withData a0 d).maxAddr = s.maxAddr := by rw [withData_frame]

@[simp] theorem withData_ext (s : State) (a0 : Nat) (d : List Byte) :
    (s.withData a0 d).ext = s.ext := by rw [withData_frame]

@[simp] theorem withData_imgBuf (s : State) (a0 : Nat) (d : List Byte) :
    (s.withData a0 d).imgBuf = s.imgBuf.writeBytes a0 d := by rw [withData_frame]

/-- The byte at `a` after a payload (41_image_builder.md R184). -/
theorem withData_imgByte {s : State} (hw : s.imgBuf.wf = true) (a0 : Nat) (d : List Byte)
    (a : Nat) :
    (s.withData a0 d).imgByte a
      = if a0 ≤ a ∧ a < a0 + d.length then d.getD (a - a0) 0 else s.imgByte a := by
  rw [withData_frame]
  simp only [State.imgByte, Memory.read?_writeBytes hw]
  by_cases h : a0 ≤ a ∧ a < a0 + d.length
  · have hlt : a - a0 < d.length := by omega
    simp [h, hlt]
  · simp [h]

/-- The bounds and HAVE_DATA after a payload with bytes: taken from it when it is the first, and
widened by it otherwise (41_image_builder.md R185). -/
theorem withData_bounds {d : List Byte} (hd : d ≠ []) (s : State) {a0 : Nat}
    (hfit : a0 + d.length < 2 ^ 32) : (s.withData a0 d).haveData = true
      ∧ (s.haveData = false → (s.withData a0 d).startAddr.toNat = a0
        ∧ (s.withData a0 d).endAddr.toNat = a0 + d.length)
      ∧ (s.haveData = true → (s.withData a0 d).startAddr.toNat = min s.startAddr.toNat a0
        ∧ (s.withData a0 d).endAddr.toNat = max s.endAddr.toNat (a0 + d.length)) := by
  have hlo : (BitVec.ofNat 32 a0).toNat = a0 := Nat.mod_eq_of_lt (by omega)
  have hhi : (BitVec.ofNat 32 (a0 + d.length)).toNat = a0 + d.length := Nat.mod_eq_of_lt hfit
  obtain ⟨hfirst, hwiden, hhave⟩ := widenBounds_toNat (BitVec.ofNat 32 a0)
    (BitVec.ofNat 32 (a0 + d.length)) { s with imgBuf := s.imgBuf.writeBytes a0 d }
  rw [hlo, hhi] at hwiden
  rw [withData_of_ne_nil hd]
  refine ⟨hhave, fun h => ?_, hwiden⟩
  obtain ⟨hs, he⟩ := hfirst h
  rw [hs, he, hlo, hhi]
  exact ⟨rfl, rfl⟩

/-- Settles O23: the state is the one with the payload, and the record passed. -/
theorem dataRecordWritesImageAndBounds : Obligations.DataRecordWritesImageAndBounds := by
  intro r s a0 hw ha hlt hfit
  have hmax := s.maxAddr.isLt
  refine ⟨passRecord r (s.withData a0 r.payload), ?_, withData_imgByte hw a0 r.payload,
    fun hnil => ?_, fun hne => withData_bounds hne s (by omega), ?_⟩
  · rw [exec_data, dataRecord_of_fits ha hlt hfit]
    rfl
  · rw [hnil]
    exact ⟨rfl, rfl, rfl⟩
  · rw [withData_frame]
    rfl

/-! ### Data records that do not overlap (41_image_builder.md R189) -/

theorem writeBytes_comm {m : Memory} (hw : m.wf = true) {a1 a2 : Nat} {d1 d2 : List Byte}
    (hdis : a1 + d1.length ≤ a2 ∨ a2 + d2.length ≤ a1) :
    (m.writeBytes a1 d1).writeBytes a2 d2 = (m.writeBytes a2 d2).writeBytes a1 d1 := by
  have hw1 := Memory.writeBytes_wf hw a1 d1
  have hw2 := Memory.writeBytes_wf hw a2 d2
  refine Memory.ext_read (Memory.writeBytes_wf hw1 a2 d2) (Memory.writeBytes_wf hw2 a1 d1)
    (by simp) fun a => ?_
  rw [Memory.read?_writeBytes hw1, Memory.read?_writeBytes hw, Memory.read?_writeBytes hw2,
    Memory.read?_writeBytes hw]
  by_cases h1 : a1 ≤ a ∧ a < a1 + d1.length
  · have h2 : ¬ (a2 ≤ a ∧ a < a2 + d2.length) := by omega
    rw [if_pos h1, if_neg h2, if_pos h1]
  · rw [if_neg h1, if_neg h1]

theorem minWord_comm (a b : Word) : minWord a b = minWord b a :=
  BitVec.eq_of_toNat_eq (by simp [Nat.min_comm])

theorem maxWord_comm (a b : Word) : maxWord a b = maxWord b a :=
  BitVec.eq_of_toNat_eq (by simp [Nat.max_comm])

theorem minWord_right_comm (a b c : Word) : minWord (minWord a b) c = minWord (minWord a c) b :=
  BitVec.eq_of_toNat_eq (by simp only [minWord_toNat]; omega)

theorem maxWord_right_comm (a b c : Word) : maxWord (maxWord a b) c = maxWord (maxWord a c) b :=
  BitVec.eq_of_toNat_eq (by simp only [maxWord_toNat]; omega)

theorem withData_comm {s : State} (hw : s.imgBuf.wf = true) {a1 a2 : Nat} {d1 d2 : List Byte}
    (hdis : d1 = [] ∨ d2 = [] ∨ a1 + d1.length ≤ a2 ∨ a2 + d2.length ≤ a1) :
    (s.withData a1 d1).withData a2 d2 = (s.withData a2 d2).withData a1 d1 := by
  by_cases h1 : d1 = []
  · rw [h1, withData_nil, withData_nil]
  by_cases h2 : d2 = []
  · rw [h2, withData_nil, withData_nil]
  have hbuf := writeBytes_comm hw ((hdis.resolve_left h1).resolve_left h2)
  simp only [withData_of_ne_nil h1, withData_of_ne_nil h2, widenBounds]
  cases s.haveData with
  | false =>
    simp only [Bool.false_eq_true, if_false, if_true, hbuf]
    rw [minWord_comm, maxWord_comm]
  | true =>
    simp only [if_true, hbuf]
    rw [minWord_right_comm, maxWord_right_comm]

/-- Passing a record does not touch the image and its bounds. -/
theorem passRecord_withData (r : HexRecord) (s : State) (a0 : Nat) (d : List Byte) :
    (passRecord r s).withData a0 d = passRecord r (s.withData a0 d) := by
  by_cases hd : d = []
  · subst hd; rfl
  · simp only [withData_of_ne_nil hd, widenBounds, passRecord]
    cases s.haveData <;> rfl

theorem passRecord_comm (r1 r2 : HexRecord) (s : State) :
    passRecord r2 (passRecord r1 s) = passRecord r1 (passRecord r2 s) := by
  simp only [passRecord]
  rw [add_right_comm s.cur]

/-- A data record that fits, run after another that fits under the same EXT. -/
theorem exec_data_data {r1 r2 : HexRecord} {s s1 s12 : State} {a1 a2 : Nat}
    (ha1 : a1 = r1.addr.toNat + s.ext.toNat * 2 ^ 16)
    (ha2 : a2 = r2.addr.toNat + s.ext.toNat * 2 ^ 16)
    (hlt1 : a1 < s.maxAddr.toNat) (hfit1 : a1 + r1.payload.length ≤ s.maxAddr.toNat)
    (hlt2 : a2 < s.maxAddr.toNat) (hfit2 : a2 + r2.payload.length ≤ s.maxAddr.toNat)
    (h1 : exec (.data r1) s = .next s1) (h12 : exec (.data r2) s1 = .next s12) :
    s12 = passRecord r2 (passRecord r1 ((s.withData a1 r1.payload).withData a2 r2.payload)) := by
  rw [exec_data, dataRecord_of_fits ha1 hlt1 hfit1] at h1
  obtain rfl : passRecord r1 (s.withData a1 r1.payload) = s1 := by injection h1
  rw [exec_data, dataRecord_of_fits (a0 := a2) (by simpa using ha2) (by simpa using hlt2)
    (by simpa using hfit2), passRecord_withData] at h12
  injection h12 with h12
  exact h12.symm

/-- Settles O27: the two payloads commute, and so do the two turns of the loop. -/
theorem disjointDataRecordsCommute : Obligations.DisjointDataRecordsCommute := by
  intro r1 r2 s s1 s2 s12 s21 a1 a2 hw _ ha1 ha2 hlt1 hfit1 hlt2 hfit2 hdis h1 h12 h2 h21
  rw [exec_data_data ha1 ha2 hlt1 hfit1 hlt2 hfit2 h1 h12,
    exec_data_data ha2 ha1 hlt2 hfit2 hlt1 hfit1 h2 h21, withData_comm hw hdis, passRecord_comm]

end Sys2Proof.Machine
end

section
/-! PROOFS. DECODE: the decoding loop and what it leaves (40_hex_decoder.md R140 to R150,
41_image_builder.md R180 to R188, 43_commands.md R260). -/

namespace Sys2Proof.Machine

/-! ### DECODE accepted in IDLE -/

/-- In IDLE the dispatch of DECODE performs its body (43_commands.md R250). -/
theorem exec_decode_of_idle {s : State} (hp : s.phase = .idle) :
    exec .decode s = .next (endStep (decodeBody s)) :=
  congrArg _ (runCommand_of_legal ((opLegalIn_iff s.phase).1.2 hp) decodeBody)

theorem decodeBody_of_ok {s s' : State} (h : runDecode s = .ok s') :
    decodeBody s = .ok { s' with phase := .decoded } := by simp only [decodeBody, h]

theorem decodeBody_of_err {s s' : State} {code : ErrCode} {info : Word}
    (h : runDecode s = .err s' code info) : decodeBody s = .err s' code info := by
  simp only [decodeBody, h]

/-! ### The image while it is decoded -/

/-- The image and its bounds between two records (41_image_builder.md R180 to R188). -/
structure ImageDecoded (s : State) : Prop where
  canonical : s.imgBuf.wf = true
  filled : s.imgBuf.fill = some Config.fillByte
  ordered : s.startAddr.toNat ≤ s.endAddr.toNat
  inside : s.endAddr.toNat ≤ s.maxAddr.toNat
  haveData_iff : s.haveData = true ↔ s.endAddr ≠ 0
  start_zero : s.haveData = false → s.startAddr = 0
  outside : ∀ a : Nat, a < s.startAddr.toNat ∨ s.endAddr.toNat ≤ a → s.imgByte a = Config.fillByte

theorem imageDecoded_initDecode (s : State) : ImageDecoded (initDecode s) where
  canonical := rfl
  filled := rfl
  ordered := Nat.le_refl _
  inside := Nat.zero_le _
  haveData_iff := by simp
  start_zero := fun _ => rfl
  outside := fun _ _ => rfl

/-- The end of a non-empty payload is not address 0, so HAVE_DATA and END_ADDR rise together. -/
theorem ImageDecoded.withData {s : State} (h : ImageDecoded s) {a0 : Nat} {d : List Byte}
    (hfit : a0 + d.length ≤ s.maxAddr.toNat) : ImageDecoded (s.withData a0 d) := by
  by_cases hd : d = []
  · rw [hd, withData_nil]
    exact h
  have hmax := s.maxAddr.isLt
  have hpos : 0 < d.length := List.length_pos_iff.2 hd
  obtain ⟨hhave, hfirst, hwiden⟩ := withData_bounds hd s (show a0 + d.length < 2 ^ 32 by omega)
  have hord := h.ordered
  have hins := h.inside
  have hzero : s.haveData = false → s.startAddr.toNat = 0 ∧ s.endAddr.toNat = 0 := by
    intro hf
    have he : s.endAddr = 0 := by simpa [hf] using h.haveData_iff
    rw [he, h.start_zero hf]
    exact ⟨rfl, rfl⟩
  have hbounds : (s.withData a0 d).startAddr.toNat ≤ a0
      ∧ a0 + d.length ≤ (s.withData a0 d).endAddr.toNat
      ∧ s.endAddr.toNat ≤ (s.withData a0 d).endAddr.toNat
      ∧ (s.withData a0 d).endAddr.toNat ≤ s.maxAddr.toNat
      ∧ (s.haveData = true → (s.withData a0 d).startAddr.toNat ≤ s.startAddr.toNat) := by
    cases hb : s.haveData with
    | false =>
      obtain ⟨hs0, he0⟩ := hzero hb
      obtain ⟨hs, he⟩ := hfirst hb
      exact ⟨by omega, by omega, by omega, by omega, fun h => nomatch h⟩
    | true =>
      obtain ⟨hs, he⟩ := hwiden hb
      exact ⟨by omega, by omega, by omega, by omega, fun _ => by omega⟩
  obtain ⟨hlo, hhi, hend, hcap, hstart⟩ := hbounds
  refine ⟨?canonical, ?filled, ?ordered, ?inside, ?haveData_iff, ?start_zero, ?outside⟩
  case canonical => rw [withData_imgBuf]; exact Memory.writeBytes_wf h.canonical _ _
  case filled => rw [withData_imgBuf, Memory.writeBytes_fill]; exact h.filled
  case ordered => omega
  case inside => rw [withData_maxAddr]; exact hcap
  case haveData_iff =>
    refine ⟨fun _ h0 => ?_, fun _ => hhave⟩
    have hz : (s.withData a0 d).endAddr.toNat = 0 := by rw [h0]; rfl
    omega
  case start_zero => rw [hhave]; exact fun h => nomatch h
  case outside =>
    intro a ha
    rw [withData_imgByte h.canonical, if_neg (by omega)]
    refine h.outside a ?_
    cases hb : s.haveData with
    | false => have := hzero hb; omega
    | true => have := hstart hb; omega

/-- What a record that does not raise can do to the image: write a payload inside MAXADDR, or
nothing. -/
theorem interpret_ok_cases {ty : Byte} {r : HexRecord} {s s' : State}
    (h : interpret ty r s = .ok s') :
    (∃ a0, a0 + r.payload.length ≤ s.maxAddr.toNat ∧ s' = s.withData a0 r.payload)
      ∨ s' = { s with ext := s'.ext, eofSeen := s'.eofSeen } := by
  by_cases hty : ty = 0x00#8
  · have hd : interpret ty r s = dataRecord r s := if_pos hty
    rw [hd] at h
    rcases dataRecord_cases r s _ rfl with ⟨-, he⟩ | ⟨-, -, he⟩ | ⟨hlt, hnil, -⟩ | ⟨hlt, hfit, -, -⟩
    · rw [he] at h; cases h
    · rw [he] at h; cases h
    · have hfit : r.addr.toNat + s.ext.toNat * 2 ^ 16 + r.payload.length ≤ s.maxAddr.toNat := by
        rw [hnil]; exact Nat.le_of_lt hlt
      rw [dataRecord_of_fits rfl hlt hfit] at h
      exact .inl ⟨_, hfit, by injection h with h; exact h.symm⟩
    · rw [dataRecord_of_fits rfl hlt hfit] at h
      exact .inl ⟨_, hfit, by injection h with h; exact h.symm⟩
  · exact .inr (interpret_other hty h)

theorem ImageDecoded.interpret {ty : Byte} {r : HexRecord} {s s' : State} (h : ImageDecoded s)
    (hi : interpret ty r s = .ok s') : ImageDecoded s' := by
  rcases interpret_ok_cases hi with ⟨a0, hfit, rfl⟩ | hs
  · exact h.withData hfit
  · rw [hs]
    exact ⟨h.canonical, h.filled, h.ordered, h.inside, h.haveData_iff, h.start_zero, h.outside⟩

/-- Passing a record does not touch the image. -/
theorem ImageDecoded.passRecord {s : State} (h : ImageDecoded s) (r : HexRecord) :
    ImageDecoded (passRecord r s) :=
  ⟨h.canonical, h.filled, h.ordered, h.inside, h.haveData_iff, h.start_zero, h.outside⟩

/-! ### The loop's invariant -/

/-- What holds whenever the loop has the text `t` before it: DECODE, started in `s0`, has written
the image, its bounds and the decoder registers alone, and the cursor is where `t` begins
(40_hex_decoder.md R140, R147). -/
structure Decoding (s0 : State) (t : List Byte) (s : State) : Prop where
  frame : s = { initDecode s0 with
    imgBuf := s.imgBuf, startAddr := s.startAddr, endAddr := s.endAddr, haveData := s.haveData,
    ext := s.ext, recCount := s.recCount, cur := s.cur, eofSeen := s.eofSeen }
  image : ImageDecoded s
  text : t = s0.inText.drop s.cur.toNat
  cursor : s.cur.toNat ≤ s0.inLen.toNat

theorem Decoding.text_length {s0 s : State} {t : List Byte} (h : Decoding s0 t s) :
    s.cur.toNat + t.length = s0.inLen.toNat := by
  have hcur := h.cursor
  rw [h.text, List.length_drop, inText_length]
  omega

/-- An index of the text ahead is an index of the input, which a word holds. -/
theorem Decoding.toNat_cur_add {s0 s : State} {t : List Byte} (h : Decoding s0 t s) {k : Nat}
    (hk : k ≤ t.length) : (s.cur + BitVec.ofNat 32 k).toNat = s.cur.toNat + k := by
  have hlen := h.text_length
  have hword := s0.inLen.isLt
  rw [BitVec.toNat_add, BitVec.toNat_ofNat]
  omega

theorem decoding_initDecode (s : State) : Decoding s s.inText (initDecode s) :=
  ⟨rfl, imageDecoded_initDecode s, rfl, Nat.zero_le _⟩

theorem Decoding.turn {s0 s s' : State} {t : List Byte} {ty : Byte} {r : HexRecord}
    (h : Decoding s0 t s) (hscan : scanRecord t = .ok (ty, r)) (hi : interpret ty r s = .ok s') :
    Decoding s0 (t.drop r.size) (passRecord r s') := by
  obtain ⟨-, hsize⟩ := scanRecord_size hscan
  have hlen := h.text_length
  have hcur : (passRecord r s').cur.toNat = s.cur.toNat + r.size := by
    rw [← h.toNat_cur_add hsize, interpret_frame hi]
    rfl
  refine ⟨?_, (h.image.interpret hi).passRecord r, ?_, ?_⟩
  · rw [interpret_frame hi, h.frame]
    rfl
  · rw [hcur, h.text, List.drop_drop]
  · omega

/-! ### How the loop ends -/

/-- What a failing DECODE reports with the cursor at the failing record (60_exceptions.md R340,
40_hex_decoder.md R143, R167). -/
structure ErrorLocated (s0 s : State) (code : ErrCode) (info : Word) : Prop where
  cursor : s.cur.toNat < s0.inLen.toNat
  kind : (code = .hexTrunc ∧ info = s0.inLen)
    ∨ (code = .hexChar ∧ s.cur.toNat ≤ info.toNat ∧ info.toNat < s0.inLen.toNat
      ∧ hexVal (s0.inByte info.toNat) = none)
    ∨ ((code = .recType ∨ code = .addrRange ∨ code = .spanRange) ∧ info = s.cur)

/-- A byte of the input text is the byte of IN at its index (10_state.md R47). -/
theorem inByte_of_inText_getElem? {s : State} {i : Nat} {c : Byte} (h : s.inText[i]? = some c) :
    i < s.inLen.toNat ∧ s.inByte i = c := by
  have hi : i < s.inText.length := (List.getElem?_eq_some_iff.1 h).1
  rw [inText_length] at hi
  have hget : s.inText[i]? = some (s.inByte i) := by simp [State.inText, State.inRange, hi]
  exact ⟨hi, Option.some.inj (hget.symm.trans h)⟩

theorem Decoding.scanError {s0 s : State} {t : List Byte} {e : ScanReject} (h : Decoding s0 t s)
    (hne : t ≠ []) (he : scanRecord t = .error e) :
    ∃ code info, scanError s e = .err s code info ∧ ErrorLocated s0 s code info := by
  have hlen := h.text_length
  have hcursor : s.cur.toNat < s0.inLen.toNat := by
    have := List.length_pos_iff.2 hne
    omega
  obtain ⟨j, hkind, -⟩ := scanRecord_error he
  rw [Nat.zero_add] at hkind
  rcases hkind with ⟨rfl, hj⟩ | ⟨rfl, c, hc, hbad⟩
  · refine ⟨.hexTrunc, _, rfl, hcursor, .inl ⟨rfl, BitVec.eq_of_toNat_eq ?_⟩⟩
    rw [h.toNat_cur_add (Nat.le_of_eq hj.symm), ← hj, hlen]
  · have hj : j < t.length := (List.getElem?_eq_some_iff.1 hc).1
    have hinfo := h.toNat_cur_add (Nat.le_of_lt hj)
    rw [h.text, List.getElem?_drop] at hc
    obtain ⟨hlt, hbyte⟩ := inByte_of_inText_getElem? hc
    refine ⟨.hexChar, _, rfl, hcursor, .inr (.inl ⟨rfl, ?_, ?_, ?_⟩)⟩
    · omega
    · omega
    · rw [hinfo, hbyte]
      exact hbad

theorem Decoding.interpretError {s0 s s' : State} {t : List Byte} {ty : Byte} {r : HexRecord}
    {code : ErrCode} {info : Word} (h : Decoding s0 t s) (hscan : scanRecord t = .ok (ty, r))
    (hi : interpret ty r s = .err s' code info) : ErrorLocated s0 s code info := by
  obtain ⟨hmin, hsize⟩ := scanRecord_size hscan
  have hlen := h.text_length
  obtain ⟨-, hinfo, hcode⟩ := interpret_err hi
  exact ⟨by omega, .inr (.inr ⟨hcode, hinfo⟩)⟩

/-- All that `Decode` can do (40_hex_decoder.md R140). -/
theorem runDecode_cases (s : State) :
    (∃ s', runDecode s = .ok s' ∧ ∃ t, Decoding s t s')
      ∨ ∃ s' code info, runDecode s = .err s' code info
        ∧ (∃ t, Decoding s t s') ∧ ErrorLocated s s' code info :=
  decodeLoop_rule (Decoding s) (fun s' => ∃ t, Decoding s t s')
    (fun s' code info => (∃ t, Decoding s t s') ∧ ErrorLocated s s' code info)
    (fun _ hinv => ⟨[], hinv⟩)
    (fun t _ _ hinv hne he =>
      have ⟨code, info, hx, hloc⟩ := hinv.scanError hne he
      ⟨code, info, hx, ⟨t, hinv⟩, hloc⟩)
    (fun t _ _ _ _ _ hinv hscan hi => ⟨⟨t, hinv⟩, hinv.interpretError hscan hi⟩)
    (fun _ _ _ _ _ hinv hscan hi _ => ⟨_, hinv.turn hscan hi⟩)
    (fun _ _ _ _ _ hinv hscan hi _ => hinv.turn hscan hi)
    s.inText.length s.inText (initDecode s) (Nat.le_refl _) (decoding_initDecode s)

/-- All that DECODE in IDLE can do: it ends in DECODED, or with an error it has located
(43_commands.md R260). -/
theorem exec_decode_cases {s t : State} (hp : s.phase = .idle) (h : exec .decode s = .next t) :
    (∃ s' txt, Decoding s txt s' ∧ t = { s' with phase := .decoded, pend := .none })
      ∨ ∃ s' txt code info, Decoding s txt s' ∧ ErrorLocated s s' code info
        ∧ t = endStep (.err s' code info) := by
  rw [exec_decode_of_idle hp] at h
  injection h with h
  rcases runDecode_cases s with ⟨s', hr, txt, hdec⟩ | ⟨s', code, info, hr, ⟨txt, hdec⟩, hloc⟩
  · rw [decodeBody_of_ok hr] at h
    exact .inl ⟨s', txt, hdec, h.symm⟩
  · rw [decodeBody_of_err hr] at h
    exact .inr ⟨s', txt, code, info, hdec, hloc, h.symm⟩

/-- The phase while DECODE runs is the phase it was started in. -/
theorem Decoding.phase_eq {s0 s : State} {t : List Byte} (h : Decoding s0 t s) :
    s.phase = s0.phase := by rw [h.frame]; rfl

/-- Settles O31: the loop's invariant at its end. -/
theorem decodedImageIsFillOutsideItsBounds : Obligations.DecodedImageIsFillOutsideItsBounds := by
  intro s t hp h hd
  rcases exec_decode_cases hp h with ⟨s', txt, hdec, rfl⟩ | ⟨s', txt, code, info, -, -, rfl⟩
  · exact ⟨hdec.image.outside, hdec.image.ordered, hdec.image.inside, hdec.image.haveData_iff⟩
  · exact absurd hd (by simp [endStep, enterError])

/-- Settles O32: the error is located, and was raised in IDLE. -/
theorem failingDecodeLocatesItsError : Obligations.FailingDecodeLocatesItsError := by
  intro s t hp h hf
  rcases exec_decode_cases hp h with ⟨s', txt, -, rfl⟩ | ⟨s', txt, code, info, hdec, hloc, rfl⟩
  · cases hf
  · refine ⟨hdec.phase_eq.trans hp, ?_, hloc.cursor, ?_⟩
    · show code = _ ∨ code = _ ∨ code = _ ∨ code = _ ∨ code = _
      rcases hloc.kind with ⟨hc, -⟩ | ⟨hc, -⟩ | ⟨hc, -⟩
      · exact .inr (.inl hc)
      · exact .inl hc
      · exact .inr (.inr hc)
    · show (code = _ → info = _) ∧ (code = _ → _ ≤ info.toNat ∧ info.toNat < _ ∧ hexVal _ = none)
        ∧ (code = _ ∨ code = _ ∨ code = _ → info = s'.cur)
      rcases hloc.kind with ⟨rfl, hinfo⟩ | ⟨rfl, hinfo⟩ | ⟨rfl | rfl | rfl, hinfo⟩ <;> simp [hinfo]

/-- Settles O33: the frame of the loop's invariant, and the end of the engine step. -/
theorem decodeFrame : Obligations.DecodeFrame := by
  intro s t hp h
  rcases exec_decode_cases hp h with ⟨s', txt, hdec, rfl⟩ | ⟨s', txt, code, info, hdec, -, rfl⟩
  · refine ⟨?_, .inl rfl, fun _ => ?_⟩
    · rw [hdec.frame]
      rfl
    · rw [hdec.frame]
      exact ⟨rfl, rfl, rfl⟩
  · refine ⟨?_, .inr rfl, fun hd => nomatch hd⟩
    rw [hdec.frame]
    rfl

/-! ### Inputs whose records are known -/

/-- One turn of the loop for a record that does not raise (40_hex_decoder.md R140). -/
theorem decodeLoop_of_scan {fuel : Nat} {t : List Byte} {s s' : State} {ty : Byte} {r : HexRecord}
    (hscan : scanRecord t = .ok (ty, r)) (hi : interpret ty r s = .ok s') :
    decodeLoop (fuel + 1) t s
      = if stopsDecoding ty (passRecord r s') then .ok (passRecord r s')
        else decodeLoop fuel (t.drop r.size) (passRecord r s') := by
  cases t with
  | nil => cases hscan
  | cons c t => simp only [decodeLoop, hscan, hi, recordTurn]

/-- Settles O28: the loop has no text before it. -/
theorem decodeOfEmptyInput : Obligations.DecodeOfEmptyInput := by
  intro s hp hlen
  have htext : s.inText = [] := List.eq_nil_of_length_eq_zero (by rw [inText_length, hlen]; rfl)
  have hrun : runDecode s = .ok (initDecode s) := by rw [runDecode, htext]; rfl
  refine ⟨_, exec_decode_of_idle hp, fun a => ?_, ?_⟩
  · rw [decodeBody_of_ok hrun]
    rfl
  · rw [decodeBody_of_ok hrun]
    rfl

/-- Settles O30: the EOF record is scanned back from the start of IN, and ends the loop. -/
theorem eofRecordStopsDecoding : Obligations.EofRecordStopsDecoding := by
  intro s r rest hp hstop hw htext hnone hcr
  have hscan : scanRecord s.inText = .ok (0x01#8, r) := by
    rw [htext]
    exact scanRecord_encodeRecord_append hw hnone hcr
  obtain ⟨hmin, hsize⟩ := scanRecord_size hscan
  obtain ⟨n, hn⟩ : ∃ n, s.inText.length = n + 1 := ⟨s.inText.length - 1, by omega⟩
  have hends : stopsDecoding 0x01#8 (passRecord r { initDecode s with eofSeen := true }) = true :=
    hstop
  have hrun : runDecode s = .ok (passRecord r { initDecode s with eofSeen := true }) := by
    rw [runDecode, hn, decodeLoop_of_scan (ty := 0x01#8) hscan rfl, if_pos hends]
  refine ⟨_, exec_decode_of_idle hp, ?_⟩
  rw [decodeBody_of_ok hrun]
  exact ⟨rfl, rfl, rfl, rfl, BitVec.zero_add _, rfl, rfl, fun _ => rfl⟩

/-- The state after a data record that fits, with EXT = 0 (40_hex_decoder.md R156). -/
def State.withRecord (s : State) (r : HexRecord) : State :=
  passRecord r (s.withData r.addr.toNat r.payload)

/-- The characters of the records of a list, one after the other. -/
def dataText (rs : List HexRecord) : List Byte := rs.flatMap (encodeRecord 0x00)

theorem dataText_cons (r : HexRecord) (rs : List HexRecord) :
    dataText (r :: rs) = encodeRecord 0x00 r ++ dataText rs := rfl

/-- A record begins with a hex digit, so that the record before it keeps its terminator. -/
theorem dataText_head? (rs : List HexRecord) :
    (dataText rs).head? ≠ some 0x0D#8 ∧ (dataText rs).head? ≠ some 0x0A#8 := by
  have hdigit : ∀ n : Nibble, hexDigit n ≠ 0x0D#8 ∧ hexDigit n ≠ 0x0A#8 := by decide
  cases rs with
  | nil => exact ⟨nofun, nofun⟩
  | cons r rs =>
    have hhead : (dataText (r :: rs)).head?
        = some (hexDigit ((BitVec.ofNat 8 r.payload.length).extractLsb' 4 4)) := rfl
    simpa [hhead] using hdigit ((BitVec.ofNat 8 r.payload.length).extractLsb' 4 4)

/-- With EXT = 0 the absolute address of a data record is its own (40_hex_decoder.md R166). -/
theorem interpret_data_of_fits {r : HexRecord} {s : State} (hext : s.ext = 0)
    (hlt : r.addr.toNat < s.maxAddr.toNat)
    (hfit : r.addr.toNat + r.payload.length ≤ s.maxAddr.toNat) :
    interpret 0x00#8 r s = .ok (s.withData r.addr.toNat r.payload) :=
  dataRecord_of_fits (by rw [hext]; rfl) hlt hfit

@[simp] theorem withRecord_ext (s : State) (r : HexRecord) : (s.withRecord r).ext = s.ext :=
  withData_ext s _ _

@[simp] theorem withRecord_maxAddr (s : State) (r : HexRecord) :
    (s.withRecord r).maxAddr = s.maxAddr := withData_maxAddr s _ _

@[simp] theorem withRecord_eofSeen (s : State) (r : HexRecord) :
    (s.withRecord r).eofSeen = s.eofSeen := by
  rw [State.withRecord, withData_frame]
  rfl

@[simp] theorem withRecord_recCount (s : State) (r : HexRecord) :
    (s.withRecord r).recCount = s.recCount + 1 := by
  rw [State.withRecord, withData_frame]
  rfl

@[simp] theorem withRecord_cur (s : State) (r : HexRecord) :
    (s.withRecord r).cur = s.cur + BitVec.ofNat 32 r.size := by
  rw [State.withRecord, withData_frame]
  rfl

/-- The loop over data records that fit, with EXT = 0: each in its turn. -/
theorem decodeLoop_dataText {rs : List HexRecord} {fuel : Nat} {s : State}
    (hfuel : (dataText rs).length ≤ fuel) (hext : s.ext = 0)
    (hrs : ∀ r ∈ rs, r.wellFormed = true ∧ r.addr.toNat < s.maxAddr.toNat
      ∧ r.addr.toNat + r.payload.length ≤ s.maxAddr.toNat) :
    decodeLoop fuel (dataText rs) s = .ok (rs.foldl State.withRecord s) := by
  induction rs generalizing fuel s with
  | nil => cases fuel <;> rfl
  | cons r rs ih =>
    obtain ⟨hw, hlt, hfit⟩ := hrs r List.mem_cons_self
    obtain ⟨hcr, hlf⟩ := dataText_head? rs
    have hscan : scanRecord (dataText (r :: rs)) = .ok (0x00#8, r) :=
      scanRecord_encodeRecord_append hw (fun _ => ⟨hcr, hlf⟩) (fun _ => hlf)
    obtain ⟨hmin, hsize⟩ := scanRecord_size hscan
    have hlen : (dataText (r :: rs)).length = r.size + (dataText rs).length := by
      rw [dataText_cons, List.length_append, encodeRecord_length]
    have hdrop : (dataText (r :: rs)).drop r.size = dataText rs :=
      List.drop_left' (encodeRecord_length 0x00 r)
    obtain ⟨n, rfl⟩ : ∃ n, fuel = n + 1 := ⟨fuel - 1, by omega⟩
    have hgo : stopsDecoding 0x00#8 (s.withRecord r) = false := rfl
    rw [decodeLoop_of_scan hscan (interpret_data_of_fits hext hlt hfit), ← State.withRecord, hgo,
      if_neg Bool.false_ne_true, hdrop, List.foldl_cons]
    refine ih (by omega) (by rw [withRecord_ext, hext]) fun r' hr' => ?_
    rw [withRecord_maxAddr]
    exact hrs r' (List.mem_cons_of_mem r hr')

/-- The registers after data records: all are counted, and the cursor is after their text. -/
theorem foldl_withRecord_registers (rs : List HexRecord) (s : State) :
    (rs.foldl State.withRecord s).ext = s.ext
      ∧ (rs.foldl State.withRecord s).eofSeen = s.eofSeen
      ∧ (rs.foldl State.withRecord s).recCount = s.recCount + BitVec.ofNat 32 rs.length
      ∧ (rs.foldl State.withRecord s).cur = s.cur + BitVec.ofNat 32 (dataText rs).length := by
  induction rs generalizing s with
  | nil => exact ⟨rfl, rfl, (BitVec.add_zero _).symm, (BitVec.add_zero _).symm⟩
  | cons r rs ih =>
    obtain ⟨hext, heof, hcount, hcur⟩ := ih (s.withRecord r)
    rw [List.foldl_cons, hext, heof, hcount, hcur, withRecord_ext, withRecord_eofSeen,
      withRecord_recCount, withRecord_cur, dataText_cons, List.length_append, encodeRecord_length,
      List.length_cons, Nat.add_comm rs.length, BitVec.ofNat_add, BitVec.ofNat_add,
      BitVec.add_assoc, BitVec.add_assoc]
    exact ⟨rfl, rfl, rfl, rfl⟩

/-- The byte at `a` after data records: what the last of them that covers `a` wrote
(41_image_builder.md R184). -/
theorem foldl_withRecord_imgByte (rs : List HexRecord) {s : State} (hw : s.imgBuf.wf = true)
    (a : Nat) :
    (rs.foldl State.withRecord s).imgByte a = rs.foldl (fun b r =>
      if r.addr.toNat ≤ a ∧ a < r.addr.toNat + r.payload.length
        then r.payload.getD (a - r.addr.toNat) 0 else b) (s.imgByte a) := by
  induction rs generalizing s with
  | nil => rfl
  | cons r rs ih =>
    have hw' : (s.withRecord r).imgBuf.wf = true := by
      rw [State.withRecord, passRecord_imgBuf, withData_imgBuf]
      exact Memory.writeBytes_wf hw _ _
    have hbyte : (s.withRecord r).imgByte a
        = (s.withData r.addr.toNat r.payload).imgByte a := rfl
    rw [List.foldl_cons, ih hw', hbyte, withData_imgByte hw, List.foldl_cons]

/-- A text of records holds no more records than characters. -/
theorem length_le_dataText (rs : List HexRecord) : rs.length ≤ (dataText rs).length := by
  induction rs with
  | nil => exact Nat.le_refl _
  | cons r rs ih =>
    have hpos : 10 ≤ r.size := by unfold HexRecord.size; omega
    rw [dataText_cons, List.length_append, encodeRecord_length, List.length_cons]
    omega

/-- Settles O29: the loop runs the records one after the other from an image of fill bytes. -/
theorem decodeOfDataRecordsBuildsTheImage : Obligations.DecodeOfDataRecordsBuildsTheImage := by
  intro s rs hp htext hrs
  change s.inText = dataText rs at htext
  have hrun : runDecode s = .ok (rs.foldl State.withRecord (initDecode s)) := by
    rw [runDecode, htext]
    exact decodeLoop_dataText (Nat.le_refl _) rfl hrs
  have hlen : (dataText rs).length = s.inLen.toNat := by rw [← htext, inText_length]
  obtain ⟨hext, heof, hcount, hcur⟩ := foldl_withRecord_registers rs (initDecode s)
  refine ⟨_, exec_decode_of_idle hp, ?_⟩
  rw [decodeBody_of_ok hrun]
  refine ⟨rfl, rfl, ?_, ?_, hext, heof, foldl_withRecord_imgByte rs rfl⟩
  · have hle := length_le_dataText rs
    have hword := s.inLen.isLt
    have hcount' : (rs.foldl State.withRecord (initDecode s)).recCount
        = BitVec.ofNat 32 rs.length :=
      hcount.trans (BitVec.zero_add _)
    exact (congrArg BitVec.toNat hcount').trans (Nat.mod_eq_of_lt (by omega))
  · rw [hlen, BitVec.ofNat_toNat, BitVec.setWidth_eq] at hcur
    exact hcur.trans (BitVec.zero_add _)

/-! ### DECODE depends on its input and the profile alone (43_commands.md R281) -/

/-- `s` with what the decoder of `u` has written. -/
def State.withDecoder (s u : State) : State := { s with
  imgBuf := u.imgBuf, startAddr := u.startAddr, endAddr := u.endAddr, haveData := u.haveData,
  secCount := u.secCount, imgCsum := u.imgCsum, imgCrc := u.imgCrc, ext := u.ext,
  recCount := u.recCount, cur := u.cur, eofSeen := u.eofSeen }

/-- An operation's end with its state replaced. -/
def EngineEnd.map (f : State → State) : EngineEnd → EngineEnd
  | .ok s => .ok (f s)
  | .err s code info => .err (f s) code info

/-- The start of DECODE sets all that the decoder writes. -/
theorem withDecoder_initDecode (s u : State) :
    s.withDecoder (initDecode u) = initDecode s := rfl

theorem dataRecord_withDecoder {s u : State} (hmax : s.maxAddr = u.maxAddr) (r : HexRecord) :
    dataRecord r (s.withDecoder u) = (dataRecord r u).map s.withDecoder := by
  have hext : (s.withDecoder u).ext = u.ext := rfl
  have hmax' : (s.withDecoder u).maxAddr = u.maxAddr := hmax
  unfold dataRecord imageDataRecord
  rw [hext, hmax']
  split
  · rfl
  · split
    · rfl
    · split
      · rfl
      · simp only [widenBounds, EngineEnd.map]
        cases hb : u.haveData <;> simp [State.withDecoder, hb, hmax]

theorem interpret_withDecoder {s u : State} (hctrl : s.ctrl = u.ctrl) (hmax : s.maxAddr = u.maxAddr)
    (ty : Byte) (r : HexRecord) :
    interpret ty r (s.withDecoder u) = (interpret ty r u).map s.withDecoder := by
  have hu : (s.withDecoder u).usesCrc = u.usesCrc := by simp only [State.usesCrc, ← hctrl]; rfl
  unfold interpret
  rw [hu]
  split
  · exact dataRecord_withDecoder hmax r
  · split
    · rfl
    · split
      · split
        · rfl
        · unfold ext04Record
          split <;> rfl
      · split
        · split
          · unfold ext02Record
            split <;> rfl
          · rfl
        · rfl

theorem decodeLoop_withDecoder {s u : State} (hctrl : s.ctrl = u.ctrl)
    (hmax : s.maxAddr = u.maxAddr) (fuel : Nat) (t : List Byte) :
    decodeLoop fuel t (s.withDecoder u) = (decodeLoop fuel t u).map s.withDecoder := by
  induction fuel generalizing t u with
  | zero => cases t <;> rfl
  | succ fuel ih =>
    cases t with
    | nil => rfl
    | cons c t =>
      cases hscan : scanRecord (c :: t) with
      | error e => simp only [decodeLoop, hscan]; cases e <;> rfl
      | ok p =>
        have hi := interpret_withDecoder hctrl hmax p.1 p.2
        cases hu : interpret p.1 p.2 u with
        | err u' code info =>
          rw [hu] at hi
          simp only [decodeLoop, hscan, hi, hu, EngineEnd.map, recordTurn]
        | ok u' =>
          rw [hu] at hi
          have hpass : passRecord p.2 (s.withDecoder u') = s.withDecoder (passRecord p.2 u') := rfl
          have hctrl' : s.ctrl = (passRecord p.2 u').ctrl := by
            rw [hctrl, passRecord_ctrl, interpret_frame hu]
          have hmax' : s.maxAddr = (passRecord p.2 u').maxAddr := by
            rw [hmax, passRecord_maxAddr, interpret_frame hu]
          have hstop : stopsDecoding p.1 (s.withDecoder (passRecord p.2 u'))
              = stopsDecoding p.1 (passRecord p.2 u') := by
            simp only [stopsDecoding, State.eofStop, ← hctrl']
            rfl
          rw [decodeLoop_of_scan (s' := s.withDecoder u') hscan hi, decodeLoop_of_scan hscan hu,
            hpass, hstop]
          split
          · rfl
          · exact ih hctrl' hmax' _

theorem runDecode_withDecoder {s s' : State} (htext : s.inText = s'.inText)
    (hctrl : s.ctrl = s'.ctrl) (hmax : s.maxAddr = s'.maxAddr) :
    runDecode s' = (runDecode s).map s'.withDecoder := by
  rw [runDecode, runDecode, ← htext, ← withDecoder_initDecode s' s]
  exact decodeLoop_withDecoder (u := initDecode s) hctrl.symm hmax.symm _ _

/-- Settles O34: the second run is the first with the rest of its own state. -/
theorem decodeDependsOnInputAndProfileOnly : Obligations.DecodeDependsOnInputAndProfileOnly := by
  intro s s' t t' hp hp' htext hctrl hmax h h'
  have hrun := runDecode_withDecoder htext hctrl hmax
  rw [exec_decode_of_idle hp] at h
  rw [exec_decode_of_idle hp'] at h'
  injection h with h
  injection h' with h'
  cases hr : runDecode s with
  | ok u =>
    rw [hr] at hrun
    rw [decodeBody_of_ok hr] at h
    rw [decodeBody_of_ok (s' := s'.withDecoder u) hrun] at h'
    subst h h'
    exact ⟨rfl, rfl, rfl, rfl, rfl, rfl, rfl, rfl, rfl, fun hf => nomatch hf⟩
  | err u code info =>
    rw [hr] at hrun
    rw [decodeBody_of_err hr] at h
    rw [decodeBody_of_err (s' := s'.withDecoder u) hrun] at h'
    subst h h'
    exact ⟨rfl, rfl, rfl, rfl, rfl, rfl, rfl, rfl, rfl, fun _ => ⟨rfl, rfl⟩⟩

end Sys2Proof.Machine
end

section
/-! PROOFS. The sector table, the verify groups and the other commands (41_image_builder.md part 3,
42_verifier.md R222, R223, 43_commands.md). -/

namespace Sys2Proof.Machine

/-! ### The sums (41_image_builder.md R190 to R192) -/

theorem sum32_append (b b' : List Byte) : sum32 (b ++ b') = sum32 b + sum32 b' := by
  simp only [sum32, List.map_append, List.sum_append, BitVec.ofNat_add]

/-- Settles O39. -/
theorem checksumsAreIncremental : Obligations.ChecksumsAreIncremental := by
  refine ⟨rfl, fun b => ?_, rfl, by decide +kernel, by decide +kernel, by decide +kernel,
    sum32_append, fun b b' => List.foldl_append⟩
  rw [sum32_cons]
  exact BitVec.add_zero _

/-! ### The sectors of the image (41_image_builder.md R195) -/

theorem secSize_toNat_pos {s : State} (hz : s.secSize ≠ 0) : 0 < s.secSize.toNat :=
  Nat.pos_of_ne_zero fun h => hz (BitVec.eq_of_toNat_eq h)

/-- A sector that another follows ends where that one starts. -/
theorem sectorHi_of_lt {s : State} {i : Nat} (hi : i + 1 < s.sectorTotal) :
    s.sectorHi i = s.sectorLo (i + 1) :=
  Nat.min_eq_left (Nat.le_of_lt (sectorLo_lt_endAddr hi))

/-- The last sector ends where the image ends. -/
theorem sectorHi_last {s : State} (hz : s.secSize ≠ 0) {i : Nat} (hi : i + 1 = s.sectorTotal) :
    s.sectorHi i = s.endAddr.toNat := by
  refine Nat.min_eq_right ?_
  rw [hi]
  exact le_ceilDiv_mul _ (secSize_toNat_pos hz)

theorem sectorLo_succ (s : State) (i : Nat) : s.sectorLo (i + 1) = s.sectorLo i + s.secSize.toNat :=
  Nat.succ_mul _ _

theorem sectorHi_le_sectorLo_succ (s : State) (i : Nat) : s.sectorHi i ≤ s.sectorLo (i + 1) :=
  Nat.min_le_left _ _

/-- A valid entry of a sound table is the sector that BUILD computes. -/
theorem sector_eq_buildSector {s : State} (htotal : s.secCount.toNat = s.sectorTotal)
    (htable : s.sectors = s.builtTable) {i : Nat} (hi : i < s.secCount.toNat) :
    s.sector i = s.buildSector i := by
  have hget := sectors_get s hi
  rw [htable, builtTable_get s (htotal ▸ hi)] at hget
  exact (Option.some.inj hget).symm

/-- Settles O36: the sectors of a sound table are those BUILD computes, whose bounds are multiples
of SECSIZE up to END_ADDR. -/
theorem sectorsAreContiguous : Obligations.SectorsAreContiguous := by
  rintro s ⟨-, hsound⟩ hp
  obtain ⟨hz, htotal, htable, -, -⟩ := hsound hp
  have hsector := fun i => sector_eq_buildSector (i := i) htotal htable
  refine ⟨fun i hi => ?next, fun hpos => ?ends⟩
  case next =>
    have hhi := sectorHi_of_lt (htotal ▸ hi)
    rw [hsector i (by omega), hsector (i + 1) hi]
    refine ⟨congrArg (BitVec.ofNat 32) hhi, BitVec.eq_of_toNat_eq ?_⟩
    rw [buildSector_len_toNat, hhi, sectorLo_succ, Nat.add_sub_cancel_left]
  case ends =>
    have hlast : s.secCount.toNat - 1 + 1 = s.sectorTotal := by omega
    have hhi := sectorHi_last hz hlast
    have hlo : s.sectorLo (s.secCount.toNat - 1) < s.endAddr.toNat := sectorLo_lt_endAddr (by omega)
    have hle := sectorHi_le_sectorLo_succ s (s.secCount.toNat - 1)
    have hlen := buildSector_len_toNat s (s.secCount.toNat - 1)
    have hstart := buildSector_startAddr_toNat (s := s) (i := s.secCount.toNat - 1) (by omega)
    rw [sectorLo_succ] at hle
    rw [hsector 0 hpos, hsector (s.secCount.toNat - 1) (by omega)]
    refine ⟨BitVec.eq_of_toNat_eq ?_, BitVec.eq_of_toNat_eq ?_, by omega, by omega,
      BitVec.eq_of_toNat_eq ?_⟩
    · rw [buildSector_startAddr_toNat (by omega), State.sectorLo, Nat.zero_mul]
      rfl
    · rw [buildSector_endAddr_toNat, hhi]
    · have hend := s.endAddr.isLt
      rw [BitVec.toNat_sub, hlen, hstart]
      omega

/-- The sums of the first `n` sectors add up to the sum of the bytes before their end. -/
theorem sumWords_sectorBytes {s : State} {n : Nat} (hn : n ≤ s.sectorTotal) :
    sumWords ((List.range n).map fun i => sum32 (s.sectorBytes i))
      = sum32 (s.imgRange 0 (min (s.sectorLo n) s.endAddr.toNat)) := by
  induction n with
  | zero =>
    have hlo : s.sectorLo 0 = 0 := Nat.zero_mul _
    rw [hlo, Nat.zero_min]
    rfl
  | succ n ih =>
    have hlo : s.sectorLo n < s.endAddr.toNat := sectorLo_lt_endAddr hn
    have hhi : s.sectorHi n = min (s.sectorLo (n + 1)) s.endAddr.toNat := rfl
    have hle : s.sectorLo n ≤ s.sectorHi n := by rw [hhi, sectorLo_succ]; omega
    have hsplit : s.imgRange 0 (s.sectorHi n) = s.imgRange 0 (s.sectorLo n) ++ s.sectorBytes n := by
      have hjoin := imgRange_append s 0 (s.sectorLo n) (s.sectorHi n - s.sectorLo n)
      rw [Nat.zero_add, Nat.add_sub_cancel' hle] at hjoin
      exact hjoin.symm
    rw [List.range_succ, List.map_append, sumWords_append, ih (by omega), ← hhi, hsplit,
      sum32_append, Nat.min_eq_left (Nat.le_of_lt hlo)]
    congr 1
    exact (sumWords_cons _ _).trans (BitVec.add_zero _)

/-- After BUILD the valid entries are those it wrote. -/
theorem afterBuild_sectors {s : State} (hz : s.secSize ≠ 0) :
    s.afterBuild.sectors = s.builtTable := by
  rw [State.sectors, afterBuild_secCount_toNat hz, State.builtTable]
  exact List.map_congr_left fun i hi => afterBuild_sector (List.mem_range.1 hi)

/-- BUILD that ends in BUILT found a sector size and a table that fits. -/
theorem exec_build_built {s t : State} (hp : s.phase = .decoded) (h : exec .build s = .next t)
    (hb : t.phase = .built) : s.secSize ≠ 0 ∧ t = s.afterBuild := by
  rcases buildBody_cases s with ⟨-, hx⟩ | ⟨-, -, hx⟩ | ⟨hz, hfit, -⟩
  · rw [exec_build_of_decoded hp, hx] at h
    injection h with h
    subst h
    cases hb
  · rw [exec_build_of_decoded hp, hx] at h
    injection h with h
    subst h
    cases hb
  · rw [exec_build_eq_afterBuild hp hz hfit] at h
    injection h with h
    exact ⟨hz, h.symm⟩

/-- A sum of zeros. -/
theorem sumWords_eq_zero {ws : List Word} (h : ∀ w ∈ ws, w = 0) : sumWords ws = 0 := by
  induction ws with
  | nil => rfl
  | cons w ws ih =>
    rw [sumWords_cons, h w List.mem_cons_self, ih fun v hv => h v (List.mem_cons_of_mem w hv)]
    rfl

/-- Settles O38: the sectors cover the image once, and Sum32 adds up over them. -/
theorem imageChecksumIsSumOfImage : Obligations.ImageChecksumIsSumOfImage := by
  intro s t hp h hb
  obtain ⟨hz, rfl⟩ := exec_build_built hp h hb
  have hcover : s.endAddr.toNat ≤ s.sectorLo s.sectorTotal :=
    le_ceilDiv_mul _ (secSize_toNat_pos hz)
  refine ⟨?_, ?_, fun hu => ?_⟩
  · have hsum := sumWords_sectorBytes (Nat.le_refl s.sectorTotal)
    rw [Nat.min_eq_right hcover] at hsum
    have hcsum : s.builtTable.map Sector.csum
        = (List.range s.sectorTotal).map fun i => sum32 (s.sectorBytes i) := List.map_map
    exact (congrArg sumWords hcsum).trans hsum
  · rw [afterBuild_sectors hz]
    rfl
  · refine sumWords_eq_zero fun w hw => ?_
    simp only [State.builtTable, List.map_map, List.mem_map] at hw
    obtain ⟨i, -, rfl⟩ := hw
    simp [State.buildSector, hu]

/-! ### The verify groups (42_verifier.md R222, R223) -/

/-- The group `g` of the table is not empty, and its span is at most VWIN. -/
def GroupFits (vwin : Word) (tbl : List Sector) (g : Group) : Prop :=
  ∃ f l : Sector, g.first ≤ g.last ∧ tbl[g.first]? = some f ∧ tbl[g.last]? = some l
    ∧ l.endAddr.toNat ≤ vwin.toNat + f.startAddr.toNat

/-- The sector after the group `g` of the table does not fit in its window. -/
def GroupMaximal (vwin : Word) (tbl : List Sector) (g : Group) : Prop :=
  ∃ f e : Sector, tbl[g.first]? = some f ∧ tbl[g.last + 1]? = some e
    ∧ vwin.toNat + f.startAddr.toNat < e.endAddr.toNat

/-- From an open group that fits, with `rest` the sectors of the table from `i` on, every group fits
and every group that another follows is maximal. -/
theorem extendGroup_fits_maximal {vwin : Word} {tbl : List Sector}
    (hshort : ∀ (i : Nat) (e : Sector), tbl[i]? = some e →
      e.endAddr.toNat ≤ vwin.toNat + e.startAddr.toNat)
    {f l : Sector} {first i : Nat} {rest : List Sector} (hrest : rest = tbl.drop i)
    (hfi : first < i) (hf : tbl[first]? = some f) (hl : tbl[i - 1]? = some l)
    (hspan : l.endAddr.toNat ≤ vwin.toNat + f.startAddr.toNat) :
    (∀ g ∈ extendGroup vwin f.startAddr first i rest, GroupFits vwin tbl g)
      ∧ ∀ (k : Nat) (g g' : Group), (extendGroup vwin f.startAddr first i rest)[k]? = some g →
          (extendGroup vwin f.startAddr first i rest)[k + 1]? = some g' →
          GroupMaximal vwin tbl g := by
  have hopen : GroupFits vwin tbl { first := first, last := i - 1 } :=
    ⟨f, l, by simp only; omega, hf, hl, hspan⟩
  induction rest generalizing f l first i with
  | nil =>
    refine ⟨fun g hg => ?_, fun k g g' _ hg' => ?_⟩
    · rw [extendGroup, List.mem_singleton] at hg
      rw [hg]
      exact hopen
    · simp [extendGroup] at hg'
  | cons e rest ih =>
    have he : tbl[i]? = some e := by
      have := congrArg (·[0]?) hrest
      simpa using this.symm
    have hrest' : rest = tbl.drop (i + 1) := by
      have := congrArg (List.drop 1) hrest
      simpa [List.drop_drop] using this
    unfold extendGroup
    split
    case isTrue hfits =>
      have hspan' : e.endAddr.toNat ≤ vwin.toNat + f.startAddr.toNat := hfits
      exact ih hrest' (by omega) hf he hspan' ⟨f, e, by simp only; omega, hf, he, hspan'⟩
    case isFalse hover =>
      have hown := hshort i e he
      obtain ⟨hfit, hmax⟩ :=
        ih hrest' (Nat.lt_succ_self i) he he hown ⟨e, e, Nat.le_refl _, he, he, hown⟩
      refine ⟨fun g hg => ?_, fun k g g' hg hg' => ?_⟩
      · rcases List.mem_cons.1 hg with rfl | hg
        · exact hopen
        · exact hfit g hg
      · cases k with
        | zero =>
          obtain rfl := Option.some.inj hg
          have hi : i - 1 + 1 = i := by omega
          exact ⟨f, e, hf, by simpa [hi] using he, by omega⟩
        | succ k => exact hmax k g g' hg hg'

/-- Settles O40: the first group begins with the first sector alone. -/
theorem groupsPartitionTheSectors : Obligations.GroupsPartitionTheSectors := by
  intro vwin tbl hshort
  refine ⟨groupsOf_flatMap_indexes vwin tbl, ?_⟩
  cases tbl with
  | nil => exact ⟨nofun, nofun⟩
  | cons e rest =>
    exact extendGroup_fits_maximal (i := 1) hshort rfl Nat.one_pos rfl rfl (hshort 0 e rfl)

/-! ### The other commands (43_commands.md part 2) -/

theorem exec_verify_of_legal {s : State} (hp : s.phase = .built ∨ s.phase = .passed) :
    exec .verify s = .next (endStep (verifyBody s)) :=
  congrArg _ (runCommand_of_legal ((opLegalIn_iff s.phase).2.2.1.2 hp) verifyBody)

/-- The expected value of a group, sector by sector (42_verifier.md R225). -/
theorem expect_eq (s : State) (g : Group) :
    s.expect g = sumWords ((List.range (g.last + 1 - g.first)).map fun j =>
      if s.usesCrc = true then (s.sector (g.first + j)).crc else (s.sector (g.first + j)).csum) :=
  congrArg sumWords List.map_map

/-- VERIFY's registers for the first group do not depend on what they held (42_verifier.md R227). -/
theorem present_initGroups (s : State) (k : Nat) (g : Group) : present k g (initGroups s) = { s with
    vgTotal := BitVec.ofNat 32 s.groups.length, vgIdx := BitVec.ofNat 32 k,
    vgFirst := BitVec.ofNat 32 g.first, vgLast := BitVec.ofNat 32 g.last,
    vgStart := (s.sector g.first).startAddr,
    vgLen := (s.sector g.last).endAddr - (s.sector g.first).startAddr, vgExpect := s.expect g } :=
  rfl

/-- Settles O42: each clause's hypotheses select one case of VERIFY's body. -/
theorem verifyFormsGroupsAndPresentsTheFirst :
    Obligations.VerifyFormsGroupsAndPresentsTheFirst := by
  intro s hp
  rw [exec_verify_of_legal hp]
  rcases verifyBody_cases s with ⟨hlt, hx⟩ | ⟨hle, hnil, hx⟩ | ⟨g, gs, hle, hcons, hx⟩
  · rw [hx]
    exact ⟨fun _ => rfl, fun hle => absurd hle (by omega), fun _ _ hle => absurd hle (by omega)⟩
  · rw [hx]
    refine ⟨fun hlt => absurd hlt (by omega), fun _ _ => ?_, fun g gs _ hcons => ?_⟩
    · simp only [initGroups, hnil]
      rfl
    · rw [hnil] at hcons
      cases hcons
  · rw [hx]
    refine ⟨fun hlt => absurd hlt (by omega), fun _ hnil => ?_, fun g' gs' _ hcons' => ?_⟩
    · rw [hcons] at hnil
      cases hnil
    · rw [hcons] at hcons'
      cases hcons'
      rw [present_initGroups, expect_eq, hcons]
      rfl

/-- Settles O44. -/
theorem nopAndClearInEveryPhase : Obligations.NopAndClearInEveryPhase := fun s =>
  ⟨exec_nop s, exec_clear s⟩

theorem exec_range_of_legal {s : State} (hp : s.phase.hasImage) :
    exec .range s = .next (endStep (rangeBody s)) :=
  congrArg _ (runCommand_of_legal ((opLegalIn_iff s.phase).2.2.2.2 hp) rangeBody)

/-- Settles O45. -/
theorem rangeComputesChecksumAndCrc : Obligations.RangeComputesChecksumAndCrc := by
  intro s hp
  rw [exec_range_of_legal hp]
  rcases rangeBody_cases s with ⟨hlt, hx⟩ | ⟨hle, hx⟩
  · rw [hx]
    exact ⟨fun hle => absurd hle (by omega), fun _ => rfl⟩
  · rw [hx]
    exact ⟨fun _ => rfl, fun hlt => absurd hlt (by omega)⟩

/-- What an illegal word does (43_commands.md R275). -/
theorem runIllegal_eq (w : Word) (s : State) : runIllegal w s = { s with
    errPhase := s.phase, errCode := .illegalCmd, errInfo := w, phase := .failed, pend := .none } :=
  rfl

/-- Settles O46: a word above 5 is none of the legal ones, and an illegal instruction's word is the
one its operand encodes. -/
theorem illegalWordsRecordIllegalCmd : Obligations.IllegalWordsRecordIllegalCmd := by
  intro w s hw
  have henc := encode_decodeCmd w
  rw [← runIllegal_eq]
  rcases decodeCmd_cases w with ⟨rfl, -⟩ | ⟨rfl, -⟩ | ⟨rfl, -⟩ | ⟨rfl, -⟩ | ⟨rfl, -⟩ | ⟨rfl, -⟩
    | ⟨lo, h⟩ | ⟨lo, h⟩ | h
  iterate 6 exact absurd hw (by decide)
  · rw [h] at henc ⊢
    injection henc with henc
    exact ⟨.inl ⟨lo, rfl⟩, by rw [← henc]; rfl⟩
  · rw [h] at henc ⊢
    injection henc with henc
    exact ⟨.inr (.inl ⟨lo, rfl⟩), by rw [← henc]; rfl⟩
  · rw [h]
    exact ⟨.inr (.inr rfl), rfl⟩

/-- Settles O47: the dispatch of the four words in the phases that are not theirs. -/
theorem commandsOutOfPhaseRecordSequence : Obligations.CommandsOutOfPhaseRecordSequence := by
  intro w s h
  obtain ⟨hdecode, hbuild, hverify, hrange⟩ := opLegalIn_iff s.phase
  rcases h with ⟨rfl, hp⟩ | ⟨rfl, hp⟩ | ⟨rfl, hb, hp⟩ | ⟨rfl, hp⟩
  · exact congrArg _ (runCommand_of_illegal (op := 0x2)
      (Bool.eq_false_iff.2 (mt hdecode.1 hp)) decodeBody)
  · exact congrArg _ (runCommand_of_illegal (op := 0x3)
      (Bool.eq_false_iff.2 (mt hbuild.1 hp)) buildBody)
  · exact congrArg _ (runCommand_of_illegal (op := 0x4)
      (Bool.eq_false_iff.2 (mt hverify.1 (not_or.2 ⟨hb, hp⟩))) verifyBody)
  · exact congrArg _ (runCommand_of_illegal (op := 0x5)
      (Bool.eq_false_iff.2 (mt hrange.1 hp)) rangeBody)

end Sys2Proof.Machine
end

section
/-! PROOFS. Everything an accepted write and a command word can do, each said once; then the
invariant: every step from a legal state leads to a legal state, and none stops. -/

namespace Sys2Proof.Machine

/-! ### What a write can do (44_bus_access.md R291 to R302) -/

/-- A state `t` that a write of the value `v` to a register may leave with BUSY = 0, when it is not
dropped: a bound of what the write rules do, close enough for what every step keeps. -/
inductive WriteEffect (v : Word) (s : State) : Reg → State → Prop
  | nothing (r : Reg) : WriteEffect v s r s
  | ctrl (hp : s.phase = .idle) : WriteEffect v s .ctrl { s with ctrl := v.extractLsb' 0 2 }
  | maxAddr (hp : s.phase = .idle) :
      WriteEffect v s .maxAddr { s with maxAddr := minWord v s.capBuf }
  | secSize (hp : s.phase = .idle) : WriteEffect v s .secSize { s with secSize := v }
  | vwin (hp : s.phase = .idle) : WriteEffect v s .vwin { s with vwin := v }
  | cmd (hp : s.phase = .failed → v = 0x0 ∨ v = 0x1) :
      WriteEffect v s .cmd { s with pend := .cmd v }
  | status (hv : v.getLsbD 3 = true) : WriteEffect v s .status { s with drop := false }
  | inAddr : WriteEffect v s .inAddr { s with inAddr := v }
  | inData (m : Memory) (hm : s.inBuf.wf = true → m.wf = true) :
      WriteEffect v s .inData { s with inBuf := m, inAddr := s.inAddr + 1 }
  | inLen : WriteEffect v s .inLen { s with inLen := minWord v s.capIn }
  | imgAddr : WriteEffect v s .imgAddr { s with imgAddr := v }
  | secIdx : WriteEffect v s .secIdx { s with secIdx := v }
  | vgResp (hp : s.phase ≠ .failed) : WriteEffect v s .vgResp { s with vgResp := v, pend := .vstep }
  | rangeStart : WriteEffect v s .rangeStart { s with rangeStart := v }
  | rangeLen : WriteEffect v s .rangeLen { s with rangeLen := v }

/-- A write of a profile register is dropped or stored, the latter in IDLE. -/
theorem profileWrite_effect {r : Reg} {v : Word} {s t : State} {store : State → State}
    (h : (.next (profileWrite store s) : Result) = .next t)
    (hstore : s.phase = .idle → WriteEffect v s r (store s)) :
    t = s.dropWrite ∨ (s.busy = false ∧ WriteEffect v s r t) := by
  injection h with h
  rcases profileWrite_cases store s with ⟨-, hx⟩ | ⟨hb, hp, hx⟩
  · exact .inl (h.symm.trans hx)
  · exact .inr ⟨hb, (h.symm.trans hx) ▸ hstore hp⟩

/-- A write with the rule `rule` is dropped, by BUSY or by the rule, or has the rule's effect. -/
theorem hostWrite_effect {r : Reg} {v : Word} {s t : State} {rule : State → State}
    (h : (.next (hostWrite rule s) : Result) = .next t)
    (hrule : rule s = s.dropWrite ∨ WriteEffect v s r (rule s)) :
    t = s.dropWrite ∨ (s.busy = false ∧ WriteEffect v s r t) := by
  injection h with h
  rcases hostWrite_cases rule s with ⟨-, hx⟩ | ⟨hb, hx⟩
  · exact .inl (h.symm.trans hx)
  · rcases hrule with hd | he
    · exact .inl (h.symm.trans (hx.trans hd))
    · exact .inr ⟨hb, (h.symm.trans hx) ▸ he⟩

/-- All that a write can do. -/
theorem exec_writeInstr_cases {r : Reg} {v : Word} {s t : State}
    (h : exec (r.writeInstr v) s = .next t) :
    t = s.dropWrite ∨ (s.busy = false ∧ WriteEffect v s r t) := by
  cases r
  case ctrl => exact profileWrite_effect h .ctrl
  case maxAddr => exact profileWrite_effect h .maxAddr
  case secSize => exact profileWrite_effect h .secSize
  case vwin => exact profileWrite_effect h .vwin
  case cmd =>
    refine hostWrite_effect h ?_
    split
    · exact .inl rfl
    · rename_i hno
      refine .inr (.cmd fun hp => (acceptedInFailed_iff v).1 ?_)
      by_contra hv
      exact hno ⟨hp, Bool.eq_false_iff.2 hv⟩
  case status =>
    refine hostWrite_effect h (.inr ?_)
    split
    · exact .status ‹_›
    · exact .nothing _
  case inAddr => exact hostWrite_effect h (.inr .inAddr)
  case inData =>
    refine hostWrite_effect h (.inr (.inData _ fun hw => ?_))
    split
    · exact Memory.write_wf hw _ _
    · exact hw
  case inLen => exact hostWrite_effect h (.inr .inLen)
  case imgAddr => exact hostWrite_effect h (.inr .imgAddr)
  case secIdx => exact hostWrite_effect h (.inr .secIdx)
  case vgResp =>
    refine hostWrite_effect h ?_
    split
    · exact .inl rfl
    · exact .inr (.vgResp ‹_›)
  case rangeStart => exact hostWrite_effect h (.inr .rangeStart)
  case rangeLen => exact hostWrite_effect h (.inr .rangeLen)
  all_goals exact hostWrite_effect h (.inr (.nothing _))

/-! ### What a command word can do (43_commands.md) -/

/-- A state `t` in which the engine may leave the block after a command: `error` also bounds the
commands whose rules raise nothing. -/
inductive CommandEffect (s : State) : Instr → State → Prop
  | nop : CommandEffect s .nop { s with pend := .none }
  | clear : CommandEffect s .clear { clearBody s with pend := .none }
  | error (i : Instr) (code : ErrCode) (info : Word) (hn : i ≠ .nop) (hc : i ≠ .clear)
      (hcode : code ≠ .none) : CommandEffect s i (endStep (.err s code info))
  | decoded (s' : State) (txt : List Byte) (hp : s.phase = .idle) (hdec : Decoding s txt s') :
      CommandEffect s .decode { s' with phase := .decoded, pend := .none }
  | decodeError (s' : State) (txt : List Byte) (code : ErrCode) (info : Word) (hp : s.phase = .idle)
      (hdec : Decoding s txt s') (hcode : code ≠ .none) :
      CommandEffect s .decode (endStep (.err s' code info))
  | built (hp : s.phase = .decoded) (hz : s.secSize ≠ 0) (hfit : s.sectorTotal ≤ s.capSec.toNat) :
      CommandEffect s .build s.afterBuild
  | noGroups (hp : s.phase = .built ∨ s.phase = .passed) (hle : s.secSize.toNat ≤ s.vwin.toNat)
      (hnil : s.groups = []) :
      CommandEffect s .verify { initGroups s with phase := .passed, pend := .none }
  | firstGroup (g : Group) (gs : List Group) (hp : s.phase = .built ∨ s.phase = .passed)
      (hle : s.secSize.toNat ≤ s.vwin.toNat) (hcons : s.groups = g :: gs) :
      CommandEffect s .verify { present 0 g (initGroups s) with phase := .verifying, pend := .none }
  | range (csum crc : Word) :
      CommandEffect s .range { s with rangeCsum := csum, rangeCrc := crc, pend := .none }

theorem ErrorLocated.code_ne_none {s0 s : State} {code : ErrCode} {info : Word}
    (h : ErrorLocated s0 s code info) : code ≠ .none := by
  rcases h.kind with ⟨rfl, -⟩ | ⟨rfl, -⟩ | ⟨rfl | rfl | rfl, -⟩ <;> exact nofun

theorem decode_effect {s t : State} (hp : s.phase = .idle) (h : exec .decode s = .next t) :
    CommandEffect s .decode t := by
  rcases exec_decode_cases hp h with ⟨s', txt, hdec, rfl⟩ | ⟨s', txt, code, info, hdec, hloc, rfl⟩
  · exact .decoded s' txt hp hdec
  · exact .decodeError s' txt code info hp hdec hloc.code_ne_none

theorem build_effect {s : State} (hp : s.phase = .decoded) :
    CommandEffect s .build (endStep (buildBody s)) := by
  rcases buildBody_cases s with ⟨-, hx⟩ | ⟨-, -, hx⟩ | ⟨hz, hfit, hx⟩ <;> rw [hx]
  · exact .error _ _ _ nofun nofun nofun
  · exact .error _ _ _ nofun nofun nofun
  · exact .built hp hz hfit

theorem verify_effect {s : State} (hp : s.phase = .built ∨ s.phase = .passed) :
    CommandEffect s .verify (endStep (verifyBody s)) := by
  rcases verifyBody_cases s with ⟨-, hx⟩ | ⟨hle, hnil, hx⟩ | ⟨g, gs, hle, hcons, hx⟩ <;> rw [hx]
  · exact .error _ _ _ nofun nofun nofun
  · exact .noGroups hp hle hnil
  · exact .firstGroup g gs hp hle hcons

theorem range_effect (s : State) : CommandEffect s .range (endStep (rangeBody s)) := by
  rcases rangeBody_cases s with ⟨-, hx⟩ | ⟨-, hx⟩ <;> rw [hx]
  · exact .error _ _ _ nofun nofun nofun
  · exact .range _ _

/-- All that the dispatch of a command that has phases of its own can do. -/
theorem runCommand_effect {i : Instr} {op : BitVec 4} {body : State → EngineEnd} {s t : State}
    (hx : (.next (runCommand op body s) : Result) = .next t) (hn : i ≠ .nop) (hc : i ≠ .clear)
    (hbody : opLegalIn op s.phase = true → CommandEffect s i (endStep (body s))) :
    CommandEffect s i t := by
  injection hx with hx
  rw [← hx]
  rcases runCommand_cases op body s with ⟨hl, hr⟩ | ⟨-, hr⟩ <;> rw [hr]
  · exact hbody hl
  · exact .error i _ _ hn hc nofun

/-- All that a command word can do. -/
theorem exec_decodeCmd_effect {w : Word} {s t : State} (h : exec (decodeCmd w) s = .next t) :
    CommandEffect s (decodeCmd w) t := by
  obtain ⟨hdecode, hbuild, hverify, -⟩ := opLegalIn_iff s.phase
  rcases decodeCmd_cases w with ⟨-, hw⟩ | ⟨-, hw⟩ | ⟨-, hw⟩ | ⟨-, hw⟩ | ⟨-, hw⟩ | ⟨-, hw⟩ | ⟨lo, hw⟩
    | ⟨lo, hw⟩ | hw <;> rw [hw] at h ⊢
  · cases h
    exact .nop
  · cases h
    exact .clear
  · refine runCommand_effect h nofun nofun fun hl => ?_
    exact decode_effect (hdecode.1 hl) (exec_decode_of_idle (hdecode.1 hl))
  · exact runCommand_effect h nofun nofun fun hl => build_effect (hbuild.1 hl)
  · exact runCommand_effect h nofun nofun fun hl => verify_effect (hverify.1 hl)
  · exact runCommand_effect h nofun nofun fun _ => range_effect s
  · cases h
    exact .error _ _ _ nofun nofun nofun
  · cases h
    exact .error _ _ _ nofun nofun nofun
  · cases h
    exact .error _ _ _ nofun nofun nofun

/-! ### Legal states: what does not matter, and what a bus transaction changes -/

/-- Whether a state is legal does not depend on the fields that may differ here, but for PEND in
FAILED. -/
theorem Legal.of_frame {s t : State} (hl : Legal s) (h : t = { s with
      eofSeen := t.eofSeen, drop := t.drop, inAddr := t.inAddr, imgAddr := t.imgAddr,
      secIdx := t.secIdx, vgResp := t.vgResp, rangeStart := t.rangeStart, rangeLen := t.rangeLen,
      rangeCsum := t.rangeCsum, rangeCrc := t.rangeCrc, pend := t.pend, rdata := t.rdata,
      schedule := t.schedule, draws := t.draws })
    (hpend : s.phase = .failed → t.pend = .none ∨ t.pend = .cmd 0x0 ∨ t.pend = .cmd 0x1) :
    Legal t := by
  obtain ⟨hnone, hfailed⟩ := hl.error
  rw [h]
  refine ⟨hl.buffers, hl.caps, hl.bounds, hl.filled, ⟨hnone, fun hp => ?_⟩, hl.sectors, hl.groups⟩
  obtain ⟨hcode, hphase, -⟩ := hfailed hp
  exact ⟨hcode, hphase, hpend hp⟩

/-- In FAILED nothing but NOP or CLEAR is pending (44_bus_access.md R294). -/
theorem Legal.pend_of_failed {s : State} (hl : Legal s) (hp : s.phase = .failed) :
    s.pend = .none ∨ s.pend = .cmd 0x0 ∨ s.pend = .cmd 0x1 := by
  obtain ⟨-, -, hpend⟩ := hl.error.2 hp
  exact hpend

/-- Outside FAILED the error record is empty (10_state.md R39, R40, R43). -/
theorem Legal.no_error {s : State} (hl : Legal s) (hp : s.phase ≠ .failed) :
    s.errCode = .none ∧ s.errPhase = .idle ∧ s.errInfo = 0 := hl.error.1 hp

/-- In IDLE there are no bounds (10_state.md R69). -/
theorem Legal.bounds_of_idle {s : State} (hl : Legal s) (hp : s.phase = .idle) :
    s.haveData = false ∧ s.startAddr = 0 ∧ s.endAddr = 0 := by
  obtain ⟨-, -, hiff, hstart, hidle⟩ := hl.bounds
  have hf := hidle hp
  exact ⟨hf, hstart hf, by simpa [hf] using hiff⟩

/-- In IDLE the profile may change: there is no image, no sector and no group yet. -/
theorem Legal.with_profile {s : State} (hl : Legal s) (hp : s.phase = .idle) (ctrl : BitVec 2)
    {maxAddr : Word} (secSize vwin : Word) (hmax : maxAddr.toNat ≤ s.capBuf.toNat) :
    Legal { s with ctrl := ctrl, maxAddr := maxAddr, secSize := secSize, vwin := vwin } := by
  obtain ⟨hbuf, hin, hsec, -, hlen, hcount⟩ := hl.caps
  obtain ⟨hord, -, hiff, hstart, hidle⟩ := hl.bounds
  obtain ⟨-, -, hend⟩ := hl.bounds_of_idle hp
  obtain ⟨hzero, -⟩ := hl.sectors
  obtain ⟨hregs, -, -, -⟩ := hl.groups
  have hin0 : s.endAddr.toNat ≤ maxAddr.toNat := by rw [hend]; exact Nat.zero_le _
  refine ⟨hl.buffers, ⟨hbuf, hin, hsec, hmax, hlen, hcount⟩, ⟨hord, hin0, hiff, hstart, hidle⟩,
    hl.filled, hl.error, ⟨hzero, ?_⟩, ⟨hregs, ?_, ?_, ?_⟩⟩ <;> simp [hp]

/-- IN and IN_LEN may change: nothing that has been decoded depends on them (10_state.md R47, R65).
-/
theorem Legal.with_input {s : State} (hl : Legal s) {inBuf : Memory} {inLen : Word} (inAddr : Word)
    (hbuf : inBuf.wf = true) (hlen : inLen.toNat ≤ s.capIn.toNat) :
    Legal { s with inBuf := inBuf, inLen := inLen, inAddr := inAddr } := by
  obtain ⟨hb, hi, hs, hmax, -, hcount⟩ := hl.caps
  exact ⟨⟨hbuf, hl.buffers.2⟩, ⟨hb, hi, hs, hmax, hlen, hcount⟩, hl.bounds, hl.filled, hl.error,
    hl.sectors, hl.groups⟩

theorem WriteEffect.legal {v : Word} {r : Reg} {s t : State} (he : WriteEffect v s r t)
    (hl : Legal s) : Legal t := by
  obtain ⟨-, -, -, hmax, hlen, -⟩ := hl.caps
  cases he with
  | nothing => exact hl
  | ctrl hp => exact hl.with_profile hp _ _ _ hmax
  | maxAddr hp => exact hl.with_profile hp _ _ _ (by simp)
  | secSize hp => exact hl.with_profile hp _ _ _ hmax
  | vwin hp => exact hl.with_profile hp _ _ _ hmax
  | cmd hp =>
    refine hl.of_frame rfl fun hf => .inr ?_
    rcases hp hf with rfl | rfl
    · exact .inl rfl
    · exact .inr rfl
  | inData m hm => exact hl.with_input _ (hm hl.buffers.1) hlen
  | inLen => exact hl.with_input _ hl.buffers.1 (by simp)
  | vgResp hp => exact hl.of_frame rfl fun hf => absurd hf hp
  | status | inAddr | imgAddr | secIdx | rangeStart | rangeLen =>
    exact hl.of_frame rfl hl.pend_of_failed

/-- Every bus transaction keeps a legal state legal. -/
theorem exec_decodeBus_legal {sel : Selector} {v : Word} {s t : State} (hl : Legal s)
    (h : exec (decodeBus sel v) s = .next t) : Legal t := by
  rcases decodeBus_cases sel v with ⟨r, hr⟩ | ⟨r, hr⟩ | hr <;> rw [hr] at h
  · rw [exec_read_frame h]
    exact hl.of_frame rfl hl.pend_of_failed
  · rcases exec_writeInstr_cases h with rfl | ⟨-, he⟩
    · exact hl.of_frame rfl hl.pend_of_failed
    · exact he.legal hl
  · rw [exec_reserved_frame h]
    exact hl.of_frame rfl hl.pend_of_failed

/-! ### Legal states: what a command changes -/

/-- An error from outside FAILED leads to a legal state, when the image's bounds are in order:
FAILED asks nothing of the sectors and the groups (60_exceptions.md R350). -/
theorem legal_endStep_err {s : State} {code : ErrCode} (info : Word) (hb : BuffersCanonical s)
    (hc : CapacitiesBound s) (hi : ImageBounded { s with phase := .failed })
    (hp : s.phase ≠ .failed) (hcode : code ≠ .none) : Legal (endStep (.err s code info)) := by
  refine ⟨hb, hc, hi, ?filled, ⟨fun hne => absurd rfl hne, fun _ => ⟨hcode, hp, .inl rfl⟩⟩,
    ⟨?_, ?_⟩, ⟨?_, ?_, ?_, ?_⟩⟩ <;> simp [ImageFilled, endStep, enterError]

theorem Legal.endStep_err {s : State} {code : ErrCode} (hl : Legal s) (info : Word)
    (hp : s.phase ≠ .failed) (hcode : code ≠ .none) : Legal (endStep (.err s code info)) := by
  obtain ⟨hord, hins, hiff, hstart, -⟩ := hl.bounds
  exact legal_endStep_err info hl.buffers hl.caps ⟨hord, hins, hiff, hstart, nofun⟩ hp hcode

theorem Legal.clear {s : State} (hl : Legal s) : Legal { clearBody s with pend := .none } := by
  obtain ⟨hbuf, hin, hsec, hmax, hlen, -⟩ := hl.caps
  refine ⟨hl.buffers, ⟨hbuf, hin, hsec, hmax, hlen, Nat.zero_le _⟩,
    ⟨Nat.le_refl _, Nat.zero_le _, ?_, ?_, ?_⟩, ?_, ⟨?_, ?_⟩, ⟨?_, ?_⟩, ⟨?_, ?_, ?_, ?_⟩⟩ <;>
    simp [clearBody, leaveError]

/-- The bounds that the decoder leaves are in order, in every phase but IDLE (10_state.md R51, R69).
-/
theorem ImageDecoded.bounded {s : State} (h : ImageDecoded s) {p : Phase} (hp : p ≠ .idle) :
    ImageBounded { s with phase := p } :=
  ⟨h.ordered, h.inside, h.haveData_iff, h.start_zero, fun hi => absurd hi hp⟩

theorem Decoding.buffers {s s' : State} {txt : List Byte} (hdec : Decoding s txt s')
    (hl : Legal s) :
    BuffersCanonical s' := by
  refine ⟨?_, hdec.image.canonical⟩
  rw [hdec.frame]
  exact hl.buffers.1

theorem Decoding.caps {s s' : State} {txt : List Byte} (hdec : Decoding s txt s') (hl : Legal s) :
    CapacitiesBound s' := by
  obtain ⟨hbuf, hin, hsec, hmax, hlen, -⟩ := hl.caps
  rw [hdec.frame]
  exact ⟨hbuf, hin, hsec, hmax, hlen, Nat.zero_le _⟩

theorem Decoding.legal {s s' : State} {txt : List Byte} (hdec : Decoding s txt s') (hl : Legal s)
    (hp : s.phase = .idle) : Legal { s' with phase := .decoded, pend := .none } := by
  have hnf : s.phase ≠ .failed := by simp [hp]
  obtain ⟨hregs, -, -, -⟩ := hl.groups
  refine ⟨hdec.buffers hl, hdec.caps hl, hdec.image.bounded nofun, fun _ => hdec.image.filled,
    ⟨?_, ?_⟩, ⟨fun _ => ?_, ?_⟩, ⟨fun _ => ?_, ?_, ?_, ?_⟩⟩
  case refine_1 =>
    rw [hdec.frame]
    exact fun _ => hl.no_error hnf
  case refine_3 =>
    rw [hdec.frame]
    rfl
  case refine_5 =>
    rw [hdec.frame]
    exact hregs (.inl hp)
  all_goals simp

/-- After BUILD the table is the one BUILD computes (10_state.md R54, R67). -/
theorem Legal.built {s : State} (hl : Legal s) (hp : s.phase = .decoded) (hz : s.secSize ≠ 0)
    (hfit : s.sectorTotal ≤ s.capSec.toNat) : Legal s.afterBuild := by
  obtain ⟨hbuf, hin, hsec, hmax, hlen, -⟩ := hl.caps
  obtain ⟨hord, hins, hiff, hstart, -⟩ := hl.bounds
  obtain ⟨hregs, -, -, -⟩ := hl.groups
  have hnf : s.phase ≠ .failed := by simp [hp]
  have hcount := afterBuild_secCount_toNat hz
  have htable : s.afterBuild.sectors = s.afterBuild.builtTable := afterBuild_sectors hz
  refine ⟨hl.buffers, ⟨hbuf, hin, hsec, hmax, hlen, hcount ▸ hfit⟩,
    ⟨hord, hins, hiff, hstart, nofun⟩, fun _ => hl.filled (.inl hp),
    ⟨fun _ => hl.no_error hnf, nofun⟩, ⟨?early, fun _ => ⟨hz, hcount, htable, ?csum, ?crc⟩⟩,
    ⟨fun _ => hregs (.inr (.inl hp)), ?late, nofun, nofun⟩⟩
  case early | late => simp [State.afterBuild]
  case csum | crc => rw [htable]; rfl

/-- A state in VERIFYING or PASSED is legal when it has the sound table of a legal state `s`, and
its own group registers are those of a group of that table (10_state.md R59, R60). -/
theorem Legal.with_groups {s t : State} (hl : Legal s) (hs : s.phase.hasSectors)
    (ht : t.phase = .verifying ∨ t.phase = .passed)
    (h : t = { s with
      vgTotal := t.vgTotal, vgIdx := t.vgIdx, vgFirst := t.vgFirst, vgLast := t.vgLast,
      vgStart := t.vgStart, vgLen := t.vgLen, vgExpect := t.vgExpect, phase := t.phase,
      pend := t.pend })
    (hle : s.secSize.toNat ≤ s.vwin.toNat) (htotal : t.vgTotal.toNat = s.groups.length)
    (hshow : t.phase = .verifying →
      ∃ g, s.groups[t.vgIdx.toNat]? = some g ∧ ShowsGroup t t.vgIdx.toNat g)
    (hend : t.phase = .passed → t.vgIdx = t.vgTotal) : Legal t := by
  obtain ⟨hord, hins, hiff, hstart, -⟩ := hl.bounds
  have himage : s.phase.hasImage := .inr hs
  have hnf : s.phase ≠ .failed := by rcases hs with h | h | h <;> simp [h]
  have hni : t.phase ≠ .idle := by rcases ht with h | h <;> simp [h]
  have hnd : t.phase ≠ .decoded := by rcases ht with h | h <;> simp [h]
  have hnb : t.phase ≠ .built := by rcases ht with h | h <;> simp [h]
  have hntf : t.phase ≠ .failed := by rcases ht with h | h <;> simp [h]
  have hgroups : t.groups = s.groups := by rw [h]; rfl
  refine ⟨?buffers, ?caps, ?bounds, fun _ => ?filled, ⟨fun _ => ?error, fun hf => absurd hf hntf⟩,
    ⟨?table, fun _ => ?sectors⟩,
    ⟨?regs, fun _ => ⟨?window, hgroups ▸ htotal⟩, hgroups ▸ hshow, hend⟩⟩
  case buffers => rw [h]; exact hl.buffers
  case caps => rw [h]; exact hl.caps
  case bounds =>
    rw [h]
    exact ⟨hord, hins, hiff, hstart, fun hi => absurd hi hni⟩
  case filled => rw [h]; exact hl.filled himage
  case error => rw [h]; exact hl.no_error hnf
  case table => rintro (hi | hd) <;> contradiction
  case sectors => rw [h]; exact hl.sectors.2 hs
  case regs => rintro (hi | hd | hb) <;> contradiction
  case window => rw [h]; exact hle

theorem groups_length_toNat (s : State) :
    (BitVec.ofNat 32 s.groups.length).toNat = s.groups.length :=
  Nat.mod_eq_of_lt (groups_length_lt s)

theorem hasSectors_of_built_or_passed {p : Phase} (h : p = .built ∨ p = .passed) : p.hasSectors :=
  h.elim .inl fun hp => .inr (.inr hp)

theorem Legal.phase_ne_failed {s : State} {w : Word} (hl : Legal s) (hw : s.pend = .cmd w)
    (hn : decodeCmd w ≠ .nop) (hc : decodeCmd w ≠ .clear) : s.phase ≠ .failed := by
  intro hp
  rcases hl.pend_of_failed hp with h | h | h
  · exact Pend.noConfusion (hw.symm.trans h)
  · obtain rfl := Pend.cmd.inj (hw.symm.trans h)
    exact hn rfl
  · obtain rfl := Pend.cmd.inj (hw.symm.trans h)
    exact hc rfl

theorem CommandEffect.legal {i : Instr} {s t : State} (he : CommandEffect s i t) (hl : Legal s)
    (hnf : i ≠ .nop → i ≠ .clear → s.phase ≠ .failed) : Legal t := by
  cases he with
  | nop => exact hl.of_frame rfl fun _ => .inl rfl
  | clear => exact hl.clear
  | error _ code info hn hc hcode => exact hl.endStep_err info (hnf hn hc) hcode
  | decoded s' txt hp hdec => exact hdec.legal hl hp
  | decodeError s' txt code info hp hdec hcode =>
    have hne : s'.phase ≠ .failed := by rw [hdec.phase_eq, hp]; exact nofun
    exact legal_endStep_err info (hdec.buffers hl) (hdec.caps hl)
      (hdec.image.bounded nofun) hne hcode
  | built hp hz hfit => exact hl.built hp hz hfit
  | noGroups hp hle hnil =>
    refine hl.with_groups (hasSectors_of_built_or_passed hp) (.inr rfl) rfl hle
      (groups_length_toNat s) nofun fun _ => ?_
    show (0 : Word) = BitVec.ofNat 32 s.groups.length
    rw [hnil]
    rfl
  | firstGroup g gs hp hle hcons =>
    refine hl.with_groups (hasSectors_of_built_or_passed hp) (.inl rfl) rfl hle
      (groups_length_toNat s) (fun _ => ⟨g, ?_, rfl, rfl, rfl, rfl, rfl, rfl⟩) nofun
    rw [hcons]
    rfl
  | range => exact hl.of_frame rfl fun _ => .inl rfl

/-! ### Legal states: the verify step -/

/-- A group that Groups() has comes after fewer groups than a word counts. -/
theorem toNat_of_groups_getElem? {s : State} {k : Nat} {g : Group} (h : s.groups[k]? = some g) :
    (BitVec.ofNat 32 k).toNat = k := by
  have hk : k < s.groups.length := (List.getElem?_eq_some_iff.1 h).1
  have hword := groups_length_lt s
  exact Nat.mod_eq_of_lt (by omega)

/-- The verify step of a legal state completes: when the current group is not the last, Groups() has
the next (log 11). -/
theorem Legal.execVStep_completes {s : State} (hl : Legal s) : Completes (execVStep s) := by
  rcases execVStep_cases s with ⟨-, hx⟩ | ⟨-, -, hx⟩ | ⟨-, -, -, hx⟩ | ⟨g, -, -, -, -, hx⟩
    | ⟨hp, -, hmore, hnone, -⟩
  iterate 4 exact ⟨_, hx⟩
  obtain ⟨-, hready, hshow, -⟩ := hl.groups
  obtain ⟨-, htotal⟩ := hready (.inl hp)
  obtain ⟨g, hg, -⟩ := hshow hp
  have hk := (List.getElem?_eq_some_iff.1 hg).1
  have hlen := List.getElem?_eq_none_iff.1 hnone
  omega

theorem Legal.execVStep {s t : State} (hl : Legal s) (hv : s.pend = .vstep)
    (h : execVStep s = .next t) : Legal t := by
  have hnf : s.phase ≠ .failed := by
    intro hf
    simpa [hv] using hl.pend_of_failed hf
  obtain ⟨-, hready, -, -⟩ := hl.groups
  rcases execVStep_cases s with ⟨-, hx⟩ | ⟨-, -, hx⟩ | ⟨hp, -, hlast, hx⟩ | ⟨g, hp, -, -, hg, hx⟩
    | ⟨-, -, -, -, hx⟩ <;> rw [hx] at h <;> cases h
  · exact hl.endStep_err _ hnf nofun
  · exact hl.endStep_err _ hnf nofun
  · obtain ⟨hle, htotal⟩ := hready (.inl hp)
    exact hl.with_groups (.inr (.inl hp)) (.inr rfl) rfl hle htotal nofun fun _ => rfl
  · obtain ⟨hle, htotal⟩ := hready (.inl hp)
    have hk := toNat_of_groups_getElem? hg
    refine hl.with_groups (.inr (.inl hp)) (.inl hp) rfl hle htotal (fun _ => ⟨g, ?_, ?_⟩)
      fun hpass => absurd (hp.symm.trans hpass) nofun
    · exact (congrArg (fun n => s.groups[n]?) hk).trans hg
    · exact ⟨congrArg (BitVec.ofNat 32) hk.symm, rfl, rfl, rfl, rfl, rfl⟩

/-! ### Every step keeps a legal state legal -/

theorem Legal.resetEvent {s : State} (hl : Legal s) : Legal (resetEvent s) := by
  obtain ⟨hbuf, hin, hsec, -, -, -⟩ := hl.caps
  refine ⟨⟨rfl, rfl⟩, ⟨hbuf, hin, hsec, Nat.zero_le _, Nat.zero_le _, Nat.zero_le _⟩,
    ⟨Nat.le_refl _, Nat.le_refl _, ?_, ?_, ?_⟩, ?_, ⟨?_, ?_⟩, ⟨?_, ?_⟩, ⟨?_, ?_, ?_, ?_⟩⟩ <;>
    simp [Machine.resetEvent, State.reset]

theorem Legal.fetch {s : State} (hl : Legal s) : Legal (fetch s).2 := by
  rw [fetch_state]
  exact hl.of_frame rfl hl.pend_of_failed

theorem fetch_pend (s : State) : (fetch s).2.pend = s.pend := by rw [fetch_state]

/-- The invariant: whatever the turn, a legal state goes on to a legal state. -/
theorem Legal.step {s t : State} (hl : Legal s) (h : step s = .next t) : Legal t := by
  rcases step_cases h with ⟨-, -, rfl⟩ | ⟨sel, v, rest, -, -, hx⟩ | ⟨w, hw, -, hx⟩ | ⟨-, hv, hx⟩
    | ⟨-, rfl⟩
  · exact hl.fetch
  · exact exec_decodeBus_legal hl.fetch hx
  · exact (exec_decodeCmd_effect hx).legal hl.fetch
      (hl.fetch.phase_ne_failed ((fetch_pend s).trans hw))
  · exact hl.fetch.execVStep ((fetch_pend s).trans hv) hx
  · exact hl.fetch.resetEvent

/-- A legal state never stops: of the turns only the verify step can, and not in a legal state. -/
theorem Legal.step_completes {s : State} (hl : Legal s) : Completes (Machine.step s) := by
  have hu := hl.fetch
  unfold Machine.step
  cases hf : Machine.fetch s with
  | mk turn u =>
    rw [hf] at hu
    cases turn with
    | idle => exact ⟨u, rfl⟩
    | instr i => exact everyInstructionCompletes i u
    | verifyStep => exact hu.execVStep_completes
    | reset => exact ⟨_, rfl⟩

/-! ### The obligations -/

/-- Settles O50: every step keeps a legal state legal. -/
theorem stepKeepsBuffersAndCapacities : Obligations.StepKeepsBuffersAndCapacities := by
  intro s t hl h
  have ht := hl.step h
  exact ⟨ht.buffers, ht.caps⟩

/-- Settles O51: every step keeps a legal state legal. -/
theorem stepKeepsImageBounded : Obligations.StepKeepsImageBounded := by
  intro s t hl h
  have ht := hl.step h
  exact ⟨ht.bounds, ht.filled⟩

/-- Settles O52: every step keeps a legal state legal. -/
theorem stepKeepsErrorRecordSound : Obligations.StepKeepsErrorRecordSound := by
  intro s t hl h
  exact (hl.step h).error

/-- Settles O53: every step keeps a legal state legal. -/
theorem stepKeepsSectorsAndGroupsSound : Obligations.StepKeepsSectorsAndGroupsSound := by
  intro s t hl h
  have ht := hl.step h
  exact ⟨ht.sectors, ht.groups⟩

/-- Settles O54, by induction on the length of the run. -/
theorem noRunFromALegalStateStops : Obligations.NoRunFromALegalStateStops := by
  intro k
  induction k with
  | zero => exact fun s hl => ⟨s, rfl, hl⟩
  | succ k ih =>
    intro s hl
    obtain ⟨u, hu⟩ := hl.step_completes
    obtain ⟨t, hrun, ht⟩ := ih u (hl.step hu)
    exact ⟨t, (run_succ Sys2Proof.core k hu).trans hrun, ht⟩

/-- Settles O49: the registers are 0 and the phase is IDLE; a capacity is at least 1. -/
theorem resetStateIsLegal : Obligations.ResetStateIsLegal := by
  refine ⟨⟨rfl, rfl⟩, ⟨capacity_pos _, capacity_pos _, capacity_pos _, Nat.zero_le _, Nat.zero_le _,
    Nat.zero_le _⟩, ⟨Nat.le_refl _, Nat.le_refl _, ?_, ?_, ?_⟩, ?_, ⟨?_, ?_⟩, ⟨?_, ?_⟩,
    ⟨?_, ?_, ?_, ?_⟩⟩ <;> simp [State.reset]

/-- Settles O48. -/
theorem resetPutsEveryRegisterInItsResetValue :
    Obligations.ResetPutsEveryRegisterInItsResetValue := by
  intro s rest hs
  have hf : fetch s = (.reset, { s with schedule := rest }) := by simp only [fetch, hs]
  rw [step, hf]
  rfl

end Sys2Proof.Machine
end

section
/-! PROOFS. What changes only by the turns that the rules list: PHASE, the profile, the buffers,
DROP and BUSY (43_commands.md R251, 70_reset_and_hazards.md R392, 10_state.md R41, R42, R65, R66).
-/

namespace Sys2Proof.Machine

/-! ### PHASE (43_commands.md R251) -/

/-- A change of PHASE from `s` to `t` on R251's list, with the turn that makes it. -/
def PhaseChangeListed (turn : Turn) (s t : State) : Prop :=
  (turn = .instr .decode ∧ s.phase = .idle ∧ t.phase = .decoded)
    ∨ (turn = .instr .build ∧ s.phase = .decoded ∧ t.phase = .built)
    ∨ (turn = .instr .verify ∧ (s.phase = .built ∨ s.phase = .passed)
        ∧ t.phase = .verifying ∧ t.vgTotal ≠ 0)
    ∨ (turn = .instr .verify ∧ s.phase = .built ∧ t.phase = .passed ∧ t.vgTotal = 0)
    ∨ (turn = .verifyStep ∧ s.phase = .verifying ∧ t.phase = .passed
        ∧ s.vgResp = s.vgExpect ∧ s.vgIdx.toNat + 1 = s.vgTotal.toNat ∧ t.vgIdx = t.vgTotal)
    ∨ (s.busy = true ∧ s.phase ≠ .failed ∧ t.phase = .failed ∧ t.errPhase = s.phase
        ∧ t.errCode ≠ .none)
    ∨ (turn = .instr .clear ∧ t.phase = .idle)
    ∨ (turn = .reset ∧ t.phase = .idle)

theorem phaseChangeListed_of_error {turn : Turn} {s t : State} (hb : s.busy = true)
    (hne : t.phase ≠ s.phase) (hf : t.phase = .failed) (hphase : t.errPhase = s.phase)
    (hcode : t.errCode ≠ .none) : PhaseChangeListed turn s t :=
  .inr (.inr (.inr (.inr (.inr (.inl ⟨hb, fun hs => hne (hf.trans hs.symm), hf, hphase, hcode⟩)))))

/-- VG_TOTAL is 0 exactly when there is no group. -/
theorem groups_length_word_eq_zero_iff (s : State) :
    BitVec.ofNat 32 s.groups.length = 0 ↔ s.groups = [] := by
  rw [← List.length_eq_zero_iff]
  refine ⟨fun h => ?_, fun h => by rw [h]; rfl⟩
  rw [← groups_length_toNat s, h]
  rfl

theorem CommandEffect.phaseChangeListed {i : Instr} {s t : State} (he : CommandEffect s i t)
    (hb : s.busy = true) (hne : t.phase ≠ s.phase) : PhaseChangeListed (.instr i) s t := by
  cases he with
  | nop => exact absurd rfl hne
  | clear => exact .inr (.inr (.inr (.inr (.inr (.inr (.inl ⟨rfl, rfl⟩))))))
  | error _ code info hn hc hcode => exact phaseChangeListed_of_error hb hne rfl rfl hcode
  | decoded s' txt hp hdec => exact .inl ⟨rfl, hp, rfl⟩
  | decodeError s' txt code info hp hdec hcode =>
    exact phaseChangeListed_of_error hb hne rfl hdec.phase_eq hcode
  | built hp hz hfit => exact .inr (.inl ⟨rfl, hp, rfl⟩)
  | noGroups hp hle hnil =>
    exact .inr (.inr (.inr (.inl ⟨rfl, hp.resolve_right fun h => hne h.symm, rfl,
      (groups_length_word_eq_zero_iff s).2 hnil⟩)))
  | firstGroup g gs hp hle hcons =>
    refine .inr (.inr (.inl ⟨rfl, hp, rfl, fun h0 => ?_⟩))
    have hnil : s.groups = [] := (groups_length_word_eq_zero_iff s).1 h0
    rw [hnil] at hcons
    cases hcons
  | range => exact absurd rfl hne

theorem execVStep_phaseChangeListed {s t : State} (h : execVStep s = .next t) (hb : s.busy = true)
    (hne : t.phase ≠ s.phase) : PhaseChangeListed .verifyStep s t := by
  rcases execVStep_cases s with ⟨-, hx⟩ | ⟨-, -, hx⟩ | ⟨hp, hmatch, hlast, hx⟩ | ⟨g, -, -, -, -, hx⟩
    | ⟨-, -, -, -, hx⟩ <;> rw [hx] at h <;> cases h
  · exact phaseChangeListed_of_error hb hne rfl rfl nofun
  · exact phaseChangeListed_of_error hb hne rfl rfl nofun
  · exact .inr (.inr (.inr (.inr (.inl ⟨rfl, hp, rfl, hmatch, hlast, rfl⟩))))
  · exact absurd rfl hne

/-- A list entry does not depend on the schedule. -/
theorem phaseChangeListed_fetch {turn : Turn} {s t : State}
    (h : PhaseChangeListed turn (fetch s).2 t) : PhaseChangeListed turn s t := by
  rw [fetch_state] at h
  exact h

theorem busy_of_pend {s : State} {p : Pend} (h : s.pend = p) (hp : p ≠ .none) :
    (fetch s).2.busy = true := by
  rw [busy_eq_true, fetch_pend, h]
  exact hp

theorem fetch_phase (s : State) : (fetch s).2.phase = s.phase := by rw [fetch_state]

/-- Settles O55: bus transactions keep PHASE; the engine's turns are split by what they can do. -/
theorem phaseChangesOnlyAsListed : Obligations.PhaseChangesOnlyAsListed := by
  intro s t h hne
  rw [← fetch_phase s] at hne
  rcases step_cases h with ⟨-, -, rfl⟩ | ⟨sel, v, rest, -, -, hx⟩ | ⟨w, hw, hturn, hx⟩
    | ⟨hturn, hv, hx⟩ | ⟨hturn, rfl⟩
  · exact absurd rfl hne
  · obtain ⟨hphase, -⟩ := exec_decodeBus_keeps_error hx
    exact absurd hphase hne
  · rw [hturn]
    exact phaseChangeListed_fetch
      ((exec_decodeCmd_effect hx).phaseChangeListed (busy_of_pend hw nofun) hne)
  · rw [hturn]
    exact phaseChangeListed_fetch (execVStep_phaseChangeListed hx (busy_of_pend hv nofun) hne)
  · exact .inr (.inr (.inr (.inr (.inr (.inr (.inr ⟨hturn, rfl⟩))))))

/-! ### What no engine step writes -/

/-- `t` has the profile and the input buffer of `s`. -/
def ProfileAndInputKept (s t : State) : Prop :=
  (t.ctrl = s.ctrl ∧ t.maxAddr = s.maxAddr ∧ t.secSize = s.secSize ∧ t.vwin = s.vwin)
    ∧ t.inBuf = s.inBuf

theorem Decoding.profileAndInputKept {s s' : State} {txt : List Byte} (h : Decoding s txt s') :
    ProfileAndInputKept s s' := by
  rw [h.frame]
  exact ⟨⟨rfl, rfl, rfl, rfl⟩, rfl⟩

theorem CommandEffect.profileAndInputKept {i : Instr} {s t : State} (he : CommandEffect s i t) :
    ProfileAndInputKept s t := by
  cases he with
  | decoded s' txt hp hdec | decodeError s' txt code info hp hdec => exact hdec.profileAndInputKept
  | nop | clear | error | built | noGroups | firstGroup | range => exact ⟨⟨rfl, rfl, rfl, rfl⟩, rfl⟩

/-- The image is written by DECODE in IDLE alone (41_image_builder.md R199). -/
theorem CommandEffect.imgBuf {i : Instr} {s t : State} (he : CommandEffect s i t) :
    t.imgBuf = s.imgBuf ∨ (s.phase = .idle ∧ i = .decode) := by
  cases he with
  | decoded s' txt hp | decodeError s' txt code info hp => exact .inr ⟨hp, rfl⟩
  | nop | clear | error | built | noGroups | firstGroup | range => exact .inl rfl

/-- DROP is cleared by CLEAR alone. -/
theorem CommandEffect.drop {i : Instr} {s t : State} (he : CommandEffect s i t) :
    t.drop = s.drop ∨ i = .clear := by
  cases he with
  | decoded s' txt hp hdec | decodeError s' txt code info hp hdec =>
    have hdrop : s'.drop = s.drop := by rw [hdec.frame]; rfl
    exact .inl hdrop
  | clear => exact .inr rfl
  | nop | error | built | noGroups | firstGroup | range => exact .inl rfl

theorem CommandEffect.pend {i : Instr} {s t : State} (he : CommandEffect s i t) :
    t.pend = .none := by
  cases he <;> rfl

/-- The frame of the verify step (42_verifier.md R230 to R234). -/
theorem execVStep_frame {s t : State} (h : execVStep s = .next t) : t = { s with
    phase := t.phase, errCode := t.errCode, errPhase := t.errPhase, errInfo := t.errInfo,
    vgIdx := t.vgIdx, vgFirst := t.vgFirst, vgLast := t.vgLast, vgStart := t.vgStart,
    vgLen := t.vgLen, vgExpect := t.vgExpect, pend := .none } := by
  rcases execVStep_cases s with ⟨-, hx⟩ | ⟨-, -, hx⟩ | ⟨-, -, -, hx⟩ | ⟨g, -, -, -, -, hx⟩
    | ⟨-, -, -, -, hx⟩ <;> rw [hx] at h <;> cases h <;> rfl

/-! ### The profile and the buffers -/

/-- A write changes the profile only in IDLE and by a profile register's own write. -/
theorem WriteEffect.profile {v : Word} {r : Reg} {s t : State} (he : WriteEffect v s r t) :
    (t.ctrl = s.ctrl ∧ t.maxAddr = s.maxAddr ∧ t.secSize = s.secSize ∧ t.vwin = s.vwin)
      ∨ (s.phase = .idle ∧ (r = .ctrl ∨ r = .maxAddr ∨ r = .secSize ∨ r = .vwin)) := by
  cases he with
  | ctrl hp | maxAddr hp | secSize hp | vwin hp => exact .inr ⟨hp, by simp⟩
  | nothing | cmd | status | inAddr | inData | inLen | imgAddr | secIdx | vgResp | rangeStart
  | rangeLen => exact .inl ⟨rfl, rfl, rfl, rfl⟩

/-- A write changes IN only through IN_DATA, and IMG not at all (10_state.md R49, R65). -/
theorem WriteEffect.buffers {v : Word} {r : Reg} {s t : State} (he : WriteEffect v s r t) :
    (t.inBuf = s.inBuf ∨ r = .inData) ∧ t.imgBuf = s.imgBuf := by
  cases he with
  | inData => exact ⟨.inr rfl, rfl⟩
  | nothing | ctrl | maxAddr | secSize | vwin | cmd | status | inAddr | inLen | imgAddr | secIdx
  | vgResp | rangeStart | rangeLen => exact ⟨.inl rfl, rfl⟩

/-- A write clears DROP only through STATUS with bit 3 = 1 (44_bus_access.md R296). -/
theorem WriteEffect.drop {v : Word} {r : Reg} {s t : State} (he : WriteEffect v s r t) :
    t.drop = s.drop ∨ (v.getLsbD 3 = true ∧ r = .status) := by
  cases he with
  | status hv => exact .inr ⟨hv, rfl⟩
  | nothing | ctrl | maxAddr | secSize | vwin | cmd | inAddr | inData | inLen | imgAddr | secIdx
  | vgResp | rangeStart | rangeLen => exact .inl rfl

/-- A write changes PEND only through CMD and VG_RESP (44_bus_access.md R293, R302). -/
theorem WriteEffect.pend {v : Word} {r : Reg} {s t : State} (he : WriteEffect v s r t) :
    t.pend = s.pend ∨ r = .cmd ∨ r = .vgResp := by
  cases he with
  | cmd | vgResp => exact .inr (by simp)
  | nothing | ctrl | maxAddr | secSize | vwin | status | inAddr | inData | inLen | imgAddr | secIdx
  | rangeStart | rangeLen => exact .inl rfl

/-- All that a bus transaction can do: answer a read, set DROP, or an accepted write. -/
theorem exec_decodeBus_cases {sel : Selector} {v : Word} {s t : State}
    (h : exec (decodeBus sel v) s = .next t) :
    t = { s with rdata := t.rdata, draws := t.draws, inAddr := t.inAddr, imgAddr := t.imgAddr }
      ∨ t = s.dropWrite
      ∨ ∃ r : Reg, decodeBus sel v = r.writeInstr v ∧ s.busy = false ∧ WriteEffect v s r t := by
  rcases decodeBus_cases sel v with ⟨r, hr⟩ | ⟨r, hr⟩ | hr
  · rw [hr] at h
    exact .inl (exec_read_frame h)
  · rw [hr] at h
    rcases exec_writeInstr_cases h with hd | ⟨hb, he⟩
    · exact .inr (.inl hd)
    · exact .inr (.inr ⟨r, hr, hb, he⟩)
  · rw [hr] at h
    refine .inl ?_
    rw [exec_reserved_frame h]

theorem fetch_busy (s : State) : (fetch s).2.busy = s.busy := busy_congr (fetch_pend s)

/-- Settles O57: of the turns only a write in IDLE and reset touch the profile. -/
theorem profileIsLockedOutsideIdle : Obligations.ProfileIsLockedOutsideIdle := by
  intro s t h
  have hfetch : ((fetch s).2.ctrl = s.ctrl ∧ (fetch s).2.maxAddr = s.maxAddr
      ∧ (fetch s).2.secSize = s.secSize ∧ (fetch s).2.vwin = s.vwin) := by
    rw [fetch_state]
    exact ⟨rfl, rfl, rfl, rfl⟩
  obtain ⟨hctrl, hmax, hsize, hvwin⟩ := hfetch
  rw [← hctrl, ← hmax, ← hsize, ← hvwin]
  rcases step_cases h with ⟨-, -, rfl⟩ | ⟨sel, v, rest, -, hturn, hx⟩ | ⟨w, -, -, hx⟩ | ⟨-, -, hx⟩
    | ⟨hturn, -⟩
  · exact .inl ⟨rfl, rfl, rfl, rfl⟩
  · rcases exec_decodeBus_cases hx with ht | rfl | ⟨r, hr, hb, he⟩
    · rw [ht]
      exact .inl ⟨rfl, rfl, rfl, rfl⟩
    · exact .inl ⟨rfl, rfl, rfl, rfl⟩
    · rcases he.profile with hkept | ⟨hp, hreg⟩
      · exact .inl hkept
      · refine .inr (.inr ⟨(fetch_phase s).symm.trans hp, (fetch_busy s).symm.trans hb, v, ?_⟩)
        rw [hturn, hr]
        rcases hreg with rfl | rfl | rfl | rfl <;> simp [Reg.writeInstr]
  · obtain ⟨hkept, -⟩ := (exec_decodeCmd_effect hx).profileAndInputKept
    exact .inl hkept
  · rw [execVStep_frame hx]
    exact .inl ⟨rfl, rfl, rfl, rfl⟩
  · exact .inr (.inl hturn)

/-- Settles O58: the buffers under every turn. -/
theorem buffersChangeOnlyByTheirWriters : Obligations.BuffersChangeOnlyByTheirWriters := by
  intro s t h
  have hin : (fetch s).2.inBuf = s.inBuf := by rw [fetch_state]
  have himg : (fetch s).2.imgBuf = s.imgBuf := by rw [fetch_state]
  rw [← hin, ← himg]
  rcases step_cases h with ⟨-, -, rfl⟩ | ⟨sel, v, rest, -, hturn, hx⟩ | ⟨w, -, hturn, hx⟩
    | ⟨-, -, hx⟩ | ⟨hturn, -⟩
  · exact ⟨absurd rfl, absurd rfl⟩
  · rcases exec_decodeBus_cases hx with ht | rfl | ⟨r, hr, hb, he⟩
    · rw [ht]
      exact ⟨absurd rfl, absurd rfl⟩
    · exact ⟨absurd rfl, absurd rfl⟩
    · obtain ⟨hbuf, hkept⟩ := he.buffers
      refine ⟨fun hne => .inr ⟨(fetch_busy s).symm.trans hb, v, ?_⟩, absurd hkept⟩
      obtain rfl := hbuf.resolve_left hne
      rw [hturn, hr]
      rfl
  · have he := exec_decodeCmd_effect hx
    obtain ⟨-, hkept⟩ := he.profileAndInputKept
    refine ⟨absurd hkept, fun hne => .inr ?_⟩
    obtain ⟨hp, hi⟩ := he.imgBuf.resolve_left hne
    exact ⟨(fetch_phase s).symm.trans hp, by rw [hturn, hi]⟩
  · rw [execVStep_frame hx]
    exact ⟨absurd rfl, absurd rfl⟩
  · exact ⟨fun _ => .inl hturn, fun _ => .inl hturn⟩

/-! ### DROP and BUSY (10_state.md R41, R42) -/

theorem drop_cleared_listed {s t : State} (h : step s = .next t) (hset : s.drop = true)
    (hclear : t.drop = false) :
    (s.busy = false ∧ ∃ v : Word, v.getLsbD 3 = true ∧ (fetch s).1 = .instr (.wrStatus v))
      ∨ (fetch s).1 = .instr .clear ∨ (fetch s).1 = .reset := by
  have hne : t.drop ≠ (fetch s).2.drop := by rw [fetch_state]; simp [hset, hclear]
  rcases step_cases h with ⟨-, -, rfl⟩ | ⟨sel, v, rest, -, hturn, hx⟩ | ⟨w, -, hturn, hx⟩
    | ⟨-, -, hx⟩ | ⟨hturn, -⟩
  · exact absurd rfl hne
  · rcases exec_decodeBus_cases hx with ht | rfl | ⟨r, hr, hb, he⟩
    · rw [ht] at hne
      exact absurd rfl hne
    · exact absurd hclear nofun
    · obtain ⟨hv, rfl⟩ := he.drop.resolve_left hne
      exact .inl ⟨(fetch_busy s).symm.trans hb, v, hv, by rw [hturn, hr]; rfl⟩
  · have hi := (exec_decodeCmd_effect hx).drop.resolve_left hne
    exact .inr (.inl (by rw [hturn, hi]))
  · rw [execVStep_frame hx] at hne
    exact absurd rfl hne
  · exact .inr (.inr hturn)

theorem execVStep_pend {s t : State} (h : execVStep s = .next t) : t.pend = .none := by
  rw [execVStep_frame h]

theorem busy_raised_listed {s t : State} (h : step s = .next t) (hlow : s.busy = false)
    (hhigh : t.busy = true) :
    ∃ v, (fetch s).1 = .instr (.wrCmd v) ∨ (fetch s).1 = .instr (.wrVgResp v) := by
  have hsome : t.pend ≠ .none := busy_eq_true.1 hhigh
  have hne : t.pend ≠ (fetch s).2.pend := by rwa [fetch_pend, busy_eq_false.1 hlow]
  rcases step_cases h with ⟨-, -, rfl⟩ | ⟨sel, v, rest, -, hturn, hx⟩ | ⟨w, -, -, hx⟩ | ⟨-, -, hx⟩
    | ⟨-, rfl⟩
  · exact absurd rfl hne
  · rcases exec_decodeBus_cases hx with ht | rfl | ⟨r, hr, -, he⟩
    · rw [ht] at hne
      exact absurd rfl hne
    · exact absurd rfl hne
    · refine ⟨v, ?_⟩
      rw [hturn, hr]
      rcases he.pend.resolve_left hne with rfl | rfl
      · exact .inl rfl
      · exact .inr rfl
  · exact absurd (exec_decodeCmd_effect hx).pend hsome
  · exact absurd (execVStep_pend hx) hsome
  · exact absurd rfl hsome

theorem engine_ends_operation {s t : State} (h : step s = .next t)
    (hs : s.schedule = [] ∨ ∃ rest, s.schedule = .engine :: rest) : t.busy = false := by
  rw [busy_eq_false]
  rcases step_cases h with ⟨-, hp, rfl⟩ | ⟨sel, v, rest, hbus, -, -⟩ | ⟨w, -, -, hx⟩ | ⟨-, -, hx⟩
    | ⟨-, rfl⟩
  · exact (fetch_pend s).trans hp
  · rw [hbus] at hs
    rcases hs with hs | ⟨_, hs⟩ <;> cases hs
  · exact (exec_decodeCmd_effect hx).pend
  · exact execVStep_pend hx
  · rfl

/-- Settles O59. -/
theorem dropAndBusyChangeOnlyAsListed : Obligations.DropAndBusyChangeOnlyAsListed :=
  ⟨fun _ _ => drop_cleared_listed, fun _ _ => busy_raised_listed, fun _ _ => engine_ends_operation⟩

end Sys2Proof.Machine
end
